-- ==== Sys2Proof/Word.lean ====
section
/-!
DEFINITION. The two word types of the engine: the byte of the streams (20_memory R66) and the 32-bit scalar register
(10_state R23). Big registers are naturals (10_state R21), so they need no word type.
-/

namespace Sys2Proof

/-- The unit of transfer of both streams (20_memory R66). -/
abbrev Byte := BitVec 8

/-- The contents of a scalar register, 32 bits wide (10_state R23). -/
abbrev Scalar := BitVec 32

end Sys2Proof
end

