-- ==== Sys2Proof/Machine/Numbers.lean ====
section
/-!
DEFINITION. The arithmetic and byte-string primitives of 00_scope R6 to R8, on naturals: `Bitlen`, `ILog2`, bits,
`ByteCount`, `FromBytes`, `ToBytes`, `ToBytesN`, and modular power.
-/

namespace Sys2Proof

/-- `v[i]`, bit `i` of a natural (00_scope R6). -/
def bitOf (v i : Nat) : Nat := v / 2 ^ i % 2

/-- `Bitlen(v)`: 0 for 0, otherwise the least `n` with `v < 2^n` (00_scope R7). -/
def bitlen (v : Nat) : Nat := if v = 0 then 0 else Nat.log2 v + 1

/-- `ILog2(v) = Bitlen(v) - 1`, defined for `v >= 1` (00_scope R7). -/
def iLog2 (v : Nat) : Nat := bitlen v - 1

/-- The number of whole bytes that hold `bits` bits, `⌈bits/8⌉`. -/
def bytesFor (bits : Nat) : Nat := (bits + 7) / 8

/-- `ByteCount(b, c)`, the least `n` with `256^n >= b^c`, by the closed form that 95_test_vectors 2.5 derives from
00_scope R7. -/
def byteCount (b c : Nat) : Nat := bytesFor (bitlen (b ^ c - 1))

/-- `FromBytes` continued from a number already read (00_scope R8: first byte most significant). -/
def fromBytesFrom : Nat → List Byte → Nat
  | acc, [] => acc
  | acc, b :: bs => fromBytesFrom (256 * acc + b.toNat) bs

/-- `FromBytes(bs)` (00_scope R8). -/
def fromBytes (bs : List Byte) : Nat := fromBytesFrom 0 bs

/-- `ToBytesN(v, n)` (00_scope R8): `n` bytes, big-endian; of a `v` that is too large, its low `n` bytes. -/
def toBytesN (v : Nat) : Nat → List Byte
  | 0 => []
  | n + 1 => BitVec.ofNat 8 (v / 256 ^ n) :: toBytesN v n

/-- `ToBytes(v)` (00_scope R8): the shortest big-endian byte string of `v`. -/
def toBytes (v : Nat) : List Byte := toBytesN v (bytesFor (bitlen v))

/-- Square and multiply over the `k` low bits of the exponent, most significant first. -/
def modExpBits (b m : Nat) : Nat → Nat → Nat
  | 0, _ => 1 % m
  | k + 1, e =>
    if bitOf e 0 = 1 then modExpBits b m k (e / 2) ^ 2 % m * b % m
    else modExpBits b m k (e / 2) ^ 2 % m

/-- `(b ^ e) mod m` (45_modexp R215, R216), reducing as it goes: R216 says it "gives the same number", and
`modExp_eq` of Laws/Numbers.lean proves it. -/
def modExp (b e m : Nat) : Nat := modExpBits b m (bitlen e) e

end Sys2Proof
end

