-- ==== Sys2Proof/Syntax.lean ====
section
/-!
DEFINITION. The commands (30_encoding R96), one constructor per row of spec/opcode_table.json, and the registers that
`LD` and `RD` select (20_memory R67). A payload stays the byte string the packet carried: `EXTRACT 1` and
`EXTRACT h'000001'` are two packets with one meaning (30_encoding R91, R100).
-/

namespace Sys2Proof

/-- The fourteen registers of 20_memory R67. -/
inductive Reg where
  | N | X | P | Q | B | E | M | R
  | KREQ | KBL | MODE | WHITEN | BASE | STATUS
deriving DecidableEq, Repr

/-- The eleven commands of 30_encoding R96. -/
inductive Instr where
  /-- `LD <reg>, <value>` (40_transfer_system R120) -/
  | ld (reg : Reg) (payload : List Byte)
  /-- `RD <reg>` (R121) -/
  | rd (reg : Reg)
  /-- `CLR` (R122) -/
  | clr
  /-- `GENKEY` (41_modulus R140) -/
  | genkey
  /-- `MKN` (R146) -/
  | mkn
  /-- `SEEDR` (42_seed R160) -/
  | seedr
  /-- `SEEDX <x>` (R161) -/
  | seedx (payload : List Byte)
  /-- `SQR` (43_square_extract R176) -/
  | sqr
  /-- `EXTRACT <nbytes>` (R177) -/
  | extract (payload : List Byte)
  /-- `DIGITS <count>` (44_radix R200) -/
  | digits (payload : List Byte)
  /-- `MODEXP` (45_modexp R215) -/
  | modexp
deriving DecidableEq, Repr

end Sys2Proof
end

