-- ==== Sys2Proof/Machine/Registers.lean ====
section
/-!
DEFINITION. The register-select space of 20_memory R67: each register's number, class and whether `LD` may write it.
-/

namespace Sys2Proof

/-- The register classes of 20_memory R67: true for the eight big registers. -/
def Reg.isBig : Reg → Bool
  | .N | .X | .P | .Q | .B | .E | .M | .R => true
  | .KREQ | .KBL | .MODE | .WHITEN | .BASE | .STATUS => false

/-- The registers `LD` may write in some phase (20_memory R67, column `LD`). -/
def Reg.loadable : Reg → Bool
  | .P | .Q | .B | .E | .M | .KREQ | .MODE | .WHITEN | .BASE => true
  | .N | .X | .R | .KBL | .STATUS => false

/-- The select number of a register (20_memory R67). -/
def Reg.select : Reg → Byte
  | .N => 0x00 | .X => 0x01 | .P => 0x02 | .Q => 0x03
  | .B => 0x04 | .E => 0x05 | .M => 0x06 | .R => 0x07
  | .KREQ => 0x10 | .KBL => 0x11 | .MODE => 0x12 | .WHITEN => 0x13 | .BASE => 0x14 | .STATUS => 0x15

/-- The register a select number names; every number not listed in 20_memory R67 is reserved. -/
def regOfSelect (a : Byte) : Option Reg :=
  if a = 0x00 then some .N
  else if a = 0x01 then some .X
  else if a = 0x02 then some .P
  else if a = 0x03 then some .Q
  else if a = 0x04 then some .B
  else if a = 0x05 then some .E
  else if a = 0x06 then some .M
  else if a = 0x07 then some .R
  else if a = 0x10 then some .KREQ
  else if a = 0x11 then some .KBL
  else if a = 0x12 then some .MODE
  else if a = 0x13 then some .WHITEN
  else if a = 0x14 then some .BASE
  else if a = 0x15 then some .STATUS
  else none

end Sys2Proof
end

