-- ==== Sys2Proof/WellFormed.lean ====
section
/-!
DEFINITION. Which terms of `Instr` a packet can spell: `LD` names a register it may write (30_encoding R97 (e)) and a
payload has at most 65535 bytes (R90).
-/

namespace Sys2Proof

/-- `LEN` is a 16-bit field (30_encoding R90). -/
def payloadFits (payload : List Byte) : Bool := decide (payload.length ≤ 65535)

/-- The terms that are some packet's meaning. -/
def Instr.wellFormed : Instr → Bool
  | .ld reg payload => reg.loadable && payloadFits payload
  | .rd _ => true
  | .clr => true
  | .genkey => true
  | .mkn => true
  | .seedr => true
  | .seedx payload => payloadFits payload
  | .sqr => true
  | .extract payload => payloadFits payload
  | .digits payload => payloadFits payload
  | .modexp => true

end Sys2Proof
end

