-- ==== Sys2Proof/Decode.lean ====
section
/-!
DEFINITION. Command packets (30_encoding R90 to R92, R96 to R99): the decoder, total on every byte string, which
names why it rejects a packet (R97), and the encoder written from the same tables (R96, R100).
-/

namespace Sys2Proof

/-- Why a packet is an illegal encoding (30_encoding R97 (a) to (e)). -/
inductive Illegal where
  /-- (a) `OP` is none of the eleven opcodes -/
  | unknownOpcode
  /-- (b) the format requires `A = 0` -/
  | selectNotZero
  /-- (c) the format requires `LEN = 0` -/
  | lengthNotZero
  /-- (d) a reserved register select -/
  | reservedSelect
  /-- (e) `LD` of a register it may never write -/
  | neverWritten
deriving DecidableEq, Repr

/-- What stands at the front of a command stream. -/
inductive Decoded where
  /-- no whole packet yet (30_encoding R98) -/
  | incomplete
  /-- an illegal encoding: its `OP` byte, the reason, and the stream after the whole packet -/
  | illegal (op : Byte) (why : Illegal) (rest : List Byte)
  /-- a command and the stream after its packet -/
  | command (i : Instr) (rest : List Byte)
deriving DecidableEq, Repr

/-- The opcode map (30_encoding R96). -/
def Instr.opcode : Instr → Byte
  | .ld _ _ => 0x01
  | .rd _ => 0x02
  | .clr => 0x03
  | .genkey => 0x10
  | .mkn => 0x11
  | .seedr => 0x12
  | .seedx _ => 0x13
  | .sqr => 0x20
  | .extract _ => 0x21
  | .digits _ => 0x22
  | .modexp => 0x30

/-- Format N (30_encoding R92): `A` and `LEN` must be 0. -/
def decodeN (i : Instr) (a : Byte) (payload : List Byte) : Except Illegal Instr :=
  if a ≠ 0 then .error .selectNotZero
  else if payload.length ≠ 0 then .error .lengthNotZero
  else .ok i

/-- Format V: `A` must be 0, the payload is the operand. -/
def decodeV (f : List Byte → Instr) (a : Byte) (payload : List Byte) : Except Illegal Instr :=
  if a ≠ 0 then .error .selectNotZero else .ok (f payload)

/-- Format L: `A` selects a register that may be loaded, the payload is the value. -/
def decodeL (a : Byte) (payload : List Byte) : Except Illegal Instr :=
  match regOfSelect a with
  | none => .error .reservedSelect
  | some r => if r.loadable then .ok (.ld r payload) else .error .neverWritten

/-- Format R: `A` selects a register, `LEN` must be 0. -/
def decodeR (a : Byte) (payload : List Byte) : Except Illegal Instr :=
  match regOfSelect a with
  | none => .error .reservedSelect
  | some r => if payload.length ≠ 0 then .error .lengthNotZero else .ok (.rd r)

/-- One packet's fields to its command, by the opcode map (30_encoding R96, R97). -/
def decodePacket (op a : Byte) (payload : List Byte) : Except Illegal Instr :=
  if op = 0x01 then decodeL a payload
  else if op = 0x02 then decodeR a payload
  else if op = 0x03 then decodeN .clr a payload
  else if op = 0x10 then decodeN .genkey a payload
  else if op = 0x11 then decodeN .mkn a payload
  else if op = 0x12 then decodeN .seedr a payload
  else if op = 0x13 then decodeV .seedx a payload
  else if op = 0x20 then decodeN .sqr a payload
  else if op = 0x21 then decodeV .extract a payload
  else if op = 0x22 then decodeV .digits a payload
  else if op = 0x30 then decodeN .modexp a payload
  else .error .unknownOpcode

/-- The front of the command stream (30_encoding R90, R98, R99): four header bytes, `LEN` from bytes 2 and 3 with
byte 2 the high byte, then `LEN` payload bytes, all consumed together or not at all. -/
def decode : List Byte → Decoded
  | op :: a :: lenHi :: lenLo :: stream =>
    let len := 256 * lenHi.toNat + lenLo.toNat
    if stream.length < len then .incomplete
    else match decodePacket op a (stream.take len) with
      | .error why => .illegal op why (stream.drop len)
      | .ok i => .command i (stream.drop len)
  | _ => .incomplete

/-- A packet with these fields (30_encoding R90). -/
def packetBytes (op a : Byte) (payload : List Byte) : List Byte :=
  op :: a :: toBytesN payload.length 2 ++ payload

/-- The packet of a command (30_encoding R92, R96, R100). -/
def encode (i : Instr) : List Byte :=
  match i with
  | .ld r payload => packetBytes i.opcode r.select payload
  | .rd r => packetBytes i.opcode r.select []
  | .clr | .genkey | .mkn | .seedr | .sqr | .modexp => packetBytes i.opcode 0 []
  | .seedx payload | .extract payload | .digits payload => packetBytes i.opcode 0 payload

/-- Byte `k` of an instruction numbered as spec/opcode_table.json numbers it: the first word is the 32-bit big-endian
header (30_encoding R90), so its byte 0 is bits 31 to 24; payload byte `j` is bits `32 + 8j` up. -/
def tableByte (w k : Nat) : Byte :=
  if k < 4 then BitVec.ofNat 8 (w / 2 ^ (24 - 8 * k)) else BitVec.ofNat 8 (w / 2 ^ (8 * k))

/-- The bytes of the table's word `w` of `nbits` bits, bits above `nbits` zero, with the `LEN` payload bytes that its
header asks for. -/
def tableBytes (nbits w : Nat) : List Byte :=
  let v := w % 2 ^ nbits
  (List.range (4 + v % 65536)).map (tableByte v)

/-- The instruction this decoder reads from the table's word `w`. -/
def decodeTableWord (nbits w : Nat) : Option Instr :=
  match decode (tableBytes nbits w) with
  | .command i _ => some i
  | .illegal _ _ _ => none
  | .incomplete => none

end Sys2Proof
end

