-- ==== Sys2Proof/Config.lean ====
section
/-!
DEFINITION. What an implementation fixes (the `OPEN` rows of 00_scope R5), as one record of plain data that every claim
quantifies over, and the free values: the entropy answers (00_scope R10) and the parts of `NextPrime` and `ProbPrime`
that 41_modulus R148 leaves open.
-/

namespace Sys2Proof

/-- `ACC_BIT_ORDER` (00_scope R5, 43_square_extract R181): the order of the k bits of one squaring. -/
inductive BitOrder where
  | lowFirst
  | highFirst
deriving DecidableEq, Repr

/-- Where the bases of the Miller-Rabin rounds come from, which 45_modexp R217 leaves open. -/
inductive BaseSource where
  /-- the same list for every number -/
  | listed (bases : List Nat)
  /-- any bases: the free value `Config.freeBase` at this index, a list of its own for every number -/
  | free (index : Nat)
deriving DecidableEq, Repr

/-- Which `NextPrime` and `ProbPrime` the machine has (00_scope R5, 41_modulus R148). -/
inductive PrimeUnit where
  /-- the reference configuration: the least prime above, exact primality (R148) -/
  | reference
  /-- the realisation over the exponentiation engine of 45_modexp R217, with its source of bases -/
  | millerRabin (source : BaseSource)
  /-- any other pair of functions that meets R148: `Config.primeGap` and `Config.freePass` at this index -/
  | other (index : Nat)
deriving DecidableEq, Repr

/-- The implementation parameters of 00_scope R5 with their constraints. -/
structure Params where
  /-- width in bits of every big register -/
  KMAX : Nat
  /-- most bytes one extraction may produce -/
  BMAX : Nat
  /-- repetition count of the primality test -/
  REPS : Nat
  /-- whether `P`, `Q` keep their values after `N` is formed -/
  RETAIN_PQ : Bool
  ACC_BIT_ORDER : BitOrder
  PRIMES : PrimeUnit
  kmax_ge : 18 ≤ KMAX := by decide
  kmax_le : KMAX ≤ 524280 := by decide
  bmax_ge : 1 ≤ BMAX := by decide
  bmax_le : BMAX ≤ 2 ^ 28 := by decide
  reps_ge : 5 ≤ REPS := by decide
deriving DecidableEq, Repr

/-- The reference configuration of 00_scope R5. -/
def Params.reference : Params where
  KMAX := 4096
  BMAX := 65536
  REPS := 13
  RETAIN_PQ := false
  ACC_BIT_ORDER := .lowFirst
  PRIMES := .reference

/-- The two entropy request ports (20_memory R71): `EntHQ` and `EntAdv`. -/
inductive Port where
  | highQuality
  | advisory
deriving DecidableEq, Repr

/-- What kind of answer a port gives (00_scope R10; a port that never answers is 93 U2). -/
inductive ReplyKind where
  | delivers
  | fails
  | silent
deriving DecidableEq, Repr, Inhabited

/-- Free value: the kind of answer to request number `k` (counted over both ports) that no answer was lined up for. -/
opaque Config.freeReply (port : Port) (k : Nat) : ReplyKind

/-- Free value: byte `i` of such an answer. -/
opaque Config.freeByte (port : Port) (k i : Nat) : Byte

/-- Free value: `NextPrime(n) - (n + 1)` of a machine with the prime unit `other index`; so `NextPrime(n) > n` and
nothing else is known of it (41_modulus R148). -/
opaque Config.primeGap (index n : Nat) : Nat

/-- Free value: base `j` of the rounds on `n` of a machine whose bases come from `BaseSource.free index`. -/
opaque Config.freeBase (index n j : Nat) : Nat

/-- Free value: whether a number that is not a prime passes the `ProbPrime` of the prime unit `other index`. -/
opaque Config.freePass (index n reps : Nat) : Bool

end Sys2Proof
end

