-- ==== Sys2Proof/Machine/State.lean ====
section
/-!
DEFINITION. The architectural state of the engine (10_state R20 to R38), the state after reset, and the reasons a step
can stop. The last five fields are the model's own: 10_state R20 says the parameters and the entropy answers are not
state of the engine, and they stand here because a step is a function of the state alone.
-/

namespace Sys2Proof.Machine

/-- The lifecycle register `STATUS.PHASE` (10_state R29, R30). -/
inductive Phase where
  | empty | keyed | ready | failed
deriving DecidableEq, Repr

/-- The extraction policy (10_state R26). -/
inductive Mode where
  | conservative | accelerated
deriving DecidableEq, Repr

/-- The status codes (30_encoding R95, 60_exceptions R236). -/
inductive Status where
  | ok
  | invalidParameter
  | entropySourceError
  | whiteningUnavailable
  /-- in the numbering only; no rule raises it (60_exceptions R240) -/
  | arithmeticError
  | illegalCommand
  | wrongPhase
  | capacityExceeded
deriving DecidableEq, Repr

/-- An entropy port's answer to one request (00_scope R10); `silent` is the port that never answers (93 U2). -/
inductive Answer where
  | bytes (bs : List Byte)
  | fail
  | silent
deriving DecidableEq, Repr

/-- An entropy request (20_memory R71): the port and how many bytes. -/
structure Request where
  port : Port
  count : Nat
deriving DecidableEq, Repr

/-- The reset input (70_reset R265). It may be asserted at any time: `asserted k` is asserted when the command at the
front of `CMD` has made `k` of its entropy requests, and `asserted 0` before it has begun. -/
inductive ResetInput where
  | low
  | asserted (requests : Nat)
deriving DecidableEq, Repr

structure State where
  /-- the modulus (10_state R21) -/
  N : Nat
  /-- the quadratic-residue state -/
  X : Nat
  /-- the first prime factor -/
  P : Nat
  /-- the second prime factor -/
  Q : Nat
  /-- base operand of `MODEXP` -/
  B : Nat
  /-- exponent operand of `MODEXP` -/
  E : Nat
  /-- modulus operand of `MODEXP` -/
  M : Nat
  /-- result of `MODEXP` -/
  R : Nat
  /-- `P` holds a supplied value (R22) -/
  PV : Bool
  /-- `Q` holds a supplied value (R22) -/
  QV : Bool
  /-- requested key length (R24) -/
  KREQ : Scalar
  /-- actual key length (R25) -/
  KBL : Scalar
  /-- extraction policy (R26) -/
  MODE : Mode
  /-- whitening (R27) -/
  WHITEN : Bool
  /-- base of the next `DIGITS` (R28) -/
  BASE : Scalar
  /-- lifecycle register (R30) -/
  PHASE : Phase
  /-- latest status that was not `OK` (R29) -/
  ERR : Status
  /-- command stream, front first (R36) -/
  CMD : List Byte
  /-- response stream, front first (R36) -/
  RSP : List Byte
  /-- the model's own: the implementation parameters (00_scope R5); no step changes them -/
  PARAMS : Params
  /-- the model's own: answers lined up for the next requests to `EntHQ` (00_scope R10) -/
  ENTHQ : List Answer
  /-- the model's own: answers lined up for the next requests to `EntAdv` -/
  ENTADV : List Answer
  /-- the model's own: the requests made so far, oldest first, as the platform saw them (20_memory R71) -/
  ASKED : List Request
  /-- the model's own: the reset input (70_reset R265), sampled by the next step -/
  RESETLINE : ResetInput
deriving DecidableEq, Repr

/-- The state after reset (10_state R38, 70_reset R265), in the reference configuration of 00_scope R5, with no
entropy answer lined up. -/
def State.reset : State where
  N := 0
  X := 0
  P := 0
  Q := 0
  B := 0
  E := 0
  M := 0
  R := 0
  PV := false
  QV := false
  KREQ := 1024
  KBL := 0
  MODE := .accelerated
  WHITEN := false
  BASE := 0
  PHASE := .empty
  ERR := .ok
  CMD := []
  RSP := []
  PARAMS := .reference
  ENTHQ := []
  ENTADV := []
  ASKED := []
  RESETLINE := .low

/-- Why a step stops. Every error the spec names is a next state with a response; these three are the places where the
spec gives no next state. -/
inductive Fault where
  /-- An entropy port never answers, so the command never completes (93 U2, 20_memory R71, 70_reset R269). Raised by
  `GENKEY`, `SEEDR`, `EXTRACT`, `DIGITS`. Safe: the hardware hangs there too. -/
  | portSilent
  /-- A remainder by `N = 0`, which 00_scope R7 leaves undefined and 10_state R33 rules out of every run. Raised by
  `SEEDR`, `SEEDX`, `SQR`, `EXTRACT`, `DIGITS` in states no run reaches. Safe: the model stops. -/
  | zeroModulus
  /-- An extraction that takes k = 0 bits per squaring and never ends (41_modulus R146, 91 N23), ruled out of every run
  by 10_state R33. Raised by `EXTRACT`, `DIGITS` in states no run reaches. Safe: the model stops. -/
  | extractNeverEnds
deriving DecidableEq, Repr

/-- Why a step gives an instruction no meaning. -/
inductive Refusal where
  /-- Raised by `exec` alone, for an instruction whose meaning is not written yet. Safe: the model says nothing. -/
  | notModelled (mnemonic : String)
deriving DecidableEq, Repr

end Sys2Proof.Machine
end

