-- ==== Sys2Proof/Machine/Flags.lean ====
section
/-!
DEFINITION. The codes of the control fields and the `STATUS` word assembled from them (10_state R26, R27, R29;
30_encoding R95).
-/

namespace Sys2Proof.Machine

/-- `STATUS.PHASE` as a number (10_state R29). -/
def phaseCode : Phase → Nat
  | .empty => 0
  | .keyed => 1
  | .ready => 2
  | .failed => 3

/-- `MODE` as a number (10_state R26). -/
def modeCode : Mode → Nat
  | .conservative => 0
  | .accelerated => 1

/-- The `MODE` of a loaded value that has passed the check `v <= 1` (10_state R26). -/
def modeOfValue (v : Nat) : Mode := if v = 0 then .conservative else .accelerated

/-- The `ST` byte and `ERR` field of a status (30_encoding R95, 60_exceptions R236). -/
def statusCode : Status → Nat
  | .ok => 0
  | .invalidParameter => 1
  | .entropySourceError => 2
  | .whiteningUnavailable => 3
  | .arithmeticError => 4
  | .illegalCommand => 5
  | .wrongPhase => 6
  | .capacityExceeded => 7

/-- A one-bit flag as a number. -/
def flagCode (f : Bool) : Nat := if f then 1 else 0

/-- `STATUS`, assembled on every read (10_state R29): `PHASE` in bits 1:0, `PV` bit 2, `QV` bit 3, `ERR` in bits 15:8,
the rest 0. -/
def statusWord (s : State) : Scalar :=
  BitVec.ofNat 32
    (phaseCode s.PHASE + 4 * flagCode s.PV + 8 * flagCode s.QV + 256 * statusCode s.ERR)

/-- `ERR` after a response with this status: sticky, written by every status but `OK` (10_state R29). -/
def errAfter (st old : Status) : Status := if st = .ok then old else st

end Sys2Proof.Machine
end

