-- ==== Sys2Proof/Machine/Ops.lean ====
section
/-!
DEFINITION. The operations every command is built from: legality by phase (10_state R31), the response
(30_encoding R94), error entry as one shared operation (60_exceptions R246, R247) and the return from it (R248),
entropy requests (00_scope R10, 20_memory R71), and how a command's body ends (00_scope R11).
-/

namespace Sys2Proof.Machine

/-! ### Legality -/

/-- The phases in which `LD` of a register is legal (10_state R31, 20_memory R67). -/
def loadLegalIn : Reg → Phase → Bool
  | .P, ph | .Q, ph => ph == .empty
  | .KREQ, ph | .MODE, ph | .WHITEN, ph => ph == .empty || ph == .keyed
  | .BASE, ph | .B, ph | .E, ph | .M, ph => ph != .failed
  | .N, _ | .X, _ | .R, _ | .KBL, _ | .STATUS, _ => false

/-- The phases in which a command is legal (10_state R31). -/
def legalIn : Instr → Phase → Bool
  | .ld r _, ph => loadLegalIn r ph
  | .rd _, _ => true
  | .clr, _ => true
  | .genkey, ph | .mkn, ph => ph == .empty
  | .seedr, ph | .seedx _, ph => ph == .keyed
  | .sqr, ph | .extract _, ph | .digits _, ph => ph == .ready
  | .modexp, ph => ph != .failed

/-- The init commands (00_scope glossary, 60_exceptions R247). -/
def isInit : Instr → Bool
  | .genkey | .mkn | .seedr | .seedx _ => true
  | .ld _ _ | .rd _ | .clr | .sqr | .extract _ | .digits _ | .modexp => false

/-! ### Responses and errors -/

/-- A response packet (30_encoding R94). -/
def responsePacket (op : Byte) (st : Status) (payload : List Byte) : List Byte :=
  op :: BitVec.ofNat 8 (statusCode st) :: 0 :: 0 :: toBytesN payload.length 4 ++ payload

/-- Append the command's one response and record a status that is not `OK` (20_memory R62, 10_state R29). -/
def respond (op : Byte) (st : Status) (payload : List Byte) (s : State) : State :=
  { s with ERR := errAfter st s.ERR, RSP := s.RSP ++ responsePacket op st payload }

/-- What a failed initialisation erases (60_exceptions R247). -/
def eraseSession (s : State) : State :=
  { s with N := 0, X := 0, P := 0, Q := 0, KBL := 0, PV := false, QV := false, PHASE := .failed }

/-- Whether an error of a command is fatal to the session (60_exceptions R236, R242, R247). -/
def isFatal (i : Instr) (e : Status) : Bool :=
  isInit i && e != .illegalCommand && e != .wrongPhase

/-- Error entry (60_exceptions R246, R247): a fatal error erases the session first; then the error is reported. -/
def raiseError (i : Instr) (e : Status) (s : State) : State :=
  respond i.opcode e [] (if isFatal i e then eraseSession s else s)

/-- The effect of a packet that is an illegal encoding (30_encoding R97, R99): `ERR` and the response only. -/
def illegalPacket (op : Byte) (s : State) : State := respond op .illegalCommand [] s

/-! ### Recovery: `CLR` and reset -/

/-- Every register at the value of 10_state R38; the streams stay (40_transfer_system R122, 60_exceptions R248). -/
def clearRegisters (s : State) : State :=
  { s with
    N := 0, X := 0, P := 0, Q := 0, B := 0, E := 0, M := 0, R := 0,
    PV := false, QV := false, KREQ := 1024, KBL := 0, MODE := .accelerated, WHITEN := false,
    BASE := 0, PHASE := .empty, ERR := .ok }

/-- What reset does to the engine (70_reset R265): `CLR`'s values, both streams emptied, the input taken. -/
def takeReset (s : State) : State :=
  { clearRegisters s with CMD := [], RSP := [], RESETLINE := .low }

/-! ### Entropy requests -/

/-- What a lined-up answer is worth to a request for `n` bytes: only exactly `n` bytes are `Ok` (00_scope R10). -/
def settleAnswer (n : Nat) : Answer → Answer
  | .bytes bs => if bs.length = n then .bytes bs else .fail
  | .fail => .fail
  | .silent => .silent

/-- The free value that answers request number `k` where no answer is lined up. -/
def freeAnswer (port : Port) (k n : Nat) : Answer :=
  match Config.freeReply port k with
  | .delivers => .bytes ((List.range n).map (Config.freeByte port k))
  | .fails => .fail
  | .silent => .silent

/-- The answers lined up at a port. -/
def answersAt (s : State) : Port → List Answer
  | .highQuality => s.ENTHQ
  | .advisory => s.ENTADV

/-- The port's answer to a request for `n` bytes: `EntHQ(n)`, `EntAdv(n)` (00_scope R10). -/
def answerTo (port : Port) (n : Nat) (s : State) : Answer :=
  match answersAt s port with
  | a :: _ => settleAnswer n a
  | [] => freeAnswer port s.ASKED.length n

/-- The state after the request: the request is on record and the answer, if it was lined up, is used. -/
def afterAsking (port : Port) (n : Nat) (s : State) : State :=
  match port with
  | .highQuality => { s with ENTHQ := s.ENTHQ.tail, ASKED := s.ASKED ++ [⟨.highQuality, n⟩] }
  | .advisory => { s with ENTADV := s.ENTADV.tail, ASKED := s.ASKED ++ [⟨.advisory, n⟩] }

/-- The state after these requests, in order. -/
def afterRequests : List Request → State → State
  | [], s => s
  | r :: rs, s => afterRequests rs (afterAsking r.port r.count s)

/-! ### How a body ends -/

/-- How a part of a command ends: with a value, with an error (00_scope R11), or not at all. -/
inductive Attempt (α : Type) where
  | got (a : α) (s : State)
  | raised (e : Status) (s : State)
  | stopped (f : Fault)
deriving DecidableEq, Repr

/-- Go on with `k` where the part before it got its value. -/
def Attempt.andThen {α β : Type} (part : Attempt α) (k : α → State → Attempt β) : Attempt β :=
  match part with
  | .got a s => k a s
  | .raised e s => .raised e s
  | .stopped f => .stopped f

/-- A command's answer: the status and the response payload. -/
abbrev Reply := Status × List Byte

/-- The end of a command's body: its response, or error entry (00_scope R11). -/
def finish (i : Instr) : Attempt Reply → Host.Outcome State Fault Refusal
  | .got reply s => .next (respond i.opcode reply.1 reply.2 s)
  | .raised e s => .next (raiseError i e s)
  | .stopped f => .fault f

/-- A command: the phase check, then its own body (30_encoding R99, 60_exceptions R245). -/
def runCommand (i : Instr) (body : State → Attempt Reply) (s : State) :
    Host.Outcome State Fault Refusal :=
  if legalIn i s.PHASE then finish i (body s) else .next (raiseError i .wrongPhase s)

end Sys2Proof.Machine
end

