-- ==== Sys2Proof/Machine/Operands.lean ====
section
/-!
DEFINITION. Register and payload operands: which values fit (30_encoding R91, 60_exceptions R243), loading a register
(40_transfer_system R120) and reading one (R121).
-/

namespace Sys2Proof.Machine

/-- A value fits a big register (10_state R21). -/
def fitsBig (s : State) (v : Nat) : Bool := decide (bitlen v ≤ s.PARAMS.KMAX)

/-- A value fits a scalar register, `nbytes` or `count` (30_encoding R91). -/
def fitsScalar (v : Nat) : Bool := decide (v < 2 ^ 32)

/-- `x[reg] <- v`, with the valid flags of `P` and `Q` (40_transfer_system R120); a register that `LD` never writes
stays. -/
def loadReg (r : Reg) (v : Nat) (s : State) : State :=
  match r with
  | .P => { s with P := v, PV := true }
  | .Q => { s with Q := v, QV := true }
  | .B => { s with B := v }
  | .E => { s with E := v }
  | .M => { s with M := v }
  | .KREQ => { s with KREQ := BitVec.ofNat 32 v }
  | .MODE => { s with MODE := modeOfValue v }
  | .WHITEN => { s with WHITEN := decide (v ≠ 0) }
  | .BASE => { s with BASE := BitVec.ofNat 32 v }
  | .N | .X | .R | .KBL | .STATUS => s

/-- `x[reg]` as a number (00_scope R9, 10_state R23, R29). -/
def readReg (r : Reg) (s : State) : Nat :=
  match r with
  | .N => s.N
  | .X => s.X
  | .P => s.P
  | .Q => s.Q
  | .B => s.B
  | .E => s.E
  | .M => s.M
  | .R => s.R
  | .KREQ => s.KREQ.toNat
  | .KBL => s.KBL.toNat
  | .MODE => modeCode s.MODE
  | .WHITEN => flagCode s.WHITEN
  | .BASE => s.BASE.toNat
  | .STATUS => (statusWord s).toNat

/-- A register's value in a response (30_encoding R94): big registers shortest, scalars in four bytes. -/
def readPayload (r : Reg) (s : State) : List Byte :=
  if r.isBig then toBytes (readReg r s) else toBytesN (readReg r s) 4

/-- The payload of `GENKEY` and `MKN` (30_encoding R94): `KBL` in four bytes, then `N`. -/
def modulusPayload (s : State) : List Byte := toBytesN s.KBL.toNat 4 ++ toBytes s.N

end Sys2Proof.Machine
end

