-- ==== Sys2Proof/Machine/ModExp.lean ====
section
/-!
DEFINITION. The modular exponentiation engine: `MODEXP` (45_modexp R215, R216, R218).
-/

namespace Sys2Proof.Machine

/-- `R <- B^E mod M` (45_modexp R215). -/
def writePower (s : State) : State := { s with R := modExp s.B s.E s.M }

/-- `MODEXP`'s own check and effect (45_modexp R215). -/
def modexpBody (s : State) : Attempt Reply :=
  if s.M = 0 then .raised .invalidParameter s
  else .got (.ok, toBytes (writePower s).R) (writePower s)

/-- `MODEXP` (45_modexp R215). -/
def execModexp (s : State) : Host.Outcome State Fault Refusal := runCommand .modexp modexpBody s

end Sys2Proof.Machine
end

