-- ==== Sys2Proof/Machine/Primes.lean ====
section
/-!
DEFINITION. `NextPrime` and `ProbPrime` (41_modulus R148) for every prime unit of Config.lean: the reference functions,
the Miller-Rabin realisation of 45_modexp R217, and the open functions under R148's two constraints.
-/

namespace Sys2Proof

/-- No divisor of `n` from `d` up to its square root, looking at no more than `fuel` of them. -/
def noDivisorFrom (n : Nat) : Nat → Nat → Bool
  | 0, _ => true
  | fuel + 1, d =>
    if n < d * d then true
    else if n % d = 0 then false
    else noDivisorFrom n fuel (d + 1)

/-- Exact primality by trial division: the reference `ProbPrime` (00_scope R5). -/
def isPrime (n : Nat) : Bool := decide (2 ≤ n) && noDivisorFrom n n 2

/-- The least number from `c` on that passes a test, among at most `fuel` of them. -/
def leastFrom (test : Nat → Bool) : Nat → Nat → Nat
  | 0, c => c
  | fuel + 1, c => if test c then c else leastFrom test fuel (c + 1)

/-- The least number above `n` that passes a test every prime passes: at most `n + 2` candidates, since there is a prime
between `n + 1` and `2n + 2`. -/
def leastAbove (test : Nat → Bool) (n : Nat) : Nat := leastFrom test (n + 2) (n + 1)

/-- `m = 2^s * d` with `d` odd, for `m >= 1`: the pair `(s, d)`, halving at most `fuel` times (45_modexp R217). -/
def splitTwos : Nat → Nat → Nat × Nat
  | 0, m => (0, m)
  | fuel + 1, m =>
    if m % 2 = 0 then ((splitTwos fuel (m / 2)).1 + 1, (splitTwos fuel (m / 2)).2) else (0, m)

/-- The squarings of a Miller-Rabin round (45_modexp R217): whether `n - 1` comes up within `k` of them. -/
def squaresReach (n : Nat) : Nat → Nat → Bool
  | 0, _ => false
  | k + 1, y => decide (modExp y 2 n = n - 1) || squaresReach n k (modExp y 2 n)

/-- `MRRound(n, a)` (45_modexp R217): true when `a` does not prove `n` composite. -/
def mrRound (n a : Nat) : Bool :=
  let sd := splitTwos (bitlen (n - 1)) (n - 1)
  let y := modExp a sd.2 n
  decide (y = 1) || decide (y = n - 1) || squaresReach n (sd.1 - 1) y

/-- `ProbPrimeMR(n, reps, bases)` (45_modexp R217). -/
def probPrimeMR (n : Nat) (bases : List Nat) : Bool :=
  if n < 2 then false
  else if n = 2 ∨ n = 3 then true
  else if n % 2 = 0 then false
  else bases.all (mrRound n)

/-- Base `j` of a source, for the rounds on `n`; a list that has run out goes on with `j + 2`. -/
def baseAt (source : BaseSource) (n j : Nat) : Nat :=
  match source with
  | .listed bases => bases.getD j (j + 2)
  | .free index => Config.freeBase index n j

/-- A base in `[2, n - 2]` stays; any other is brought there by its remainder modulo `n - 3` (for `n >= 5`). -/
def admissibleBase (n b : Nat) : Nat := if 2 ≤ b ∧ b + 2 ≤ n then b else 2 + b % (n - 3)

/-- `bases`: "a list of reps values, each in [2, n-2]" (45_modexp R217). -/
def basesFor (source : BaseSource) (n reps : Nat) : List Nat :=
  (List.range reps).map fun j => admissibleBase n (baseAt source n j)

/-- `ProbPrime(n, reps)` (41_modulus R148): every prime passes; what else does depends on the unit. -/
def probPrime (unit : PrimeUnit) (n reps : Nat) : Bool :=
  match unit with
  | .reference => isPrime n
  | .millerRabin source => probPrimeMR n (basesFor source n reps)
  | .other k => isPrime n || Config.freePass k n reps

/-- `NextPrime(n)` (41_modulus R148): above `n`; the least prime in the reference configuration, the least number that
passes the machine's own test over `MODEXP`, or any function that stays above its argument. -/
def nextPrime (unit : PrimeUnit) (n reps : Nat) : Nat :=
  match unit with
  | .reference => leastAbove isPrime n
  | .millerRabin source => leastAbove (fun c => probPrimeMR c (basesFor source c reps)) n
  | .other k => n + 1 + Config.primeGap k n

end Sys2Proof
end

