-- ==== Sys2Proof/Machine/Modulus.lean ====
section
/-!
DEFINITION. Modulus commands: `GENKEY` and `MKN` (41_modulus R140 to R149).
-/

namespace Sys2Proof.Machine

/-- `MIN_KBITS` (00_scope R5, 90_conflicts C1). -/
def minKbits : Nat := 16

/-- The bit length of the first prime (41_modulus R141). -/
def pBits (k : Nat) : Nat := k / 2 + 1

/-- The bit length of the second prime (41_modulus R141). -/
def qBits (k : Nat) : Nat := k / 2 + k % 2

/-- The search's seed from a drawn number (41_modulus R143): bits above the target cleared, the highest one set. -/
def forceLength (bits v : Nat) : Nat :=
  let s := v % 2 ^ bits
  if bitOf s (bits - 1) = 0 then s + 2 ^ (bits - 1) else s

/-- Whether a candidate is taken (41_modulus R144): its second-lowest bit is set and it passes the primality test. -/
def acceptsPrime (ps : Params) (c : Nat) : Bool :=
  decide (bitOf c 1 = 1) && probPrime ps.PRIMES c ps.REPS

/-- The prime search from `c` (41_modulus R140, R144), in at most `fuel` rounds; `none` when a candidate outgrows
`KMAX`. -/
def searchPrime (ps : Params) : Nat → Nat → Option Nat
  | 0, _ => none
  | fuel + 1, c =>
    let next := nextPrime ps.PRIMES c ps.REPS
    if ps.KMAX < bitlen next then none
    else if acceptsPrime ps next then some next
    else searchPrime ps fuel next

/-- The prime search of `GenPrime`. Candidates rise (41_modulus R148) and one of `2^KMAX` or more has outgrown `KMAX`,
so `2^KMAX` rounds are all there can be (log entry 6). -/
def findPrime (ps : Params) (seed : Nat) : Option Nat := searchPrime ps (2 ^ ps.KMAX) seed

/-- `GenPrime(bits)` (41_modulus R140, R142 to R144). -/
def genPrime (bits : Nat) (s : State) : Attempt Nat :=
  match answerTo .highQuality (bytesFor bits) s with
  | .silent => .stopped .portSilent
  | .fail => .raised .entropySourceError (afterAsking .highQuality (bytesFor bits) s)
  | .bytes bs =>
    match findPrime s.PARAMS (forceLength bits (fromBytes bs)) with
    | none => .raised .capacityExceeded (afterAsking .highQuality (bytesFor bits) s)
    | some c => .got c (afterAsking .highQuality (bytesFor bits) s)

/-- `GENKEY`'s last lines (41_modulus R140, R145): write `N` and `KBL`, keep or drop the primes. -/
def writeGenerated (p q : Nat) (s : State) : State :=
  { s with
    N := p * q
    KBL := BitVec.ofNat 32 (bitlen (p * q))
    P := if s.PARAMS.RETAIN_PQ then p else 0
    Q := if s.PARAMS.RETAIN_PQ then q else 0
    PV := s.PARAMS.RETAIN_PQ
    QV := s.PARAMS.RETAIN_PQ
    PHASE := .keyed }

/-- `GENKEY` once both primes are found (41_modulus R140). -/
def formModulus (p q : Nat) (s : State) : Attempt Reply :=
  if !fitsBig s (p * q) then .raised .capacityExceeded s
  else .got (.ok, modulusPayload (writeGenerated p q s)) (writeGenerated p q s)

/-- `GENKEY`'s own checks and effect (41_modulus R140). -/
def genkeyBody (s : State) : Attempt Reply :=
  let k := s.KREQ.toNat
  if s.PV || s.QV then .raised .invalidParameter s
  else if k < minKbits then .raised .invalidParameter s
  else if s.PARAMS.KMAX < k + 1 then .raised .capacityExceeded s
  else
    (genPrime (pBits k) s).andThen fun p s₁ =>
      (genPrime (qBits k) s₁).andThen fun q s₂ => formModulus p q s₂

/-- `GENKEY` (41_modulus R140). -/
def execGenkey (s : State) : Host.Outcome State Fault Refusal := runCommand .genkey genkeyBody s

/-- `MKN`'s last lines (41_modulus R146): write `N` and `KBL`, keep or drop the factors. -/
def writeSupplied (s : State) : State :=
  { s with
    N := s.P * s.Q
    KBL := BitVec.ofNat 32 (bitlen (s.P * s.Q))
    P := if s.PARAMS.RETAIN_PQ then s.P else 0
    Q := if s.PARAMS.RETAIN_PQ then s.Q else 0
    PV := s.PV && s.PARAMS.RETAIN_PQ
    QV := s.QV && s.PARAMS.RETAIN_PQ
    PHASE := .keyed }

/-- `MKN`'s own checks and effect (41_modulus R146). -/
def mknBody (s : State) : Attempt Reply :=
  if !(s.PV && s.QV) then .raised .invalidParameter s
  else if s.P * s.Q < 2 then .raised .invalidParameter s
  else if !fitsBig s (s.P * s.Q) then .raised .capacityExceeded s
  else .got (.ok, modulusPayload (writeSupplied s)) (writeSupplied s)

/-- `MKN` (41_modulus R146). -/
def execMkn (s : State) : Host.Outcome State Fault Refusal := runCommand .mkn mknBody s

end Sys2Proof.Machine
end

