-- ==== Sys2Proof/Machine/Squaring.lean ====
section
/-!
DEFINITION. The squaring step and the extraction procedure that `EXTRACT` and `DIGITS` share (43_square_extract R175,
R178 to R184, R189). The working registers of 10_state R35 are the fields of `Packing`.
-/

namespace Sys2Proof.Machine

/-- One squaring modulo `n` (43_square_extract R175). -/
def squareMod (n x : Nat) : Nat := x * x % n

/-- `Square()` (43_square_extract R175): defined when `N >= 1`. -/
def square (s : State) : State := { s with X := squareMod s.N s.X }

/-- `KK`, the bits taken per squaring (43_square_extract R178 to R180). -/
def bitsPerSquaring (s : State) : Nat :=
  match s.MODE with
  | .conservative => 1
  | .accelerated => iLog2 s.KBL.toNat

/-- The bit indices of one squaring in the order they are taken (43_square_extract R178, R181). -/
def bitIndices (order : BitOrder) (kk : Nat) : List Nat :=
  match order with
  | .lowFirst => List.range kk
  | .highFirst => (List.range kk).reverse

/-- The working registers of an extraction (10_state R35). -/
structure Packing where
  /-- the state being squared -/
  X : Nat
  /-- the byte under construction -/
  ACC : Byte
  /-- how many bits it holds -/
  NB : Nat
  /-- the pad bytes not used yet, the next one first -/
  PAD : List Byte
  /-- how many output bytes are still to come -/
  LEFT : Nat
  /-- the output bytes made so far, the latest first -/
  OUT : List Byte
deriving DecidableEq, Repr

/-- Shift one bit into the byte under construction, and put the byte out when it is whole (43_square_extract R178). -/
def takeBit (j : Nat) (w : Packing) : Packing :=
  let acc := BitVec.ofNat 8 (2 * w.ACC.toNat + bitOf w.X j)
  if w.NB + 1 = 8 then
    { w with ACC := 0, NB := 0, PAD := w.PAD.tail, LEFT := w.LEFT - 1,
             OUT := (acc ^^^ w.PAD.headD 0) :: w.OUT }
  else { w with ACC := acc, NB := w.NB + 1 }

/-- Take the bits of one squaring, stopping where the output is whole (43_square_extract R178, R182). -/
def takeBits : List Nat → Packing → Packing
  | [], w => w
  | j :: js, w => if w.LEFT = 0 then w else takeBits js (takeBit j w)

/-- Square and take bits until the output is whole (43_square_extract R178), in at most `fuel` squarings. -/
def squareAndTake (n : Nat) (order : List Nat) : Nat → Packing → Packing
  | 0, w => w
  | fuel + 1, w =>
    if w.LEFT = 0 then w
    else squareAndTake n order fuel (takeBits order { w with X := squareMod n w.X })

/-- The working registers at the start of an extraction of `n` bytes (43_square_extract R178). -/
def Packing.start (x n : Nat) (pad : List Byte) : Packing where
  X := x
  ACC := 0
  NB := 0
  PAD := pad
  LEFT := n
  OUT := []

/-- The loop of `Extract(n)` (43_square_extract R178). Each squaring gives at least one of the `8n` bits wanted, so `8n`
squarings are all there can be. -/
def packLoop (s : State) (n : Nat) (pad : List Byte) : Packing :=
  squareAndTake s.N (bitIndices s.PARAMS.ACC_BIT_ORDER (bitsPerSquaring s)) (8 * n)
    (Packing.start s.X n pad)

/-- The pad of an extraction of `n >= 1` bytes and whether whitening was lost (43_square_extract R183, R184). -/
def fetchPad (n : Nat) (s : State) : Attempt (List Byte × Bool) :=
  if s.WHITEN then
    match answerTo .advisory n s with
    | .silent => .stopped .portSilent
    | .bytes bs => .got (bs, false) (afterAsking .advisory n s)
    | .fail => .got (List.replicate n 0, true) { afterAsking .advisory n s with WHITEN := false }
  else .got (List.replicate n 0, false) s

/-- `Extract(n)` (43_square_extract R178): the output bytes and whether whitening was lost in this call. -/
def extractBytes (n : Nat) (s : State) : Attempt (List Byte × Bool) :=
  if n = 0 then .got ([], false) s
  else if s.N = 0 then .stopped .zeroModulus
  else if bitsPerSquaring s = 0 then .stopped .extractNeverEnds
  else
    (fetchPad n s).andThen fun pad s₁ =>
      let w := packLoop s₁ n pad.1
      .got (w.OUT.reverse, pad.2) { s₁ with X := w.X }

/-- The status that goes with the payload of an extraction (43_square_extract R177, R184). -/
def extractStatus (whiteningLost : Bool) : Status :=
  if whiteningLost then .whiteningUnavailable else .ok

/-- `SQR`'s effect (43_square_extract R176). -/
def sqrBody (s : State) : Attempt Reply :=
  if s.N = 0 then .stopped .zeroModulus else .got (.ok, []) (square s)

/-- `SQR` (43_square_extract R176). -/
def execSqr (s : State) : Host.Outcome State Fault Refusal := runCommand .sqr sqrBody s

/-- `EXTRACT`'s own check and effect (43_square_extract R177). -/
def extractBody (n : Nat) (s : State) : Attempt Reply :=
  if !fitsScalar n || decide (s.PARAMS.BMAX < n) then .raised .capacityExceeded s
  else (extractBytes n s).andThen fun out s₁ => .got (extractStatus out.2, out.1) s₁

/-- `EXTRACT <nbytes>` (43_square_extract R177). -/
def execExtract (payload : List Byte) (s : State) : Host.Outcome State Fault Refusal :=
  runCommand (.extract payload) (extractBody (fromBytes payload)) s

end Sys2Proof.Machine
end

