-- ==== Sys2Proof/Machine/Radix.lean ====
section
/-!
DEFINITION. The radix converter: `DIGITS` (44_radix R200 to R206).
-/

namespace Sys2Proof.Machine

/-- `DW`, the bytes of one digit in the response (44_radix R204). -/
def digitWidth (base : Nat) : Nat := bytesFor (bitlen (base - 1))

/-- The digits of `bn` at places `base^(i-1)` down to `base^0` (44_radix R202). -/
def digitsBelow (base : Nat) : Nat → Nat → List Nat
  | 0, _ => []
  | i + 1, bn => bn / base ^ i :: digitsBelow base i (bn - bn / base ^ i * base ^ i)

/-- The discarded top quantity, at place `base^count` (44_radix R203). -/
def topQuantity (base count bn : Nat) : Nat := bn / base ^ count

/-- The `count` digits of a batch of raw bytes, the top quantity computed and dropped (44_radix R200, R202, R203). -/
def digitsOf (base count : Nat) (raw : List Byte) : List Nat :=
  let bn := fromBytes raw
  digitsBelow base count (bn - topQuantity base count bn * base ^ count)

/-- The digits as response bytes, each `DW` bytes big-endian (44_radix R204). -/
def digitsPayload (base : Nat) (ds : List Nat) : List Byte :=
  ds.flatMap fun d => toBytesN d (digitWidth base)

/-- Whether more than `BMAX` raw bytes are needed (44_radix R200). For `base >= 2` a count above `8 * BMAX` always needs
more, so the power is not formed for it. -/
def needsTooMany (bmax base count : Nat) : Bool :=
  decide (8 * bmax < count) || decide (bmax < byteCount base count)

/-- `DIGITS`'s own checks and effect (44_radix R200). -/
def digitsBody (count : Nat) (s : State) : Attempt Reply :=
  let base := s.BASE.toNat
  if !fitsScalar count then .raised .capacityExceeded s
  else if base < 2 then .raised .invalidParameter s
  else if needsTooMany s.PARAMS.BMAX base count then .raised .capacityExceeded s
  else
    (extractBytes (byteCount base count) s).andThen fun out s₁ =>
      .got (extractStatus out.2, digitsPayload base (digitsOf base count out.1)) s₁

/-- `DIGITS <count>` (44_radix R200). -/
def execDigits (payload : List Byte) (s : State) : Host.Outcome State Fault Refusal :=
  runCommand (.digits payload) (digitsBody (fromBytes payload)) s

end Sys2Proof.Machine
end

