-- ==== Sys2Proof/Machine/Seed.lean ====
section
/-!
DEFINITION. Seed commands: `SEEDR` and `SEEDX` (42_seed R160 to R164).
-/

namespace Sys2Proof.Machine

/-- The coprimality loop of `SEEDR` (42_seed R160), in at most `fuel` increments. -/
def coprimeFrom (n : Nat) : Nat → Nat → Nat
  | 0, x => x
  | fuel + 1, x => if Nat.gcd x n = 1 then x else coprimeFrom n fuel (x + 1)

/-- The first number from `x` on that is coprime to `n`: fewer than `n` increments away (42_seed R160). -/
def nextCoprime (n x : Nat) : Nat := coprimeFrom n n x

/-- The seed step both commands share (42_seed R162). -/
def writeSeed (x : Nat) (s : State) : State := { s with X := squareMod s.N x, PHASE := .ready }

/-- The end of a seed command (42_seed R160, R161). -/
def seedDone (x : Nat) (s : State) : Attempt Reply :=
  .got (.ok, toBytes (writeSeed x s).X) (writeSeed x s)

/-- `SEEDR`'s effect (42_seed R160). -/
def seedrBody (s : State) : Attempt Reply :=
  if s.N = 0 then .stopped .zeroModulus
  else
    let nb := bytesFor s.KBL.toNat
    match answerTo .highQuality nb s with
    | .silent => .stopped .portSilent
    | .fail => .raised .entropySourceError (afterAsking .highQuality nb s)
    | .bytes bs => seedDone (nextCoprime s.N (fromBytes bs)) (afterAsking .highQuality nb s)

/-- `SEEDR` (42_seed R160). -/
def execSeedr (s : State) : Host.Outcome State Fault Refusal := runCommand .seedr seedrBody s

/-- `SEEDX`'s own checks and effect (42_seed R161). -/
def seedxBody (x : Nat) (s : State) : Attempt Reply :=
  if !fitsBig s x then .raised .capacityExceeded s
  else if Nat.gcd x s.N ≠ 1 then .raised .invalidParameter s
  else if s.N = 0 then .stopped .zeroModulus
  else seedDone x s

/-- `SEEDX <x>` (42_seed R161). -/
def execSeedx (payload : List Byte) (s : State) : Host.Outcome State Fault Refusal :=
  runCommand (.seedx payload) (seedxBody (fromBytes payload)) s

end Sys2Proof.Machine
end

