-- ==== Sys2Proof/Machine/Transfer.lean ====
section
/-!
DEFINITION. Register transfer and system commands: `LD`, `RD`, `CLR` (40_transfer_system R120 to R128).
-/

namespace Sys2Proof.Machine

/-- `LD`'s own checks and effect (40_transfer_system R120). -/
def loadBody (r : Reg) (v : Nat) (s : State) : Attempt Reply :=
  if r.isBig && !fitsBig s v then .raised .capacityExceeded s
  else if !r.isBig && !fitsScalar v then .raised .capacityExceeded s
  else if (r == .MODE || r == .WHITEN) && decide (1 < v) then .raised .invalidParameter s
  else .got (.ok, []) (loadReg r v s)

/-- `LD <reg>, <value>` (40_transfer_system R120). A register that `LD` never writes is an illegal encoding
(30_encoding R97 (e)); the decoder has rejected it before, and the meaning says the same of the term. -/
def execLd (r : Reg) (payload : List Byte) (s : State) : Host.Outcome State Fault Refusal :=
  if r.loadable then runCommand (.ld r payload) (loadBody r (fromBytes payload)) s
  else .next (raiseError (.ld r payload) .illegalCommand s)

/-- `RD <reg>` (40_transfer_system R121, R128). -/
def execRd (r : Reg) (s : State) : Host.Outcome State Fault Refusal :=
  runCommand (.rd r) (fun s => .got (.ok, readPayload r s) s) s

/-- `CLR` (40_transfer_system R122). -/
def execClr (s : State) : Host.Outcome State Fault Refusal :=
  runCommand .clr (fun s => .got (.ok, []) (clearRegisters s)) s

end Sys2Proof.Machine
end

