-- ==== Sys2Proof/Machine/Dispatch.lean ====
section
/-!
DEFINITION. One arm per command (30_encoding R96), each one direct call of its meaning.
-/

namespace Sys2Proof.Machine

def exec (i : Instr) (s : State) : Host.Outcome State Fault Refusal :=
  match i with
  | .ld reg payload => Sys2Proof.Machine.execLd reg payload s
  | .rd reg => Sys2Proof.Machine.execRd reg s
  | .clr => Sys2Proof.Machine.execClr s
  | .genkey => Sys2Proof.Machine.execGenkey s
  | .mkn => Sys2Proof.Machine.execMkn s
  | .seedr => Sys2Proof.Machine.execSeedr s
  | .seedx payload => Sys2Proof.Machine.execSeedx payload s
  | .sqr => Sys2Proof.Machine.execSqr s
  | .extract payload => Sys2Proof.Machine.execExtract payload s
  | .digits payload => Sys2Proof.Machine.execDigits payload s
  | .modexp => Sys2Proof.Machine.execModexp s

end Sys2Proof.Machine
end

