-- ==== Sys2Proof/Machine/Environment.lean ====
section
/-!
DEFINITION. What stands outside the engine may do to it (70_reset R275): the host writes `CMD`, reads `RSP` and asserts
reset; the platform answers entropy requests.
-/

namespace Sys2Proof.Machine

/-- The host appends bytes to the command stream (10_state R36, 20_memory R61). -/
def hostSend (bs : List Byte) (s : State) : State := { s with CMD := s.CMD ++ bs }

/-- The host takes `k` bytes from the front of the response stream (10_state R36). -/
def hostTake (k : Nat) (s : State) : List Byte × State := (s.RSP.take k, { s with RSP := s.RSP.drop k })

/-- The host asserts the reset input when the command at the front of `CMD` has made `k` of its entropy requests, or with
`k = 0` before it has begun (70_reset R265). -/
def assertReset (k : Nat) (s : State) : State := { s with RESETLINE := .asserted k }

/-- The platform lines up its answer to a coming request at a port (70_reset R275). -/
def platformAnswers (port : Port) (a : Answer) (s : State) : State :=
  match port with
  | .highQuality => { s with ENTHQ := s.ENTHQ ++ [a] }
  | .advisory => { s with ENTADV := s.ENTADV ++ [a] }

end Sys2Proof.Machine
end

