-- ==== Sys2Proof/Machine/Reset.lean ====
section
/-!
DEFINITION. Reset in the middle of a command (70_reset R265): the entropy requests that a command makes (20_memory R71),
and abandoning it after some of them.
-/

namespace Sys2Proof.Machine

/-- The requests `GENKEY` makes (41_modulus R140, R142): none where a check refuses it, and the second only once the
first prime is found. -/
def genkeyRequests (s : State) : List Request :=
  let k := s.KREQ.toNat
  if s.PV || s.QV || decide (k < minKbits) || decide (s.PARAMS.KMAX < k + 1) then []
  else
    match genPrime (pBits k) s with
    | .got _ _ => [⟨.highQuality, bytesFor (pBits k)⟩, ⟨.highQuality, bytesFor (qBits k)⟩]
    | .raised _ _ => [⟨.highQuality, bytesFor (pBits k)⟩]
    | .stopped _ => [⟨.highQuality, bytesFor (pBits k)⟩]

/-- The request `SEEDR` makes (42_seed R160). -/
def seedrRequests (s : State) : List Request :=
  if s.N = 0 then [] else [⟨.highQuality, bytesFor s.KBL.toNat⟩]

/-- The request of an extraction of `n` bytes (43_square_extract R183, R189). -/
def padRequests (n : Nat) (s : State) : List Request :=
  if n = 0 then []
  else if s.N = 0 then []
  else if bitsPerSquaring s = 0 then []
  else if s.WHITEN then [⟨.advisory, n⟩]
  else []

/-- The request of `EXTRACT` (43_square_extract R177). -/
def extractRequests (n : Nat) (s : State) : List Request :=
  if !fitsScalar n || decide (s.PARAMS.BMAX < n) then [] else padRequests n s

/-- The request of `DIGITS` (44_radix R200). -/
def digitsRequests (count : Nat) (s : State) : List Request :=
  let base := s.BASE.toNat
  if !fitsScalar count then []
  else if base < 2 then []
  else if needsTooMany s.PARAMS.BMAX base count then []
  else padRequests (byteCount base count) s

/-- The entropy requests a command makes, in order, up to and including one that is not answered `Ok`. -/
def requestsOf (i : Instr) (s : State) : List Request :=
  if legalIn i s.PHASE then
    match i with
    | .genkey => genkeyRequests s
    | .seedr => seedrRequests s
    | .extract payload => extractRequests (fromBytes payload) s
    | .digits payload => digitsRequests (fromBytes payload) s
    | .ld _ _ | .rd _ | .clr | .mkn | .seedx _ | .sqr | .modexp => []
  else []

/-- The command at the front of `CMD` is abandoned when it has made `k` of its requests: they are on record, and the
answers to them, come or not, are dropped (70_reset R265). The rest of what it did is overwritten by the reset. -/
def abandonCommand (k : Nat) (s : State) : State :=
  match decode s.CMD with
  | .command i _ => afterRequests ((requestsOf i s).take k) s
  | .illegal _ _ _ => s
  | .incomplete => s

end Sys2Proof.Machine
end

