-- ==== Sys2Proof/Machine/Step.lean ====
section
/-!
DEFINITION. One step of the engine (10_state R36, 30_encoding R98, R99; 60_exceptions R255; 70_reset R265).
-/

namespace Sys2Proof.Machine

/-- The command stream after the packet at its front is consumed (20_memory R61). -/
def State.withStream (s : State) (rest : List Byte) : State := { s with CMD := rest }

/-- One step: an asserted reset abandons the command it meets and is taken; a whole packet at the front of `CMD` is consumed and either run or answered
as an illegal encoding; with no whole packet the engine is idle and nothing changes. -/
def step (s : State) : Host.Outcome State Fault Refusal :=
  match s.RESETLINE with
  | .asserted k => .next (takeReset (abandonCommand k s))
  | .low =>
    match decode s.CMD with
    | .incomplete => .next s
    | .illegal op _ rest => .next (illegalPacket op (s.withStream rest))
    | .command i rest => exec i (s.withStream rest)

/-- `s` with the table's instruction `w` at the front of the command stream, before what the stream already holds, and
the reset input low, so that the next step runs it. -/
def State.withFetchWord (s : State) (nbits w : Nat) : State :=
  { s with CMD := tableBytes nbits w ++ s.CMD, RESETLINE := .low }

end Sys2Proof.Machine
end

