-- ==== Sys2Proof/Machine/Assembler.lean ====
section
/-!
DEFINITION. The spec's textual layer as data (30_encoding R100, R101): numeric operands and the pseudo-instructions,
each of which expands to core commands and has no encoding of its own.
-/

namespace Sys2Proof.Machine

/-- A numeric operand is spelled in the shortest form (30_encoding R100). -/
def operand (v : Nat) : List Byte := toBytes v

/-- The pseudo-instructions of 30_encoding R101. -/
inductive Pseudo where
  | setK (bits : Nat)
  | setModeConservative
  | setModeAccelerated
  | setWhitenOff
  | setWhitenOn
  | initPQ (p q : Nat)
  | randDigits (base count : Nat)
  | powM (b e m : Nat)
  | stat
deriving DecidableEq, Repr

/-- The expansion of a pseudo-instruction, in order (30_encoding R101). -/
def expand : Pseudo → List Instr
  | .setK bits => [.ld .KREQ (operand bits)]
  | .setModeConservative => [.ld .MODE (operand 0)]
  | .setModeAccelerated => [.ld .MODE (operand 1)]
  | .setWhitenOff => [.ld .WHITEN (operand 0)]
  | .setWhitenOn => [.ld .WHITEN (operand 1)]
  | .initPQ p q => [.ld .P (operand p), .ld .Q (operand q), .mkn]
  | .randDigits base count => [.ld .BASE (operand base), .digits (operand count)]
  | .powM b e m => [.ld .B (operand b), .ld .E (operand e), .ld .M (operand m), .modexp]
  | .stat => [.rd .STATUS]

/-- The bytes the host writes for a list of commands. -/
def assemble (is : List Instr) : List Byte := is.flatMap encode

end Sys2Proof.Machine
end

