-- ==== Sys2Proof/Machine/ExtractFsm.lean ====
section
/-!
DEFINITION. The extraction as the finite-state machine of 43_square_extract R185, one transition per squaring, bit or
byte. `EXTRACT` and `DIGITS` run R178's loop (Machine/Squaring.lean); R185 says the two are equivalent.
-/

namespace Sys2Proof.Machine

/-- The control states after `S_PAD` (43_square_extract R185). -/
inductive Control where
  | square | bit | byte | done
deriving DecidableEq, Repr

/-- A configuration of the machine: its control state, the working registers of 10_state R35, and what stays fixed. -/
structure Fsm where
  control : Control
  X : Nat
  J : Nat
  ACC : Byte
  NB : Nat
  OUT : List Byte
  N : Nat
  KK : Nat
  PAD : List Byte
  count : Nat
  order : BitOrder
deriving DecidableEq, Repr

/-- The configuration that `S_PAD` leaves: the pad fetched, `KK`, `OUT`, `ACC`, `NB` initialised. -/
def fsmStart (s : State) (n : Nat) (pad : List Byte) : Fsm where
  control := .square
  X := s.X
  J := 0
  ACC := 0
  NB := 0
  OUT := []
  N := s.N
  KK := bitsPerSquaring s
  PAD := pad
  count := n
  order := s.PARAMS.ACC_BIT_ORDER

/-- The bit index `J'` of `S_BIT`. -/
def fsmIndex (m : Fsm) : Nat :=
  match m.order with
  | .lowFirst => m.J
  | .highFirst => m.KK - 1 - m.J

/-- Where `S_BIT` and `S_BYTE` go when no byte is due. -/
def fsmAfterBit (j kk : Nat) : Control := if j = kk then .square else .bit

/-- One transition (43_square_extract R185). -/
def fsmStep (m : Fsm) : Fsm :=
  match m.control with
  | .square => { m with X := squareMod m.N m.X, J := 0, control := .bit }
  | .bit =>
    { m with
      ACC := BitVec.ofNat 8 (2 * m.ACC.toNat + bitOf m.X (fsmIndex m))
      NB := m.NB + 1
      J := m.J + 1
      control := if m.NB + 1 = 8 then .byte else fsmAfterBit (m.J + 1) m.KK }
  | .byte =>
    { m with
      OUT := m.OUT ++ [m.ACC ^^^ m.PAD.getD m.OUT.length 0]
      ACC := 0
      NB := 0
      control := if m.OUT.length + 1 = m.count then .done else fsmAfterBit m.J m.KK }
  | .done => m

/-- `k` transitions. -/
def fsmRun : Nat → Fsm → Fsm
  | 0, m => m
  | k + 1, m => fsmRun k (fsmStep m)

end Sys2Proof.Machine
end

