-- ==== Sys2Proof/Safety.lean ====
section
/-!
DEFINITION. The terms claims are stated in: the tables of 10_state R31 and 30_encoding R97 written as the spec lists
them, the sequence of states and the bit stream of 43_square_extract R179 to R182, what a run can reach (10_state R32 to
R34), and the entropy requests a command may make (20_memory R71).
-/

namespace Sys2Proof.Machine

/-! ### The tables -/

/-- The row of 10_state R31's table for a command: the phases in which it is legal. -/
def legalPhases : Instr → List Phase
  | .ld .P _ | .ld .Q _ => [.empty]
  | .ld .KREQ _ | .ld .MODE _ | .ld .WHITEN _ => [.empty, .keyed]
  | .ld .BASE _ | .ld .B _ | .ld .E _ | .ld .M _ => [.empty, .keyed, .ready]
  | .ld .N _ | .ld .X _ | .ld .R _ | .ld .KBL _ | .ld .STATUS _ => []
  | .rd _ | .clr => [.empty, .keyed, .ready, .failed]
  | .genkey | .mkn => [.empty]
  | .seedr | .seedx _ => [.keyed]
  | .sqr | .extract _ | .digits _ => [.ready]
  | .modexp => [.empty, .keyed, .ready]

/-- The illegal encodings (30_encoding R97 (a) to (e)), on the packet's `OP`, `A` and `LEN`. -/
def IllegalEncoding (op a : Byte) (len : Nat) : Prop :=
  op ∉ [0x01, 0x02, 0x03, 0x10, 0x11, 0x12, 0x13, 0x20, 0x21, 0x22, 0x30]
  ∨ op ∈ [0x03, 0x10, 0x11, 0x12, 0x13, 0x20, 0x21, 0x22, 0x30] ∧ a ≠ 0
  ∨ op ∈ [0x02, 0x03, 0x10, 0x11, 0x12, 0x20, 0x30] ∧ len ≠ 0
  ∨ op ∈ [0x01, 0x02] ∧
      a ∉ [0x00, 0x01, 0x02, 0x03, 0x04, 0x05, 0x06, 0x07, 0x10, 0x11, 0x12, 0x13, 0x14, 0x15]
  ∨ op = 0x01 ∧ a ∈ [0x00, 0x01, 0x07, 0x11, 0x15]

/-- The eight bytes that answer a command with an error (30_encoding R99). -/
def errorResponse (op : Byte) (e : Status) : List Byte :=
  [op, BitVec.ofNat 8 (statusCode e), 0, 0, 0, 0, 0, 0]

/-- The response packet of a command that ends with `OK` and a payload (30_encoding R94). -/
def okResponse (op : Byte) (payload : List Byte) : List Byte :=
  [op, 0, 0, 0] ++ toBytesN payload.length 4 ++ payload

/-- The response packet of a command that lost whitening (30_encoding R94, 43_square_extract R184). -/
def unwhitenedResponse (op : Byte) (payload : List Byte) : List Byte :=
  [op, 3, 0, 0] ++ toBytesN payload.length 4 ++ payload

/-- What every fatal error leaves of a state (60_exceptions R247), its response aside. -/
def erased (e : Status) (s : State) : State :=
  { s with
    N := 0, X := 0, P := 0, Q := 0, KBL := 0, PV := false, QV := false, ERR := e, PHASE := .failed }

/-- Format N under an opcode (30_encoding R92, R97): the packet with `A` and `LEN` 0 is the command, and every other
packet with that opcode is an illegal encoding. -/
def FormatN (op : Byte) (i : Instr) : Prop :=
  (∀ rest : List Byte, decode (op :: 0 :: 0 :: 0 :: rest) = .command i rest) ∧
  ∀ (a : Byte) (payload rest : List Byte), payload.length ≤ 65535 → a ≠ 0 ∨ payload ≠ [] →
    ∃ why : Illegal, decode (packetBytes op a payload ++ rest) = .illegal op why rest

/-- Format V under an opcode (30_encoding R92, R97): with `A = 0` the payload is the operand; another `A` is illegal. -/
def FormatV (op : Byte) (f : List Byte → Instr) : Prop :=
  ∀ (a : Byte) (payload rest : List Byte), payload.length ≤ 65535 →
    (a = 0 → decode (packetBytes op a payload ++ rest) = .command (f payload) rest) ∧
    (a ≠ 0 → ∃ why : Illegal, decode (packetBytes op a payload ++ rest) = .illegal op why rest)

/-- In every other phase than these the command is answered with `WrongPhase` and changes nothing but `ERR`
(10_state R31, 60_exceptions R242). -/
def LegalOnlyIn (phases : List Phase) (i : Instr) : Prop :=
  ∀ s : State, s.PHASE ∉ phases →
    exec i s = .next { s with
      ERR := .wrongPhase, RSP := s.RSP ++ errorResponse i.opcode .wrongPhase }

/-! ### The sequence of states and its bits -/

/-- `X_j` (43_square_extract R179): the state after `j` squarings from `x`. -/
def squarings (n x : Nat) : Nat → Nat
  | 0 => x
  | j + 1 => squarings n x j * squarings n x j % n

/-- The bit index that is taken at place `j` of a squaring's `k` bits (43_square_extract R181). -/
def takenIndex (order : BitOrder) (k j : Nat) : Nat :=
  match order with
  | .lowFirst => j
  | .highFirst => k - 1 - j

/-- Bit `i` of the stream that `k` bits per squaring give (43_square_extract R179 to R181). -/
def streamBit (order : BitOrder) (n x k i : Nat) : Nat :=
  bitOf (squarings n x (i / k + 1)) (takenIndex order k (i % k))

/-- Byte `m` cut from the stream, first bit in bit 7 (20_memory R64, 43_square_extract R179). -/
def streamByte (order : BitOrder) (n x k m : Nat) : Byte :=
  BitVec.ofNat 8
    (((List.range 8).map fun t => streamBit order n x k (8 * m + t) * 2 ^ (7 - t)).sum)

/-- The first `count` bytes of the stream of a state. -/
def streamBytes (s : State) (count : Nat) : List Byte :=
  (List.range count).map (streamByte s.PARAMS.ACC_BIT_ORDER s.N s.X (bitsPerSquaring s))

/-- The state after the squarings that `count` bytes take, `⌈8·count/k⌉` of them (43_square_extract R188). -/
def stateAfterBytes (s : State) (count : Nat) : Nat :=
  squarings s.N s.X ((8 * count + bitsPerSquaring s - 1) / bitsPerSquaring s)

/-- The eight bits of a byte, most significant first (20_memory R64). -/
def byteBits (b : Byte) : List Nat := (List.range 8).map fun t => bitOf b.toNat (7 - t)

/-- Byte strings combined by exclusive or (00_scope R7, 43_square_extract R183). -/
def xorBytes (as bs : List Byte) : List Byte := List.zipWith (· ^^^ ·) as bs

/-- The number that digits in a base spell, most significant first (44_radix R202). -/
def valueOfDigits (base : Nat) (ds : List Nat) : Nat := ds.foldl (fun v d => base * v + d) 0

/-! ### Primes and seeds -/

/-- The least prime above `seed` that is congruent to 3 modulo 4: what `GenPrime` finds in the reference configuration
(41_modulus R148). -/
def IsLeastBlumPrimeAbove (seed p : Nat) : Prop :=
  seed < p ∧ p.Prime ∧ p % 4 = 3 ∧ ∀ c, seed < c → c < p → ¬ (c.Prime ∧ c % 4 = 3)

/-- The search's seed (41_modulus R143), as the rule's formula has it. -/
def forcedSeed (bits : Nat) (drawn : List Byte) : Nat :=
  (fromBytes drawn % 2 ^ bits) ||| 2 ^ (bits - 1)

/-- The first number from `x` on that is coprime to `n` (42_seed R160). -/
def IsFirstCoprimeFrom (n x y : Nat) : Prop :=
  x ≤ y ∧ Nat.gcd y n = 1 ∧ ∀ z, x ≤ z → z < y → Nat.gcd z n ≠ 1

/-! ### What a run can reach -/

/-- What holds before and after every command of a run (10_state R21, R22, R25, R32 to R34). -/
structure State.Inv (s : State) : Prop where
  /-- every big register fits (R21) -/
  fitN : bitlen s.N ≤ s.PARAMS.KMAX
  fitX : bitlen s.X ≤ s.PARAMS.KMAX
  fitP : bitlen s.P ≤ s.PARAMS.KMAX
  fitQ : bitlen s.Q ≤ s.PARAMS.KMAX
  fitB : bitlen s.B ≤ s.PARAMS.KMAX
  fitE : bitlen s.E ≤ s.PARAMS.KMAX
  fitM : bitlen s.M ≤ s.PARAMS.KMAX
  fitR : bitlen s.R ≤ s.PARAMS.KMAX
  /-- `KBL = Bitlen(N)` (R25) -/
  length : s.KBL.toNat = bitlen s.N
  /-- a factor that was not supplied is 0 (R22, R38) -/
  noP : s.PV = false → s.P = 0
  noQ : s.QV = false → s.Q = 0
  /-- no modulus in `EMPTY` (R34) -/
  empty : s.PHASE = .empty → s.N = 0 ∧ s.X = 0
  /-- a modulus but no state in `KEYED` (R34) -/
  keyed : s.PHASE = .keyed → s.X = 0
  /-- a modulus of at least 2 in `KEYED` and `READY` (R33) -/
  formed : s.PHASE = .keyed ∨ s.PHASE = .ready → 2 ≤ s.N
  /-- the factors dropped or kept (R22) -/
  dropped : s.PHASE = .keyed ∨ s.PHASE = .ready → s.PARAMS.RETAIN_PQ = false →
    s.P = 0 ∧ s.Q = 0 ∧ s.PV = false ∧ s.QV = false
  kept : s.PHASE = .keyed ∨ s.PHASE = .ready → s.PARAMS.RETAIN_PQ = true →
    s.N = s.P * s.Q ∧ s.PV = true ∧ s.QV = true
  /-- the generator's invariants in `READY` (R32) -/
  below : s.PHASE = .ready → s.X < s.N
  coprime : s.PHASE = .ready → Nat.gcd s.X s.N = 1
  residue : s.PHASE = .ready → ∃ y, y * y % s.N = s.X
  /-- nothing left in `FAILED` (R34) -/
  failed : s.PHASE = .failed → s.N = 0 ∧ s.X = 0 ∧ s.P = 0 ∧ s.Q = 0 ∧ s.PV = false ∧ s.QV = false

/-- The candidates of a prime search in order (41_modulus R144): `NextPrime` again and again from the seed. -/
def candidate (ps : Params) (seed : Nat) : Nat → Nat
  | 0 => seed
  | j + 1 => nextPrime ps.PRIMES (candidate ps seed j) ps.REPS

/-- The entropy requests a command makes at most, in order (20_memory R71). -/
def mayAsk (i : Instr) (s : State) : List Request :=
  match i with
  | .genkey =>
    [⟨.highQuality, (s.KREQ.toNat / 2 + 1 + 7) / 8⟩,
     ⟨.highQuality, (s.KREQ.toNat / 2 + s.KREQ.toNat % 2 + 7) / 8⟩]
  | .seedr => [⟨.highQuality, (s.KBL.toNat + 7) / 8⟩]
  | .extract payload =>
    if s.WHITEN = true ∧ 1 ≤ fromBytes payload then [⟨.advisory, fromBytes payload⟩] else []
  | .digits payload =>
    if s.WHITEN = true ∧ 1 ≤ byteCount s.BASE.toNat (fromBytes payload) then
      [⟨.advisory, byteCount s.BASE.toNat (fromBytes payload)⟩]
    else []
  | .ld _ _ | .rd _ | .clr | .mkn | .seedx _ | .sqr | .modexp => []

/-- The answer to request `k` of that list, where the requests before it have been made: none past the list's end. -/
def answerAt (i : Instr) (s : State) (k : Nat) : Option Answer :=
  (mayAsk i s)[k]?.map fun r => answerTo r.port r.count (afterRequests ((mayAsk i s).take k) s)

/-- The first `k` requests of that list are all answered `Ok`, one after the other (00_scope R10). -/
def OkBefore (i : Instr) (s : State) (k : Nat) : Prop :=
  ∀ j < k, ∃ bs : List Byte, answerAt i s j = some (.bytes bs)

/-- The command waits at request `k` for an answer that never comes (93 U2). -/
def WaitsAt (i : Instr) (s : State) (k : Nat) : Prop :=
  OkBefore i s k ∧ answerAt i s k = some .silent

/-- What a reset leaves of a state of which these are the answers not used and the requests on record. -/
def resetTo (s : State) (entHq entAdv : List Answer) (asked : List Request) : State :=
  { State.reset with PARAMS := s.PARAMS, ENTHQ := entHq, ENTADV := entAdv, ASKED := asked }

/-- The state with other contents of the exponentiation engine's registers (40_transfer_system R124). -/
def withOperands (b e m r : Nat) (s : State) : State := { s with B := b, E := e, M := m, R := r }

/-- The commands that neither read nor write the registers `B`, `E`, `M`, `R`. -/
def leavesOperands : Instr → Bool
  | .ld .B _ | .ld .E _ | .ld .M _ | .rd .B | .rd .E | .rd .M | .rd .R | .clr | .modexp => false
  | _ => true

end Sys2Proof.Machine
end

