-- ==== Sys2Proof/Certificates/Slice0/Obligations.lean ====
section
/-!
DEFINITION. The statements about the engine. A next state is written out: a field that the statement does not name keeps
its value, so every equation is also the command's frame.
-/

open Sys2Proof Sys2Proof.Machine

/-! ### Reset -/

/-- 10_state R38 and 40_transfer_system R122: the values after reset, and after `CLR`, which keeps both streams and is
legal in every phase. The model's own fields (log entries 1, 3, 9) stay. -/
def Obligations.ResetAndClrLeaveTheStatedValues : Prop :=
  (State.reset.N = 0 ∧ State.reset.X = 0 ∧ State.reset.P = 0 ∧ State.reset.Q = 0 ∧
    State.reset.B = 0 ∧ State.reset.E = 0 ∧ State.reset.M = 0 ∧ State.reset.R = 0 ∧
    State.reset.PV = false ∧ State.reset.QV = false ∧ State.reset.KREQ = 1024 ∧
    State.reset.KBL = 0 ∧ State.reset.MODE = .accelerated ∧ State.reset.WHITEN = false ∧
    State.reset.BASE = 0 ∧ State.reset.PHASE = .empty ∧ State.reset.ERR = .ok ∧
    State.reset.CMD = [] ∧ State.reset.RSP = []) ∧
  FormatN 0x03 .clr ∧
  ∀ s : State, exec .clr s = .next
    { N := 0, X := 0, P := 0, Q := 0, B := 0, E := 0, M := 0, R := 0, PV := false, QV := false,
      KREQ := 1024, KBL := 0, MODE := .accelerated, WHITEN := false, BASE := 0, PHASE := .empty,
      ERR := .ok, CMD := s.CMD, RSP := s.RSP ++ okResponse 0x03 [],
      PARAMS := s.PARAMS, ENTHQ := s.ENTHQ, ENTADV := s.ENTADV, ASKED := s.ASKED,
      RESETLINE := s.RESETLINE }

/-- 70_reset section 1: reset asserted at any time, whatever stands at the front of `CMD` and however many of its entropy
requests it has made, empties both streams and puts every register at its reset value, whatever the state was. The
requests that the abandoned command had made are on record and their answers are gone. How the moment of a reset is given
(by the number of those requests) is the model's choice (log entry 9). -/
def Obligations.AssertedResetIsTakenNext : Prop :=
  ∀ (s : State) (k : Nat),
    step (assertReset 0 s) = .next (resetTo s s.ENTHQ s.ENTADV s.ASKED) ∧
    ((∀ i rest, decode s.CMD ≠ .command i rest) →
      step (assertReset k s) = .next (resetTo s s.ENTHQ s.ENTADV s.ASKED)) ∧
    ∀ i rest, decode s.CMD = .command i rest →
      ∃ u : State, u = afterRequests ((requestsOf i s).take k) s ∧
        u.ASKED = s.ASKED ++ (requestsOf i s).take k ∧
        step (assertReset k s) = .next (resetTo s u.ENTHQ u.ENTADV u.ASKED)

/-- 70_reset section 1: the answer to an outstanding request is dropped and meets no later request, whatever it is, also
where it would never have come: `SEEDR`'s one request, `GENKEY`'s first and second, and that of a whitened `EXTRACT` or
`DIGITS`. How the moment of a reset is given is the model's choice (log entry 9). -/
def Obligations.ResetDropsTheAnswerOfAnAbandonedRequest : Prop :=
  ∀ (s : State) (rest : List Byte) (nb : Nat),
    (decode s.CMD = .command .seedr rest → s.PHASE = .keyed → 2 ≤ s.N → nb = (s.KBL.toNat + 7) / 8 →
      step (assertReset 1 s) = .next
        (resetTo s s.ENTHQ.tail s.ENTADV (s.ASKED ++ [⟨.highQuality, nb⟩]))) ∧
    (decode s.CMD = .command .genkey rest → s.PHASE = .empty → s.PV = false → s.QV = false →
      16 ≤ s.KREQ.toNat → s.KREQ.toNat + 1 ≤ s.PARAMS.KMAX → nb = (s.KREQ.toNat / 2 + 1 + 7) / 8 →
      step (assertReset 1 s) = .next
        (resetTo s s.ENTHQ.tail s.ENTADV (s.ASKED ++ [⟨.highQuality, nb⟩])) ∧
      ∀ (drawP : List Byte) (p : Nat), answerTo .highQuality nb s = .bytes drawP →
        findPrime s.PARAMS (forcedSeed (s.KREQ.toNat / 2 + 1) drawP) = some p →
        step (assertReset 2 s) = .next
          (resetTo s s.ENTHQ.tail.tail s.ENTADV (s.ASKED ++
            [⟨.highQuality, nb⟩, ⟨.highQuality, (s.KREQ.toNat / 2 + s.KREQ.toNat % 2 + 7) / 8⟩]))) ∧
    (∀ payload : List Byte, s.PHASE = .ready → s.WHITEN = true → 1 ≤ s.N → 1 ≤ bitsPerSquaring s →
      1 ≤ nb → nb ≤ s.PARAMS.BMAX →
      (decode s.CMD = .command (.extract payload) rest → nb = fromBytes payload →
        step (assertReset 1 s) = .next
          (resetTo s s.ENTHQ s.ENTADV.tail (s.ASKED ++ [⟨.advisory, nb⟩]))) ∧
      (decode s.CMD = .command (.digits payload) rest →
        fromBytes payload < 2 ^ 32 → 2 ≤ s.BASE.toNat → s.BASE.toNat ^ fromBytes payload ≤ 256 ^ nb →
        (∀ m < nb, 256 ^ m < s.BASE.toNat ^ fromBytes payload) →
        step (assertReset 1 s) = .next
          (resetTo s s.ENTHQ s.ENTADV.tail (s.ASKED ++ [⟨.advisory, nb⟩]))))

/-- 10_state section 5: what holds of every run holds after reset. -/
def Obligations.ResetStateSatisfiesTheRunInvariant : Prop := State.reset.Inv

/-! ### Encoding and stepping -/

/-- 30_encoding sections 1 and 3: the packet of a well-formed command, with every operand, is read back as that command
and nothing of what follows it is consumed. -/
def Obligations.DecodeReadsBackEveryEncodedCommand : Prop :=
  ∀ (i : Instr) (rest : List Byte), i.wellFormed = true → decode (encode i ++ rest) = .command i rest

/-- 30_encoding sections 1 and 3: whatever is read as a command is that command's own packet. -/
def Obligations.EveryDecodedPacketIsItsCommandsEncoding : Prop :=
  ∀ (bs rest : List Byte) (i : Instr), decode bs = .command i rest →
    i.wellFormed = true ∧ bs = encode i ++ rest

/-- 30_encoding R97: the illegal encodings are exactly those of (a) to (e); each is consumed whole, changes no state but
`ERR`, and is answered with `IllegalCommand` in every phase; every other packet is a command with its opcode. -/
def Obligations.IllegalEncodingsAreExactlyTheListedOnes : Prop :=
  ∀ (op a : Byte) (payload rest : List Byte), payload.length ≤ 65535 →
    (IllegalEncoding op a payload.length →
      ∀ s : State, s.RESETLINE = .low → s.CMD = packetBytes op a payload ++ rest →
        step s = .next { s with
          CMD := rest, ERR := .illegalCommand, RSP := s.RSP ++ errorResponse op .illegalCommand }) ∧
    (¬ IllegalEncoding op a payload.length →
      ∃ i : Instr, i.wellFormed = true ∧ i.opcode = op ∧
        decode (packetBytes op a payload ++ rest) = .command i rest)

/-- 30_encoding section 1 and 60_exceptions section 8: with no whole packet in `CMD` the engine is idle and nothing
changes. -/
def Obligations.TruncatedPacketLeavesTheEngineIdle : Prop :=
  ∀ s : State, s.RESETLINE = .low →
    (s.CMD.length < 4 ∨ ∃ (op a hi lo : Byte) (stream : List Byte),
      s.CMD = op :: a :: hi :: lo :: stream ∧ stream.length < 256 * hi.toNat + lo.toNat) →
    step s = .next s

/-- 30_encoding section 3: when the bytes at the front of `CMD` decode to a well-formed command, the step consumes its
packet and runs it. -/
def Obligations.StepRunsTheDecodedCommand : Prop :=
  ∀ (s : State) (i : Instr) (rest : List Byte), s.RESETLINE = .low → i.wellFormed = true →
    decode s.CMD = .command i rest → step s = exec i { s with CMD := rest }

/-- 30_encoding R102: the worked encodings and responses. -/
def Obligations.WorkedEncodingsReadAsTheSpecSpellsThem : Prop :=
  decode [0x01, 0x02, 0x00, 0x01, 0x0B] = .command (.ld .P [0x0B]) [] ∧
  fromBytes [0x0B] = 11 ∧
  decode [0x01, 0x12, 0x00, 0x00] = .command (.ld .MODE []) [] ∧
  decode [0x01, 0x12, 0x00, 0x01, 0x00] = .command (.ld .MODE [0x00]) [] ∧
  fromBytes [] = 0 ∧ (∀ s : State, exec (.ld .MODE [0x00]) s = exec (.ld .MODE []) s) ∧
  decode [0x21, 0x00, 0x00, 0x01, 0x01] = .command (.extract [0x01]) [] ∧
  fromBytes [0x01] = 1 ∧
  decode [0x21, 0x00, 0x00, 0x02, 0x01, 0x2C] = .command (.extract [0x01, 0x2C]) [] ∧
  fromBytes [0x01, 0x2C] = 300 ∧
  decode [0x02, 0x15, 0x00, 0x00] = .command (.rd .STATUS) [] ∧
  (∀ (s : State) (u : State), extractBytes 1 s = .got ([0x33], false) u → s.PHASE = .ready →
    exec (.extract [0x01]) s = .next { u with
      RSP := u.RSP ++ [0x21, 0x00, 0x00, 0x00, 0x00, 0x00, 0x00, 0x01, 0x33] }) ∧
  (∀ s : State, s.KBL = 7 → exec (.rd .KBL) s = .next { s with
    RSP := s.RSP ++ [0x02, 0x00, 0x00, 0x00, 0x00, 0x00, 0x00, 0x04, 0x00, 0x00, 0x00, 0x07] }) ∧
  (∀ s : State, s.PHASE = .empty → exec .sqr s = .next { s with
    ERR := .wrongPhase, RSP := s.RSP ++ [0x20, 0x06, 0x00, 0x00, 0x00, 0x00, 0x00, 0x00] })

/-! ### Errors -/

/-- 60_exceptions R242: a well-formed command that is not legal in the current phase (10_state R31's table) changes
`ERR` and appends its response; nothing else changes, and an init command refused for its phase is not fatal. -/
def Obligations.WrongPhaseChangesNothingButErr : Prop :=
  ∀ (i : Instr) (s : State), i.wellFormed = true → s.PHASE ∉ legalPhases i →
    exec i s = .next { s with
      ERR := .wrongPhase, RSP := s.RSP ++ errorResponse i.opcode .wrongPhase }

/-- 20_memory section 1: a load of a register that `LD` never writes is an illegal encoding in every phase. The statement
is about the term, which no packet decodes to; that `exec` gives it the meaning of its illegal packet is the model's choice
(log entry 11). The packet itself is in `IllegalEncodingsAreExactlyTheListedOnes`. -/
def Obligations.LoadOfAReadOnlyRegisterIsIllegal : Prop :=
  ∀ (r : Reg) (payload : List Byte) (s : State), r ∈ [Reg.N, .X, .R, .KBL, .STATUS] →
    exec (.ld r payload) s = .next { s with
      ERR := .illegalCommand, RSP := s.RSP ++ errorResponse 0x01 .illegalCommand }

/-- 60_exceptions R247: an init command that raises one of three errors erases the session and keeps every other
register; nothing else brings the engine into `FAILED`, and there every command but `RD` and `CLR` is refused. The answers
a command used and the requests it made are the model's own fields. -/
def Obligations.FatalErrorErasesTheSession : Prop :=
  (∀ (i : Instr) (s t : State) (e : Status), i.opcode ∈ ([0x10, 0x11, 0x12, 0x13] : List Byte) →
    e ∈ [Status.invalidParameter, .entropySourceError, .capacityExceeded] →
    exec i s = .next t → t.RSP = s.RSP ++ errorResponse i.opcode e →
    t = { erased e s with
      RSP := s.RSP ++ errorResponse i.opcode e, ENTHQ := t.ENTHQ, ASKED := t.ASKED }) ∧
  (∀ (i : Instr) (s t : State), exec i s = .next t → s.PHASE ≠ .failed → t.PHASE = .failed →
    i.opcode ∈ ([0x10, 0x11, 0x12, 0x13] : List Byte) ∧
    ∃ e ∈ [Status.invalidParameter, .entropySourceError, .capacityExceeded],
      t.RSP = s.RSP ++ errorResponse i.opcode e) ∧
  ∀ (i : Instr) (s : State), s.PHASE = .failed → i.wellFormed = true →
    i.opcode ∉ ([0x02, 0x03] : List Byte) →
    exec i s = .next { s with
      ERR := .wrongPhase, RSP := s.RSP ++ errorResponse i.opcode .wrongPhase }

/-- 60_exceptions R246: `IllegalCommand`, `WrongPhase`, and every error of a command that is not an init command change
`ERR` and append the response; no other state changes. -/
def Obligations.NonFatalErrorChangesNothingElse : Prop :=
  ∀ (i : Instr) (s t : State) (e : Status), e ≠ .ok → e ≠ .whiteningUnavailable →
    (i.opcode ∈ ([0x10, 0x11, 0x12, 0x13] : List Byte) → e = .illegalCommand ∨ e = .wrongPhase) →
    exec i s = .next t → t.RSP = s.RSP ++ errorResponse i.opcode e →
    t = { s with ERR := e, RSP := s.RSP ++ errorResponse i.opcode e }

/-! ### Register transfer -/

/-- 40_transfer_system R124 and section LD: what a load writes, for every register `LD` may write, in every phase in
which it is legal. -/
def Obligations.LoadWritesItsRegisterAndNothingElse : Prop :=
  ∀ (payload : List Byte) (s : State),
    (bitlen (fromBytes payload) ≤ s.PARAMS.KMAX →
      (s.PHASE = .empty →
        exec (.ld .P payload) s = .next { s with
          P := fromBytes payload, PV := true, RSP := s.RSP ++ okResponse 0x01 [] } ∧
        exec (.ld .Q payload) s = .next { s with
          Q := fromBytes payload, QV := true, RSP := s.RSP ++ okResponse 0x01 [] }) ∧
      (s.PHASE ≠ .failed →
        exec (.ld .B payload) s = .next { s with
          B := fromBytes payload, RSP := s.RSP ++ okResponse 0x01 [] } ∧
        exec (.ld .E payload) s = .next { s with
          E := fromBytes payload, RSP := s.RSP ++ okResponse 0x01 [] } ∧
        exec (.ld .M payload) s = .next { s with
          M := fromBytes payload, RSP := s.RSP ++ okResponse 0x01 [] })) ∧
    (fromBytes payload < 2 ^ 32 →
      (s.PHASE = .empty ∨ s.PHASE = .keyed →
        exec (.ld .KREQ payload) s = .next { s with
          KREQ := BitVec.ofNat 32 (fromBytes payload), RSP := s.RSP ++ okResponse 0x01 [] }) ∧
      (s.PHASE ≠ .failed →
        exec (.ld .BASE payload) s = .next { s with
          BASE := BitVec.ofNat 32 (fromBytes payload), RSP := s.RSP ++ okResponse 0x01 [] })) ∧
    (s.PHASE = .empty ∨ s.PHASE = .keyed →
      (fromBytes payload = 0 →
        exec (.ld .MODE payload) s = .next { s with
          MODE := .conservative, RSP := s.RSP ++ okResponse 0x01 [] } ∧
        exec (.ld .WHITEN payload) s = .next { s with
          WHITEN := false, RSP := s.RSP ++ okResponse 0x01 [] }) ∧
      (fromBytes payload = 1 →
        exec (.ld .MODE payload) s = .next { s with
          MODE := .accelerated, RSP := s.RSP ++ okResponse 0x01 [] } ∧
        exec (.ld .WHITEN payload) s = .next { s with
          WHITEN := true, RSP := s.RSP ++ okResponse 0x01 [] }))

/-- 40_transfer_system section LD: a value that does not fit its register, and a `MODE` or `WHITEN` above 1, in that
order; the register and the flags stay and the phase never changes. -/
def Obligations.LoadRefusesWhatDoesNotFit : Prop :=
  ∀ (r : Reg) (payload : List Byte) (s : State), s.PHASE ∈ legalPhases (.ld r payload) →
    (r ∈ [Reg.P, .Q, .B, .E, .M] → s.PARAMS.KMAX < bitlen (fromBytes payload) →
      exec (.ld r payload) s = .next { s with
        ERR := .capacityExceeded, RSP := s.RSP ++ errorResponse 0x01 .capacityExceeded }) ∧
    (r ∈ [Reg.KREQ, .MODE, .WHITEN, .BASE] → 2 ^ 32 ≤ fromBytes payload →
      exec (.ld r payload) s = .next { s with
        ERR := .capacityExceeded, RSP := s.RSP ++ errorResponse 0x01 .capacityExceeded }) ∧
    (r ∈ [Reg.MODE, .WHITEN] → 1 < fromBytes payload → fromBytes payload < 2 ^ 32 →
      exec (.ld r payload) s = .next { s with
        ERR := .invalidParameter, RSP := s.RSP ++ errorResponse 0x01 .invalidParameter })

/-- 20_memory section 4: every `LD`, one that fails too, leaves the same state twice as once, its response aside. -/
def Obligations.LoadIsIdempotent : Prop :=
  ∀ (r : Reg) (payload : List Byte) (s t : State), exec (.ld r payload) s = .next t →
    ∃ u : State, exec (.ld r payload) t = .next u ∧ { u with RSP := t.RSP } = t

/-- 40_transfer_system R121: `RD` answers, in every phase, a big register in the shortest form and a scalar in four
bytes, and writes nothing; a reserved select or a payload makes its packet illegal. -/
def Obligations.ReadAnswersEveryRegisterAndWritesNone : Prop :=
  (∀ (r : Reg) (rest : List Byte), decode (0x02 :: r.select :: 0 :: 0 :: rest) = .command (.rd r) rest) ∧
  (∀ (a : Byte) (payload rest : List Byte), payload.length ≤ 65535 →
    (∀ r : Reg, r.select ≠ a) ∨ payload ≠ [] →
    ∃ why : Illegal, decode (packetBytes 0x02 a payload ++ rest) = .illegal 0x02 why rest) ∧
  ∀ s : State,
    (∀ rv ∈ [(Reg.N, s.N), (.X, s.X), (.P, s.P), (.Q, s.Q), (.B, s.B), (.E, s.E), (.M, s.M), (.R, s.R)],
      exec (.rd rv.1) s = .next { s with RSP := s.RSP ++ okResponse 0x02 (toBytes rv.2) }) ∧
    (∀ rv ∈ [(Reg.KREQ, s.KREQ.toNat), (.KBL, s.KBL.toNat), (.MODE, modeCode s.MODE),
        (.WHITEN, if s.WHITEN then 1 else 0), (.BASE, s.BASE.toNat), (.STATUS, (statusWord s).toNat)],
      exec (.rd rv.1) s = .next { s with RSP := s.RSP ++ okResponse 0x02 (toBytesN rv.2 4) })

/-- 10_state section 3: the fields of `STATUS`, its reserved bits 0. -/
def Obligations.StatusWordHasItsFields : Prop :=
  ∀ s : State,
    (statusWord s).toNat % 4 = phaseCode s.PHASE ∧
    (statusWord s).getLsbD 2 = s.PV ∧ (statusWord s).getLsbD 3 = s.QV ∧
    (statusWord s).toNat / 16 % 16 = 0 ∧
    (statusWord s).toNat / 256 % 256 = statusCode s.ERR ∧
    (statusWord s).toNat / 65536 = 0

/-! ### The modulus -/

/-- 41_modulus section GENKEY: both draws answered, both primes found and the product within `KMAX`. -/
def Obligations.GenkeyFormsTheModulus : Prop :=
  ∀ (s : State) (k nbp nbq p q : Nat) (drawP drawQ : List Byte),
    s.PHASE = .empty → s.PV = false → s.QV = false →
    k = s.KREQ.toNat → 16 ≤ k → k + 1 ≤ s.PARAMS.KMAX →
    nbp = (k / 2 + 1 + 7) / 8 → nbq = (k / 2 + k % 2 + 7) / 8 →
    answerTo .highQuality nbp s = .bytes drawP →
    findPrime s.PARAMS (forcedSeed (k / 2 + 1) drawP) = some p →
    answerTo .highQuality nbq (afterAsking .highQuality nbp s) = .bytes drawQ →
    findPrime s.PARAMS (forcedSeed (k / 2 + k % 2) drawQ) = some q →
    bitlen (p * q) ≤ s.PARAMS.KMAX →
    exec .genkey s = .next { s with
      N := p * q, KBL := BitVec.ofNat 32 (bitlen (p * q))
      P := if s.PARAMS.RETAIN_PQ then p else 0
      Q := if s.PARAMS.RETAIN_PQ then q else 0
      PV := s.PARAMS.RETAIN_PQ, QV := s.PARAMS.RETAIN_PQ
      PHASE := .keyed
      ENTHQ := s.ENTHQ.tail.tail
      ASKED := s.ASKED ++ [⟨.highQuality, nbp⟩, ⟨.highQuality, nbq⟩]
      RSP := s.RSP ++ okResponse 0x10 (toBytesN (bitlen (p * q)) 4 ++ toBytes (p * q)) }

/-- 41_modulus section GENKEY: the three checks before the first draw, in order; each is fatal and asks for no
entropy. -/
def Obligations.GenkeyChecksBeforeItDraws : Prop :=
  ∀ s : State, s.PHASE = .empty →
    (s.PV = true ∨ s.QV = true →
      exec .genkey s = .next { erased .invalidParameter s with
        RSP := s.RSP ++ errorResponse 0x10 .invalidParameter }) ∧
    (s.PV = false → s.QV = false → s.KREQ.toNat < 16 →
      exec .genkey s = .next { erased .invalidParameter s with
        RSP := s.RSP ++ errorResponse 0x10 .invalidParameter }) ∧
    (s.PV = false → s.QV = false → 16 ≤ s.KREQ.toNat → s.PARAMS.KMAX < s.KREQ.toNat + 1 →
      exec .genkey s = .next { erased .capacityExceeded s with
        RSP := s.RSP ++ errorResponse 0x10 .capacityExceeded })

/-- 41_modulus section GENKEY: a draw that fails and a candidate or product that outgrows `KMAX`; each is fatal, and the
second draw is not made when the first prime is not found. -/
def Obligations.GenkeyDrawAndCapacityFailuresAreFatal : Prop :=
  ∀ (s : State) (k nbp nbq : Nat),
    s.PHASE = .empty → s.PV = false → s.QV = false →
    k = s.KREQ.toNat → 16 ≤ k → k + 1 ≤ s.PARAMS.KMAX →
    nbp = (k / 2 + 1 + 7) / 8 → nbq = (k / 2 + k % 2 + 7) / 8 →
    (answerTo .highQuality nbp s = .fail →
      exec .genkey s = .next { erased .entropySourceError s with
        ENTHQ := s.ENTHQ.tail, ASKED := s.ASKED ++ [⟨.highQuality, nbp⟩]
        RSP := s.RSP ++ errorResponse 0x10 .entropySourceError }) ∧
    ∀ drawP : List Byte, answerTo .highQuality nbp s = .bytes drawP →
      (findPrime s.PARAMS (forcedSeed (k / 2 + 1) drawP) = none →
        exec .genkey s = .next { erased .capacityExceeded s with
          ENTHQ := s.ENTHQ.tail, ASKED := s.ASKED ++ [⟨.highQuality, nbp⟩]
          RSP := s.RSP ++ errorResponse 0x10 .capacityExceeded }) ∧
      ∀ p : Nat, findPrime s.PARAMS (forcedSeed (k / 2 + 1) drawP) = some p →
        (answerTo .highQuality nbq (afterAsking .highQuality nbp s) = .fail →
          exec .genkey s = .next { erased .entropySourceError s with
            ENTHQ := s.ENTHQ.tail.tail
            ASKED := s.ASKED ++ [⟨.highQuality, nbp⟩, ⟨.highQuality, nbq⟩]
            RSP := s.RSP ++ errorResponse 0x10 .entropySourceError }) ∧
        ∀ drawQ : List Byte,
          answerTo .highQuality nbq (afterAsking .highQuality nbp s) = .bytes drawQ →
          (findPrime s.PARAMS (forcedSeed (k / 2 + k % 2) drawQ) = none ∨
            (∃ q : Nat, findPrime s.PARAMS (forcedSeed (k / 2 + k % 2) drawQ) = some q ∧
              s.PARAMS.KMAX < bitlen (p * q)) →
            exec .genkey s = .next { erased .capacityExceeded s with
              ENTHQ := s.ENTHQ.tail.tail
              ASKED := s.ASKED ++ [⟨.highQuality, nbp⟩, ⟨.highQuality, nbq⟩]
              RSP := s.RSP ++ errorResponse 0x10 .capacityExceeded })

/-- 41_modulus R143: the search's seed has exactly the bits asked for. -/
def Obligations.PrimeSeedHasExactlyTheTargetLength : Prop :=
  ∀ (bits : Nat) (drawn : List Byte), 1 ≤ bits →
    forceLength bits (fromBytes drawn) = forcedSeed bits drawn ∧
    bitlen (forceLength bits (fromBytes drawn)) = bits ∧
    2 ^ (bits - 1) ≤ forceLength bits (fromBytes drawn) ∧
    forceLength bits (fromBytes drawn) < 2 ^ bits

/-- 41_modulus section GENKEY: the search takes the first candidate above the seed that is accepted, and gives up at the
first that outgrows `KMAX`, for every prime unit; the bound the model sets on its rounds shows nowhere (log entry 6). -/
def Obligations.PrimeSearchTakesTheFirstAcceptedCandidate : Prop :=
  ∀ (ps : Params) (seed j : Nat),
    (∀ i, 1 ≤ i → i < j →
      bitlen (candidate ps seed i) ≤ ps.KMAX ∧ acceptsPrime ps (candidate ps seed i) = false) →
    1 ≤ j →
    (bitlen (candidate ps seed j) ≤ ps.KMAX → acceptsPrime ps (candidate ps seed j) = true →
      findPrime ps seed = some (candidate ps seed j)) ∧
    (ps.KMAX < bitlen (candidate ps seed j) → findPrime ps seed = none)

/-- 41_modulus section GENKEY with R148's reference functions: the search finds the least prime above its seed that is
congruent to 3 modulo 4, if that fits. -/
def Obligations.ReferenceSearchFindsTheLeastBlumPrime : Prop :=
  ∀ (ps : Params) (seed p : Nat), ps.PRIMES = .reference → 2 ≤ seed → IsLeastBlumPrimeAbove seed p →
    findPrime ps seed = if bitlen p ≤ ps.KMAX then some p else none

/-- 41_modulus R148: of `NextPrime` and `ProbPrime` it holds for every prime unit that `NextPrime(n) > n` and that a
prime passes; in the reference configuration they are the least prime above and exact primality. -/
def Obligations.PrimeFunctionsMeetTheirContract : Prop :=
  (∀ (unit : PrimeUnit) (n reps : Nat), n < nextPrime unit n reps) ∧
  (∀ (unit : PrimeUnit) (n reps : Nat), n.Prime → probPrime unit n reps = true) ∧
  (∀ n reps : Nat, (nextPrime .reference n reps).Prime ∧
    ∀ c, n < c → c < nextPrime .reference n reps → ¬ c.Prime) ∧
  (∀ n reps : Nat, probPrime .reference n reps = true ↔ n.Prime)

/-- 45_modexp section "The primality test built on it": one round, in terms of `n - 1 = 2^s * d` with `d` odd. -/
def Obligations.MillerRabinRoundTestsTheSquaresOfThePower : Prop :=
  ∀ n a s d : Nat, 5 ≤ n → n % 2 = 1 → 2 ≤ a → a + 2 ≤ n → n - 1 = 2 ^ s * d → d % 2 = 1 →
    (mrRound n a = true ↔ a ^ d % n = 1 ∨ ∃ r < s, a ^ (2 ^ r * d) % n = n - 1)

/-- 45_modexp section "The primality test built on it": the test over `MODEXP` runs exactly `reps` rounds, each with a base
in `[2, n - 2]`, wherever the bases come from; an admissible base of a given list is used as it stands. What stands in the
place of one that is missing or not admissible is the model's choice (log entry 15). -/
def Obligations.MillerRabinRunsExactlyRepsAdmissibleRounds : Prop :=
  (∀ (source : BaseSource) (n reps : Nat),
    (basesFor source n reps).length = reps ∧
    (5 ≤ n → ∀ a ∈ basesFor source n reps, 2 ≤ a ∧ a + 2 ≤ n) ∧
    (probPrime (.millerRabin source) n reps = true ↔
      n = 2 ∨ n = 3 ∨ (5 ≤ n ∧ n % 2 = 1 ∧ ∀ a ∈ basesFor source n reps, mrRound n a = true))) ∧
  ∀ (given : List Nat) (n : Nat), 5 ≤ n → n % 2 = 1 → (∀ a ∈ given, 2 ≤ a ∧ a + 2 ≤ n) →
    (probPrime (.millerRabin (.listed given)) n given.length = true ↔
      ∀ a ∈ given, mrRound n a = true)

/-- 41_modulus section GENKEY, the bit length of the result: a key is at least as long as was asked for, for every prime
unit. -/
def Obligations.GeneratedKeyIsAtLeastAsLongAsRequested : Prop :=
  ∀ s t : State, exec .genkey s = .next t → s.PHASE = .empty → t.PHASE = .keyed →
    2 ^ (s.KREQ.toNat - 1) < t.N ∧ t.KBL.toNat = bitlen t.N ∧ s.KREQ.toNat ≤ t.KBL.toNat

/-- 41_modulus R146: `MKN`, its encoding, its phase, its three checks in order and its effect. -/
def Obligations.MknFormsTheModulusFromSuppliedFactors : Prop :=
  FormatN 0x11 .mkn ∧ LegalOnlyIn [.empty] .mkn ∧
  ∀ s : State, s.PHASE = .empty →
    (s.PV = false ∨ s.QV = false →
      exec .mkn s = .next { erased .invalidParameter s with
        RSP := s.RSP ++ errorResponse 0x11 .invalidParameter }) ∧
    (s.PV = true → s.QV = true → s.P * s.Q < 2 →
      exec .mkn s = .next { erased .invalidParameter s with
        RSP := s.RSP ++ errorResponse 0x11 .invalidParameter }) ∧
    (s.PV = true → s.QV = true → 2 ≤ s.P * s.Q → s.PARAMS.KMAX < bitlen (s.P * s.Q) →
      exec .mkn s = .next { erased .capacityExceeded s with
        RSP := s.RSP ++ errorResponse 0x11 .capacityExceeded }) ∧
    (s.PV = true → s.QV = true → 2 ≤ s.P * s.Q → bitlen (s.P * s.Q) ≤ s.PARAMS.KMAX →
      exec .mkn s = .next { s with
        N := s.P * s.Q, KBL := BitVec.ofNat 32 (bitlen (s.P * s.Q))
        P := if s.PARAMS.RETAIN_PQ then s.P else 0
        Q := if s.PARAMS.RETAIN_PQ then s.Q else 0
        PV := s.PARAMS.RETAIN_PQ, QV := s.PARAMS.RETAIN_PQ
        PHASE := .keyed
        RSP := s.RSP ++ okResponse 0x11 (toBytesN (bitlen (s.P * s.Q)) 4 ++ toBytes (s.P * s.Q)) })

/-! ### The seed -/

/-- 42_seed R160: `SEEDR` takes the first number from its draw on that is coprime to `N`, fewer than `N` increments
away, and squares it; a draw that fails is fatal. -/
def Obligations.SeedrSquaresTheFirstCoprimeDraw : Prop :=
  FormatN 0x12 .seedr ∧ LegalOnlyIn [.keyed] .seedr ∧
  ∀ (s : State) (nb : Nat), s.PHASE = .keyed → 2 ≤ s.N → nb = (s.KBL.toNat + 7) / 8 →
    (∀ drawn : List Byte, answerTo .highQuality nb s = .bytes drawn →
      ∃ x : Nat, IsFirstCoprimeFrom s.N (fromBytes drawn) x ∧ x < fromBytes drawn + s.N ∧
        exec .seedr s = .next { s with
          X := x * x % s.N, PHASE := .ready
          ENTHQ := s.ENTHQ.tail, ASKED := s.ASKED ++ [⟨.highQuality, nb⟩]
          RSP := s.RSP ++ okResponse 0x12 (toBytes (x * x % s.N)) }) ∧
    (answerTo .highQuality nb s = .fail →
      exec .seedr s = .next { erased .entropySourceError s with
        ENTHQ := s.ENTHQ.tail, ASKED := s.ASKED ++ [⟨.highQuality, nb⟩]
        RSP := s.RSP ++ errorResponse 0x12 .entropySourceError })

/-- 42_seed R161: `SEEDX`, its encoding, its phase, its two checks in order and its effect. -/
def Obligations.SeedxSquaresTheSuppliedValue : Prop :=
  FormatV 0x13 .seedx ∧ (∀ payload : List Byte, LegalOnlyIn [.keyed] (.seedx payload)) ∧
  ∀ (payload : List Byte) (s : State), s.PHASE = .keyed → 2 ≤ s.N →
    (s.PARAMS.KMAX < bitlen (fromBytes payload) →
      exec (.seedx payload) s = .next { erased .capacityExceeded s with
        RSP := s.RSP ++ errorResponse 0x13 .capacityExceeded }) ∧
    (bitlen (fromBytes payload) ≤ s.PARAMS.KMAX → Nat.gcd (fromBytes payload) s.N ≠ 1 →
      exec (.seedx payload) s = .next { erased .invalidParameter s with
        RSP := s.RSP ++ errorResponse 0x13 .invalidParameter }) ∧
    (bitlen (fromBytes payload) ≤ s.PARAMS.KMAX → Nat.gcd (fromBytes payload) s.N = 1 →
      exec (.seedx payload) s = .next { s with
        X := fromBytes payload * fromBytes payload % s.N, PHASE := .ready
        RSP := s.RSP ++
          okResponse 0x13 (toBytes (fromBytes payload * fromBytes payload % s.N)) })

/-! ### Squaring and extraction -/

/-- 43_square_extract R176: `SQR` is one squaring and an empty answer. -/
def Obligations.SqrAdvancesTheStateOnce : Prop :=
  FormatN 0x20 .sqr ∧ LegalOnlyIn [.ready] .sqr ∧
  ∀ s : State, s.PHASE = .ready → 1 ≤ s.N →
    exec .sqr s = .next { s with
      X := s.X * s.X % s.N, RSP := s.RSP ++ okResponse 0x20 [] }

/-- 43_square_extract sections EXTRACT and Laws: without whitening, `EXTRACT n` answers the first `n` bytes of the bit
stream of the states after the start, in either mode and bit order, and leaves the state after `⌈8n/k⌉` squarings. -/
def Obligations.ExtractAnswersTheBitStream : Prop :=
  ∀ (payload : List Byte) (s : State) (n : Nat), n = fromBytes payload →
    s.PHASE = .ready → s.WHITEN = false → 1 ≤ s.N → 1 ≤ bitsPerSquaring s → n ≤ s.PARAMS.BMAX →
    exec (.extract payload) s = .next { s with
      X := stateAfterBytes s n
      RSP := s.RSP ++ okResponse 0x21 (streamBytes s n) }

/-- 43_square_extract R183: with whitening and an answer from the advisory port, every byte is the one the same call
would produce without whitening, combined with the pad; the sequence of states is the same, and without whitening no
request is made. -/
def Obligations.ExtractWhitenedCombinesThePad : Prop :=
  ∀ (payload : List Byte) (s : State) (n : Nat) (pad : List Byte), n = fromBytes payload →
    s.PHASE = .ready → s.WHITEN = true → 1 ≤ s.N → 1 ≤ bitsPerSquaring s →
    1 ≤ n → n ≤ s.PARAMS.BMAX → answerTo .advisory n s = .bytes pad →
    exec (.extract payload) { s with WHITEN := false } = .next { s with
      WHITEN := false, X := stateAfterBytes s n
      RSP := s.RSP ++ okResponse 0x21 (streamBytes s n) } ∧
    exec (.extract payload) s = .next { s with
      X := stateAfterBytes s n
      ENTADV := s.ENTADV.tail, ASKED := s.ASKED ++ [⟨.advisory, n⟩]
      RSP := s.RSP ++ okResponse 0x21 (xorBytes (streamBytes s n) pad) }

/-- 43_square_extract R184: when the advisory port fails, the call's bytes come unwhitened with status
`WhiteningUnavailable`, `ERR` records it, and whitening is off from now on: a later call asks nothing and answers
`OK`. -/
def Obligations.ExtractLosesWhiteningAndGoesOn : Prop :=
  ∀ (payload : List Byte) (s : State) (n : Nat), n = fromBytes payload →
    s.PHASE = .ready → s.WHITEN = true → 1 ≤ s.N → 1 ≤ bitsPerSquaring s →
    1 ≤ n → n ≤ s.PARAMS.BMAX → answerTo .advisory n s = .fail →
    ∃ t : State,
      t = { s with
        X := stateAfterBytes s n, WHITEN := false, ERR := .whiteningUnavailable
        ENTADV := s.ENTADV.tail, ASKED := s.ASKED ++ [⟨.advisory, n⟩]
        RSP := s.RSP ++ unwhitenedResponse 0x21 (streamBytes s n) } ∧
      exec (.extract payload) s = .next t ∧
      ∀ later : List Byte, fromBytes later ≤ s.PARAMS.BMAX →
        exec (.extract later) t = .next { t with
          X := stateAfterBytes t (fromBytes later)
          RSP := t.RSP ++ okResponse 0x21 (streamBytes t (fromBytes later)) }

/-- 43_square_extract R189: `EXTRACT 0` answers nothing, squares nothing and asks for no entropy, whatever `WHITEN`. -/
def Obligations.ExtractOfZeroBytesDoesNothing : Prop :=
  ∀ (payload : List Byte) (s : State), fromBytes payload = 0 → s.PHASE = .ready →
    exec (.extract payload) s = .next { s with RSP := s.RSP ++ okResponse 0x21 [] }

/-- 43_square_extract section EXTRACT: more than `BMAX` bytes, or a count of 2^32 and more, is refused and nothing
moves. -/
def Obligations.ExtractRefusesTooManyBytes : Prop :=
  ∀ (payload : List Byte) (s : State), s.PHASE = .ready →
    2 ^ 32 ≤ fromBytes payload ∨ s.PARAMS.BMAX < fromBytes payload →
    exec (.extract payload) s = .next { s with
      ERR := .capacityExceeded, RSP := s.RSP ++ errorResponse 0x21 .capacityExceeded }

/-- 43_square_extract section Laws: a request splits where its first part ends at the end of a squaring, which is
everywhere in Conservative mode (k = 1). -/
def Obligations.ExtractSplitsAtSquaringBoundaries : Prop :=
  ∀ (s t u v : State) (first second both : List Byte),
    s.PHASE = .ready → s.WHITEN = false → 1 ≤ s.N → 1 ≤ bitsPerSquaring s →
    fromBytes both = fromBytes first + fromBytes second → fromBytes both ≤ s.PARAMS.BMAX →
    8 * fromBytes first % bitsPerSquaring s = 0 →
    exec (.extract first) s = .next t → exec (.extract second) t = .next u →
    exec (.extract both) s = .next v →
    v.X = u.X ∧ ∃ out₁ out₂ : List Byte,
      t.RSP = s.RSP ++ okResponse 0x21 out₁ ∧ u.RSP = t.RSP ++ okResponse 0x21 out₂ ∧
      v.RSP = s.RSP ++ okResponse 0x21 (out₁ ++ out₂)

/-- 43_square_extract section "The state machine, step by step": the machine of one transition per squaring, bit or byte
comes to its end with the bytes and the state of the extraction loop. -/
def Obligations.ExtractionMachineAgreesWithTheLoop : Prop :=
  ∀ (s : State) (n : Nat) (pad : List Byte), 1 ≤ n → pad.length = n → 1 ≤ bitsPerSquaring s →
    ∃ steps : Nat,
      (fsmRun steps (fsmStart s n pad)).control = .done ∧
      (fsmRun steps (fsmStart s n pad)).OUT = (packLoop s n pad).OUT.reverse ∧
      (fsmRun steps (fsmStart s n pad)).X = (packLoop s n pad).X

/-! ### The radix converter -/

/-- 44_radix section DIGITS: `nb`, the least number of bytes with `256^nb >= base^count`, is extracted, and the `count`
digits of the raw number modulo `base^count` are answered, most significant first, each in `⌈Bitlen(base-1)/8⌉`
bytes. -/
def Obligations.DigitsAnswersTheDigitsOfTheRawNumber : Prop :=
  ∀ (payload : List Byte) (s : State) (base count nb width : Nat),
    count = fromBytes payload → base = s.BASE.toNat → width = (bitlen (base - 1) + 7) / 8 →
    s.PHASE = .ready → s.WHITEN = false → 1 ≤ s.N → 1 ≤ bitsPerSquaring s →
    count < 2 ^ 32 → 2 ≤ base → base ^ count ≤ 256 ^ nb → (∀ m < nb, 256 ^ m < base ^ count) →
    nb ≤ s.PARAMS.BMAX →
    ∃ ds : List Nat, ds.length = count ∧ (∀ d ∈ ds, d < base) ∧
      valueOfDigits base ds = fromBytes (streamBytes s nb) % base ^ count ∧
      exec (.digits payload) s = .next { s with
        X := stateAfterBytes s nb
        RSP := s.RSP ++ okResponse 0x22 (ds.flatMap fun d => toBytesN d width) }

/-- 44_radix section DIGITS with whitening: the pad is combined with the raw bytes before they are converted; when the
advisory port fails the digits come from the unwhitened bytes with status `WhiteningUnavailable`. -/
def Obligations.DigitsWhitenedConvertsTheWhitenedBytes : Prop :=
  ∀ (payload : List Byte) (s : State) (base count nb width : Nat),
    count = fromBytes payload → base = s.BASE.toNat → width = (bitlen (base - 1) + 7) / 8 →
    s.PHASE = .ready → s.WHITEN = true → 1 ≤ s.N → 1 ≤ bitsPerSquaring s →
    count < 2 ^ 32 → 2 ≤ base → base ^ count ≤ 256 ^ nb → (∀ m < nb, 256 ^ m < base ^ count) →
    1 ≤ nb → nb ≤ s.PARAMS.BMAX →
    (∀ pad : List Byte, answerTo .advisory nb s = .bytes pad →
      ∃ ds : List Nat, ds.length = count ∧ (∀ d ∈ ds, d < base) ∧
        valueOfDigits base ds = fromBytes (xorBytes (streamBytes s nb) pad) % base ^ count ∧
        exec (.digits payload) s = .next { s with
          X := stateAfterBytes s nb
          ENTADV := s.ENTADV.tail, ASKED := s.ASKED ++ [⟨.advisory, nb⟩]
          RSP := s.RSP ++ okResponse 0x22 (ds.flatMap fun d => toBytesN d width) }) ∧
    (answerTo .advisory nb s = .fail →
      ∃ ds : List Nat, ds.length = count ∧ (∀ d ∈ ds, d < base) ∧
        valueOfDigits base ds = fromBytes (streamBytes s nb) % base ^ count ∧
        exec (.digits payload) s = .next { s with
          X := stateAfterBytes s nb, WHITEN := false, ERR := .whiteningUnavailable
          ENTADV := s.ENTADV.tail, ASKED := s.ASKED ++ [⟨.advisory, nb⟩]
          RSP := s.RSP ++ unwhitenedResponse 0x22 (ds.flatMap fun d => toBytesN d width) })

/-- 44_radix section DIGITS: no digits asked for, none given; nothing is squared and no entropy asked for. -/
def Obligations.DigitsOfCountZeroDoesNothing : Prop :=
  ∀ (payload : List Byte) (s : State), fromBytes payload = 0 → s.PHASE = .ready →
    2 ≤ s.BASE.toNat →
    exec (.digits payload) s = .next { s with RSP := s.RSP ++ okResponse 0x22 [] }

/-- 44_radix section DIGITS: its three checks in order; `X` and `WHITEN` stay and no entropy is asked for. -/
def Obligations.DigitsChecksBeforeItExtracts : Prop :=
  ∀ (payload : List Byte) (s : State), s.PHASE = .ready →
    (2 ^ 32 ≤ fromBytes payload →
      exec (.digits payload) s = .next { s with
        ERR := .capacityExceeded, RSP := s.RSP ++ errorResponse 0x22 .capacityExceeded }) ∧
    (fromBytes payload < 2 ^ 32 → s.BASE.toNat < 2 →
      exec (.digits payload) s = .next { s with
        ERR := .invalidParameter, RSP := s.RSP ++ errorResponse 0x22 .invalidParameter }) ∧
    (fromBytes payload < 2 ^ 32 → 2 ≤ s.BASE.toNat →
      256 ^ s.PARAMS.BMAX < s.BASE.toNat ^ fromBytes payload →
      exec (.digits payload) s = .next { s with
        ERR := .capacityExceeded, RSP := s.RSP ++ errorResponse 0x22 .capacityExceeded })

/-- 44_radix sections DIGITS and properties: in base 256 the digits are the raw bytes; in base 2 they are the raw bits,
the first ones dropped where `count` is not a multiple of 8. -/
def Obligations.BinaryAndByteDigitsAreTheRawBits : Prop :=
  (∀ raw : List Byte, digitsOf 256 raw.length raw = raw.map BitVec.toNat) ∧
  ∀ (raw : List Byte) (count : Nat), count ≤ 8 * raw.length →
    digitsOf 2 count raw = (raw.flatMap byteBits).drop (8 * raw.length - count)

/-! ### Modular exponentiation -/

/-- 45_modexp R215: `MODEXP` writes the exact power, reduced once, and refuses `M = 0`. -/
def Obligations.ModexpIsTheReducedPower : Prop :=
  FormatN 0x30 .modexp ∧
  ∀ s : State,
    (s.PHASE ≠ .failed → s.M ≠ 0 →
      exec .modexp s = .next { s with
        R := s.B ^ s.E % s.M, RSP := s.RSP ++ okResponse 0x30 (toBytes (s.B ^ s.E % s.M)) }) ∧
    (s.PHASE ≠ .failed → s.M = 0 →
      exec .modexp s = .next { s with
        ERR := .invalidParameter, RSP := s.RSP ++ errorResponse 0x30 .invalidParameter }) ∧
    (s.PHASE = .failed →
      exec .modexp s = .next { s with
        ERR := .wrongPhase, RSP := s.RSP ++ errorResponse 0x30 .wrongPhase })

/-- 45_modexp R218: `SQR` computes the number that `MODEXP` with `B = X`, `E = 2`, `M = N` would. -/
def Obligations.SquaringAgreesWithModexp : Prop :=
  ∀ s t u : State, s.PHASE = .ready → 1 ≤ s.N → exec .sqr s = .next t →
    exec .modexp { s with B := s.X, E := 2, M := s.N } = .next u → u.R = t.X

/-- 45_modexp section "The primality test built on it": every prime passes the Fermat test run on the engine. -/
def Obligations.PrimesPassTheFermatTestOnTheEngine : Prop :=
  ∀ (s : State) (p a : Nat), p.Prime → 2 ≤ a → a + 2 ≤ p →
    s.PHASE ≠ .failed → s.B = a → s.E = p - 1 → s.M = p →
    exec .modexp s = .next { s with R := 1, RSP := s.RSP ++ okResponse 0x30 [0x01] }

/-! ### The whole machine -/

/-- 10_state section 5: every step keeps what holds of a run. -/
def Obligations.StepKeepsTheRunInvariant : Prop :=
  ∀ s t : State, s.Inv → step s = .next t → t.Inv

/-- 60_exceptions section 1: in a run nothing stops the engine but an entropy port that never answers one of the requests
of the very command at the front of `CMD`, all requests before it answered; no command is refused. That such a hang is the
fault `portSilent` is the model's choice (log entry 5). That a prime search cannot hang (93 U4, 70_reset section 3) is
inferred from 41_modulus section GENKEY, where candidates rise and `KMAX` bounds them (log entry 6). -/
def Obligations.OnlyASilentPortStopsTheEngine : Prop :=
  ∀ s : State, s.Inv → (∀ r : Refusal, step s ≠ .refused r) ∧
    ∀ f : Fault, step s = .fault f →
      f = .portSilent ∧ s.RESETLINE = .low ∧ ∃ (i : Instr) (rest : List Byte) (k : Nat),
        decode s.CMD = .command i rest ∧ WaitsAt i s k

/-- 20_memory R62: in a run every packet, legal or not, is answered with exactly one response, appended last: its opcode,
a status, `RLEN` and that many payload bytes, a payload only with `OK` or `WhiteningUnavailable`; `ERR` is the latest
status that was not `OK` (cleared by `CLR`). With no whole packet nothing is appended. -/
def Obligations.EveryPacketIsAnsweredExactlyOnce : Prop :=
  ∀ s t : State, s.Inv → s.RESETLINE = .low → step s = .next t →
    (decode s.CMD = .incomplete → t.RSP = s.RSP) ∧
    (decode s.CMD ≠ .incomplete →
      ∃ (op : Byte) (st : Status) (payload : List Byte),
        s.CMD.head? = some op ∧ st ≠ .arithmeticError ∧ payload.length < 2 ^ 32 ∧
        (st = .ok ∨ st = .whiteningUnavailable ∨ payload = []) ∧
        t.RSP = s.RSP ++ ([op, BitVec.ofNat 8 (statusCode st), 0, 0]
          ++ toBytesN payload.length 4 ++ payload) ∧
        t.ERR = (if st = .ok then (if op = 0x03 then .ok else s.ERR) else st))

/-- 10_state section 4: the moves of the phase, with those of reset and `CLR`. -/
def Obligations.PhaseMovesFollowTheTable : Prop :=
  ∀ (i : Instr) (s t : State), exec i s = .next t →
    t.PHASE = s.PHASE ∨ (i = .clr ∧ t.PHASE = .empty) ∨
    (s.PHASE = .empty ∧ (i = .genkey ∨ i = .mkn) ∧ (t.PHASE = .keyed ∨ t.PHASE = .failed)) ∨
    (s.PHASE = .keyed ∧ (i = .seedr ∨ ∃ payload, i = .seedx payload) ∧
      (t.PHASE = .ready ∨ t.PHASE = .failed))

/-- 10_state section 3: in `READY` the modulus, its length, the requested length and the mode never change, and
whitening can only fall; only `CLR` and reset leave `READY`. -/
def Obligations.ReadySessionKeepsItsConfiguration : Prop :=
  ∀ s t : State, s.PHASE = .ready → step s = .next t →
    (t.PHASE = .ready ∧ t.N = s.N ∧ t.KBL = s.KBL ∧ t.KREQ = s.KREQ ∧ t.MODE = s.MODE ∧
      t.P = s.P ∧ t.Q = s.Q ∧ (t.WHITEN = true → s.WHITEN = true)) ∨
    (t.PHASE = .empty ∧ (s.RESETLINE ≠ .low ∨ ∃ rest, decode s.CMD = .command .clr rest))

/-- 20_memory section 5: bytes appended behind a whole packet change nothing in its step; they are still there after
it. -/
def Obligations.LaterBytesDoNotDisturbACommand : Prop :=
  ∀ (s t : State) (later : List Byte), s.RESETLINE = .low → decode s.CMD ≠ .incomplete →
    step s = .next t → step (hostSend later s) = .next (hostSend later t)

/-- 20_memory R71: which command asks which port for how much, in order. A command that completes has made the first `k`
requests of its row, every one of them but the last answered `Ok` before the next was made, and used their answers; all of
the row where it does not end with an error; the last of them failed where it ends with `EntropySourceError`. A command
that hangs waits at a request of its row, those before it answered. That the hang is the fault `portSilent` is the model's
choice (log entry 5). -/
def Obligations.EntropyRequestsFollowTheTable : Prop :=
  (∀ (i : Instr) (s t : State), exec i s = .next t →
    (∃ k : Nat, k ≤ (mayAsk i s).length ∧ OkBefore i s (k - 1) ∧
      t.ASKED = s.ASKED ++ (mayAsk i s).take k ∧
      t.ENTHQ = (afterRequests ((mayAsk i s).take k) s).ENTHQ ∧
      t.ENTADV = (afterRequests ((mayAsk i s).take k) s).ENTADV ∧
      (t.RSP = s.RSP ++ errorResponse i.opcode .entropySourceError →
        1 ≤ k ∧ answerAt i s (k - 1) = some .fail)) ∧
    ((∀ e : Status, e ≠ .ok → e ≠ .whiteningUnavailable → t.RSP ≠ s.RSP ++ errorResponse i.opcode e) →
      t.ASKED = s.ASKED ++ mayAsk i s)) ∧
  ∀ (i : Instr) (s : State), exec i s = .fault .portSilent → ∃ k : Nat, WaitsAt i s k

/-- 70_reset section 1: the requests that a reset in the middle of a command puts on record are those which the command,
left alone, makes: all it has made when it completes, and up to the one it waits at when it hangs. That the hang is the
fault `portSilent` and how the moment of a reset is given are the model's choices (log entries 5 and 9). -/
def Obligations.ResetSeesTheRequestsTheCommandMakes : Prop :=
  ∀ (i : Instr) (s : State),
    (∀ t : State, exec i s = .next t →
      t.ASKED = s.ASKED ++ requestsOf i s ∧
      t.ENTHQ = (afterRequests (requestsOf i s) s).ENTHQ ∧
      t.ENTADV = (afterRequests (requestsOf i s) s).ENTADV) ∧
    (exec i s = .fault .portSilent →
      ∃ k : Nat, WaitsAt i s k ∧ requestsOf i s = (mayAsk i s).take (k + 1))

/-- 40_transfer_system section LD and 70_reset section 3: no command of the generator depends on or touches the
exponentiation engine's registers. -/
def Obligations.GeneratorIgnoresTheExponentiationRegisters : Prop :=
  ∀ (i : Instr) (s t : State) (b e m r : Nat), leavesOperands i = true → exec i s = .next t →
    t.B = s.B ∧ t.E = s.E ∧ t.M = s.M ∧ t.R = s.R ∧
    exec i (withOperands b e m r s) = .next (withOperands b e m r t)

/-- 93_implementation_defined part 1 (U2): a port that never answers hangs the command that asks it: `GENKEY` at its first
and at its second draw, `SEEDR`, and a whitened `EXTRACT` and `DIGITS`. That the hang is the fault `portSilent` is the
model's choice (log entry 5). -/
def Obligations.SilentPortHangsTheCommandThatAsks : Prop :=
  ∀ s : State,
    (s.PHASE = .empty → s.PV = false → s.QV = false → 16 ≤ s.KREQ.toNat →
      s.KREQ.toNat + 1 ≤ s.PARAMS.KMAX →
      (answerTo .highQuality ((s.KREQ.toNat / 2 + 1 + 7) / 8) s = .silent →
        exec .genkey s = .fault .portSilent) ∧
      ∀ (drawP : List Byte) (p : Nat),
        answerTo .highQuality ((s.KREQ.toNat / 2 + 1 + 7) / 8) s = .bytes drawP →
        findPrime s.PARAMS (forcedSeed (s.KREQ.toNat / 2 + 1) drawP) = some p →
        answerTo .highQuality ((s.KREQ.toNat / 2 + s.KREQ.toNat % 2 + 7) / 8)
          (afterAsking .highQuality ((s.KREQ.toNat / 2 + 1 + 7) / 8) s) = .silent →
        exec .genkey s = .fault .portSilent) ∧
    (s.PHASE = .keyed → 2 ≤ s.N → answerTo .highQuality ((s.KBL.toNat + 7) / 8) s = .silent →
      exec .seedr s = .fault .portSilent) ∧
    (∀ payload : List Byte, s.PHASE = .ready → s.WHITEN = true → 1 ≤ s.N → 1 ≤ bitsPerSquaring s →
      1 ≤ fromBytes payload → fromBytes payload ≤ s.PARAMS.BMAX →
      answerTo .advisory (fromBytes payload) s = .silent →
      exec (.extract payload) s = .fault .portSilent) ∧
    (∀ (payload : List Byte) (nb : Nat), s.PHASE = .ready → s.WHITEN = true → 1 ≤ s.N →
      1 ≤ bitsPerSquaring s → fromBytes payload < 2 ^ 32 → 2 ≤ s.BASE.toNat →
      s.BASE.toNat ^ fromBytes payload ≤ 256 ^ nb →
      (∀ m < nb, 256 ^ m < s.BASE.toNat ^ fromBytes payload) → 1 ≤ nb → nb ≤ s.PARAMS.BMAX →
      answerTo .advisory nb s = .silent →
      exec (.digits payload) s = .fault .portSilent)

/-- 00_scope R7 leaves a remainder by 0 undefined, and 41_modulus section MKN an extraction of 0 bits per squaring without
an end: in states that no run reaches (`StepKeepsTheRunInvariant`) every command that meets one stops there by name, after
its own checks and before it asks for entropy. That it stops, and when, is the model's choice (log entries 7 and 8). -/
def Obligations.UndefinedArithmeticStopsByName : Prop :=
  ∀ (payload : List Byte) (s : State),
    (s.PHASE = .keyed → s.N = 0 →
      exec .seedr s = .fault .zeroModulus ∧
      (bitlen (fromBytes payload) ≤ s.PARAMS.KMAX → Nat.gcd (fromBytes payload) s.N = 1 →
        exec (.seedx payload) s = .fault .zeroModulus)) ∧
    (s.PHASE = .ready → s.N = 0 → exec .sqr s = .fault .zeroModulus) ∧
    (s.PHASE = .ready → 1 ≤ fromBytes payload → fromBytes payload ≤ s.PARAMS.BMAX →
      (s.N = 0 → exec (.extract payload) s = .fault .zeroModulus) ∧
      (1 ≤ s.N → bitsPerSquaring s = 0 → exec (.extract payload) s = .fault .extractNeverEnds)) ∧
    (s.PHASE = .ready → 1 ≤ fromBytes payload → fromBytes payload < 2 ^ 32 → 2 ≤ s.BASE.toNat →
      s.BASE.toNat ^ fromBytes payload ≤ 256 ^ s.PARAMS.BMAX →
      (s.N = 0 → exec (.digits payload) s = .fault .zeroModulus) ∧
      (1 ≤ s.N → bitsPerSquaring s = 0 → exec (.digits payload) s = .fault .extractNeverEnds))
end

