-- ==== Sys2Proof/Laws/PerInstr.lean ====
section
/-!
SUPPORT. Per command: its packet has its own opcode and fields that decode back to it (30_encoding R92, R96).
-/

namespace Sys2Proof.Laws.Encoding

theorem regOfSelect_select (r : Reg) : regOfSelect r.select = some r := by cases r <;> rfl

/-- Where a command is well-formed, its packet carries its opcode, a select and a payload that fits, and these fields
decode to it. -/
def Statement (i : Instr) : Prop :=
  i.wellFormed = true → ∃ (a : Byte) (payload : List Byte),
    encode i = packetBytes i.opcode a payload ∧ payload.length ≤ 65535 ∧
    decodePacket i.opcode a payload = .ok i

theorem ld (reg : Reg) (payload : List Byte) : Statement (.ld reg payload) := by
  intro h
  simp only [Instr.wellFormed, Bool.and_eq_true, payloadFits, decide_eq_true_iff] at h
  refine ⟨reg.select, payload, rfl, h.2, ?_⟩
  show decodeL reg.select payload = _
  simp only [decodeL, regOfSelect_select, h.1, if_true]

theorem rd (reg : Reg) : Statement (.rd reg) := by
  refine fun _ => ⟨reg.select, [], rfl, by simp, ?_⟩
  show decodeR reg.select [] = _
  simp [decodeR, regOfSelect_select]

theorem clr : Statement .clr := fun _ => ⟨0, [], rfl, by simp, rfl⟩

theorem genkey : Statement .genkey := fun _ => ⟨0, [], rfl, by simp, rfl⟩

theorem mkn : Statement .mkn := fun _ => ⟨0, [], rfl, by simp, rfl⟩

theorem seedr : Statement .seedr := fun _ => ⟨0, [], rfl, by simp, rfl⟩

theorem seedx (payload : List Byte) : Statement (.seedx payload) := fun h =>
  ⟨0, payload, rfl, by simpa [Instr.wellFormed, payloadFits] using h, rfl⟩

theorem sqr : Statement .sqr := fun _ => ⟨0, [], rfl, by simp, rfl⟩

theorem extract (payload : List Byte) : Statement (.extract payload) := fun h =>
  ⟨0, payload, rfl, by simpa [Instr.wellFormed, payloadFits] using h, rfl⟩

theorem digits (payload : List Byte) : Statement (.digits payload) := fun h =>
  ⟨0, payload, rfl, by simpa [Instr.wellFormed, payloadFits] using h, rfl⟩

theorem modexp : Statement .modexp := fun _ => ⟨0, [], rfl, by simp, rfl⟩

end Sys2Proof.Laws.Encoding
end

