-- ==== Sys2Proof/Laws/Decode.lean ====
section
/-!
SUPPORT. What the decoder makes of a packet and of a stream (30_encoding R90, R97 to R99).
-/

namespace Sys2Proof

/-- A whole packet at the front of a stream is taken off it, and only its fields decide what it is. -/
theorem decode_packet (op a : Byte) (payload rest : List Byte) (h : payload.length ≤ 65535) :
    (∀ i, decodePacket op a payload = .ok i →
      decode (packetBytes op a payload ++ rest) = .command i rest) ∧
    (∀ why, decodePacket op a payload = .error why →
      decode (packetBytes op a payload ++ rest) = .illegal op why rest) := by
  have hlen : 256 * (payload.length / 256 % 256) + payload.length % 256 = payload.length := by omega
  constructor <;> intro x hx <;> simp [packetBytes, toBytesN, decode, hlen, hx]

/-- A stream that decodes begins with a packet. -/
theorem decode_front {bs : List Byte} (h : decode bs ≠ .incomplete) :
    ∃ (op a : Byte) (payload rest : List Byte),
      payload.length ≤ 65535 ∧ bs = packetBytes op a payload ++ rest := by
  match bs with
  | [] => exact absurd rfl h
  | [_] => exact absurd rfl h
  | [_, _] => exact absurd rfl h
  | [_, _, _] => exact absurd rfl h
  | op :: a :: hi :: lo :: stream =>
    have hhi := hi.isLt
    have hlo := lo.isLt
    by_cases hl : stream.length < 256 * hi.toNat + lo.toNat
    · exact absurd (by simp [decode, hl]) h
    · have hlen : (stream.take (256 * hi.toNat + lo.toNat)).length = 256 * hi.toNat + lo.toNat := by
        rw [List.length_take]; omega
      refine ⟨op, a, stream.take (256 * hi.toNat + lo.toNat), stream.drop (256 * hi.toNat + lo.toNat),
        by omega, ?_⟩
      have e1 : BitVec.ofNat 8 ((256 * hi.toNat + lo.toNat) / 256) = hi := by
        apply BitVec.eq_of_toNat_eq; rw [BitVec.toNat_ofNat]; omega
      have e2 : BitVec.ofNat 8 (256 * hi.toNat + lo.toNat) = lo := by
        apply BitVec.eq_of_toNat_eq; rw [BitVec.toNat_ofNat]; omega
      simp [packetBytes, toBytesN, hlen, e1, e2]

/-- Bytes behind a whole packet are left where they are. -/
theorem decode_append {bs : List Byte} (later : List Byte) (h : decode bs ≠ .incomplete) :
    decode (bs ++ later) = match decode bs with
      | .incomplete => .incomplete
      | .illegal op why rest => .illegal op why (rest ++ later)
      | .command i rest => .command i (rest ++ later) := by
  obtain ⟨op, a, payload, rest, hlen, rfl⟩ := decode_front h
  obtain ⟨h1, h2⟩ := decode_packet op a payload rest hlen
  obtain ⟨h3, h4⟩ := decode_packet op a payload (rest ++ later) hlen
  rw [List.append_assoc]
  cases hd : decodePacket op a payload with
  | error why => rw [h2 why hd, h4 why hd]
  | ok i => rw [h1 i hd, h3 i hd]

theorem ite_some_cases {c : Prop} [Decidable c] {x r : Reg} {other : Option Reg}
    (h : (if c then some x else other) = some r) : (c ∧ x = r) ∨ other = some r := by
  by_cases hc : c
  · rw [if_pos hc] at h; cases h; exact .inl ⟨hc, rfl⟩
  · rw [if_neg hc] at h; exact .inr h

theorem select_of_regOfSelect {a : Byte} {r : Reg} (h : regOfSelect a = some r) : r.select = a := by
  unfold regOfSelect at h
  repeat
    obtain ⟨he, rfl⟩ | h := ite_some_cases h
    · exact he.symm
  cases h

theorem decodeN_ok {i j : Instr} {a : Byte} {payload : List Byte} (h : decodeN i a payload = .ok j) :
    a = 0 ∧ payload = [] ∧ j = i := by
  unfold decodeN at h
  split_ifs at h with h1 h2
  cases h
  exact ⟨not_not.1 h1, List.length_eq_zero_iff.1 (not_not.1 h2), rfl⟩

theorem decodeV_ok {f : List Byte → Instr} {j : Instr} {a : Byte} {payload : List Byte}
    (h : decodeV f a payload = .ok j) : a = 0 ∧ j = f payload := by
  unfold decodeV at h
  split_ifs at h with h1
  cases h
  exact ⟨not_not.1 h1, rfl⟩

theorem decodeL_ok {j : Instr} {a : Byte} {payload : List Byte} (h : decodeL a payload = .ok j) :
    ∃ r : Reg, r.loadable = true ∧ r.select = a ∧ j = .ld r payload := by
  unfold decodeL at h
  split at h
  · cases h
  · next r hr =>
    split_ifs at h with hl
    cases h
    exact ⟨r, hl, select_of_regOfSelect hr, rfl⟩

theorem decodeR_ok {j : Instr} {a : Byte} {payload : List Byte} (h : decodeR a payload = .ok j) :
    ∃ r : Reg, payload = [] ∧ r.select = a ∧ j = .rd r := by
  unfold decodeR at h
  split at h
  · cases h
  · next r hr =>
    split_ifs at h with hl
    cases h
    exact ⟨r, List.length_eq_zero_iff.1 (not_not.1 hl), select_of_regOfSelect hr, rfl⟩

end Sys2Proof
end

