-- ==== Sys2Proof/Laws/Numbers.lean ====
section
/-!
SUPPORT. What the primitives of Machine/Numbers.lean compute, once each (00_scope R6 to R8, 45_modexp R216).
-/

namespace Sys2Proof

theorem bitlen_le_iff (v n : Nat) : bitlen v ≤ n ↔ v < 2 ^ n := by
  unfold bitlen
  split
  · next h => simp [h]
  · next h => rw [Nat.add_one_le_iff, Nat.log2_lt h]

theorem lt_bitlen_iff (v n : Nat) : n < bitlen v ↔ 2 ^ n ≤ v := by
  rw [← not_iff_not, Nat.not_lt, Nat.not_le, bitlen_le_iff]

theorem lt_two_pow_bitlen (v : Nat) : v < 2 ^ bitlen v := (bitlen_le_iff v _).1 le_rfl

theorem two_pow_le_of_bitlen {v : Nat} (h : v ≠ 0) : 2 ^ (bitlen v - 1) ≤ v := by
  refine (lt_bitlen_iff v _).1 ?_
  have : 0 < bitlen v := (lt_bitlen_iff v 0).2 (by rw [pow_zero]; exact Nat.pos_of_ne_zero h)
  omega

@[simp] theorem bitlen_zero : bitlen 0 = 0 := rfl

theorem bitlen_mono {v w : Nat} (h : v ≤ w) : bitlen v ≤ bitlen w :=
  (bitlen_le_iff v _).2 (h.trans_lt (lt_two_pow_bitlen w))

theorem bitOf_lt (v i : Nat) : bitOf v i < 2 := Nat.mod_lt _ (by decide)

theorem bitOf_eq_testBit (v i : Nat) : bitOf v i = if v.testBit i then 1 else 0 := by
  unfold bitOf
  rw [Nat.testBit_eq_decide_div_mod_eq]
  have := Nat.mod_two_eq_zero_or_one (v / 2 ^ i)
  rcases this with h | h <;> simp [h]

theorem bytesFor_le_iff (b n : Nat) : bytesFor b ≤ n ↔ b ≤ 8 * n := by unfold bytesFor; omega

/-- `ByteCount(b, c)` is the least `n` with `256^n >= b^c` (00_scope R7). -/
theorem byteCount_le_iff {b : Nat} (c n : Nat) (hb : 1 ≤ b) :
    byteCount b c ≤ n ↔ b ^ c ≤ 256 ^ n := by
  have hpos : 0 < b ^ c := Nat.pow_pos hb
  have e : (256 : Nat) ^ n = 2 ^ (8 * n) := by rw [show (256 : Nat) = 2 ^ 8 by rfl, ← pow_mul]
  rw [byteCount, bytesFor_le_iff, bitlen_le_iff, e]
  omega

/-! ### Byte strings -/

theorem fromBytesFrom_eq (acc : Nat) (bs : List Byte) :
    fromBytesFrom acc bs = acc * 256 ^ bs.length + fromBytes bs := by
  induction bs generalizing acc with
  | nil => simp [fromBytesFrom, fromBytes]
  | cons b bs ih =>
    simp only [fromBytesFrom, fromBytes, List.length_cons]
    rw [ih, ih (256 * 0 + b.toNat)]
    ring

@[simp] theorem fromBytes_nil : fromBytes [] = 0 := rfl

theorem fromBytes_cons (b : Byte) (bs : List Byte) :
    fromBytes (b :: bs) = b.toNat * 256 ^ bs.length + fromBytes bs := by
  conv_lhs => rw [fromBytes, fromBytesFrom, fromBytesFrom_eq]
  simp

theorem fromBytes_append (as bs : List Byte) :
    fromBytes (as ++ bs) = fromBytes as * 256 ^ bs.length + fromBytes bs := by
  induction as with
  | nil => simp
  | cons a as ih => rw [List.cons_append, fromBytes_cons, ih, fromBytes_cons, List.length_append]; ring

theorem fromBytes_lt (bs : List Byte) : fromBytes bs < 256 ^ bs.length := by
  induction bs with
  | nil => simp
  | cons b bs ih =>
    rw [fromBytes_cons, List.length_cons, pow_succ]
    have := b.isLt
    nlinarith

@[simp] theorem toBytesN_length (v n : Nat) : (toBytesN v n).length = n := by
  induction n with
  | zero => rfl
  | succ n ih => simp [toBytesN, ih]

theorem fromBytes_toBytesN (v n : Nat) : fromBytes (toBytesN v n) = v % 256 ^ n := by
  induction n with
  | zero => simp [toBytesN, Nat.mod_one]
  | succ n ih =>
    rw [toBytesN, fromBytes_cons, ih, toBytesN_length, BitVec.toNat_ofNat, show 2 ^ 8 = 256 by rfl,
      pow_succ, Nat.mod_mul, Nat.add_comm, Nat.mul_comm]

theorem fromBytes_toBytes (v : Nat) : fromBytes (toBytes v) = v := by
  rw [toBytes, fromBytes_toBytesN, Nat.mod_eq_of_lt]
  refine (lt_two_pow_bitlen v).trans_le ?_
  rw [show (256 : Nat) = 2 ^ 8 by rfl, ← pow_mul]
  exact Nat.pow_le_pow_right (by decide) ((bytesFor_le_iff _ _).1 le_rfl)

/-- `ToBytes` is the shortest byte string of its number (00_scope R8). -/
theorem toBytes_shortest (bs : List Byte) : (toBytes (fromBytes bs)).length ≤ bs.length := by
  rw [toBytes, toBytesN_length, bytesFor_le_iff, bitlen_le_iff]
  have := fromBytes_lt bs
  rwa [show (256 : Nat) = 2 ^ 8 by rfl, ← pow_mul] at this

/-! ### Modular power -/

theorem modExpBits_eq (b m k e : Nat) (h : e < 2 ^ k) : modExpBits b m k e = b ^ e % m := by
  induction k generalizing e with
  | zero =>
    have : e = 0 := by simpa using h
    simp [modExpBits, this]
  | succ k ih =>
    have h2 : e / 2 < 2 ^ k := by rw [pow_succ] at h; omega
    have hsq : (b ^ (e / 2) % m) ^ 2 % m = b ^ (e / 2 * 2) % m := by
      rw [← Nat.pow_mod, ← pow_mul]
    simp only [modExpBits, ih _ h2, hsq]
    have hb : bitOf e 0 = e % 2 := by simp [bitOf]
    rw [hb]
    split
    · next h1 =>
      conv_rhs => rw [show e = e / 2 * 2 + 1 by omega, pow_succ]
      rw [Nat.mul_mod, Nat.mod_mod, ← Nat.mul_mod]
    · next h1 => rw [show e / 2 * 2 = e by omega]

/-- `MODEXP`'s number is the exact power, reduced once (45_modexp R216). -/
theorem modExp_eq (b e m : Nat) : modExp b e m = b ^ e % m :=
  modExpBits_eq b m _ e (lt_two_pow_bitlen e)

end Sys2Proof
end

