-- ==== Sys2Proof/Laws/Extract.lean ====
section
/-!
SUPPORT. What the extraction loop computes (43_square_extract R178 to R182, R188): its output bytes are cut from the bit
stream of the sequence of states, and it squares exactly `⌈8n/k⌉` times.
-/

namespace Sys2Proof.Machine

/-- The value of the first `t` bits shifted into a byte. -/
def shifted (f : Nat → Nat) : Nat → Nat
  | 0 => 0
  | t + 1 => 2 * shifted f t + f t

theorem shifted_lt (f : Nat → Nat) (hf : ∀ t, f t < 2) (t : Nat) : shifted f t < 2 ^ t := by
  induction t with
  | zero => simp [shifted]
  | succ t ih => have := hf t; simp only [shifted, pow_succ]; omega

theorem shifted_eight (f : Nat → Nat) :
    shifted f 8 = ((List.range 8).map fun t => f t * 2 ^ (7 - t)).sum := by
  simp [shifted, List.range_succ]
  ring

theorem bitIndices_get (order : BitOrder) (k p : Nat) (h : p < k) :
    (bitIndices order k).drop p = takenIndex order k p :: (bitIndices order k).drop (p + 1) := by
  cases order with
  | lowFirst =>
    simp only [bitIndices, takenIndex]
    rw [List.drop_eq_getElem_cons (by simpa using h)]
    simp
  | highFirst =>
    simp only [bitIndices, takenIndex]
    rw [List.drop_eq_getElem_cons (by simpa using h)]
    simp

@[simp] theorem bitIndices_length (order : BitOrder) (k : Nat) : (bitIndices order k).length = k := by
  cases order <;> simp [bitIndices]

section
variable (order : BitOrder) (N x k n : Nat) (pad : List Byte)

/-- The working registers once `b` bits of an extraction have been taken. -/
structure Taken (b : Nat) (w : Packing) : Prop where
  nb : w.NB = b % 8
  acc : w.ACC.toNat = shifted (fun t => streamBit order N x k (8 * (b / 8) + t)) (b % 8)
  rest : w.PAD = pad.drop (b / 8)
  left : w.LEFT = n - b / 8
  out : w.OUT.reverse =
    (List.range (b / 8)).map fun m => streamByte order N x k m ^^^ pad.getD m 0

variable {order N x k n pad}

theorem streamBit_lt (i : Nat) : streamBit order N x k i < 2 := bitOf_lt _ _

theorem headD_drop (m : Nat) : (pad.drop m).headD 0 = pad.getD m 0 := by
  rw [List.headD_eq_head?_getD, List.head?_drop, List.getD_eq_getElem?_getD]

theorem takeBit_taken {b j : Nat} {w : Packing} (h : Taken order N x k n pad b w)
    (hj : bitOf w.X j = streamBit order N x k b) : Taken order N x k n pad (b + 1) (takeBit j w) := by
  have hmod : 8 * (b / 8) + b % 8 = b := Nat.div_add_mod b 8
  have hacc : 2 * w.ACC.toNat + bitOf w.X j
      = shifted (fun t => streamBit order N x k (8 * (b / 8) + t)) (b % 8 + 1) := by
    simp only [shifted, hmod]; rw [h.acc, hj]
  have hlt := shifted_lt (fun t => streamBit order N x k (8 * (b / 8) + t))
    (fun t => streamBit_lt _) (b % 8 + 1)
  unfold takeBit
  rw [hacc]
  have hnb := h.nb
  by_cases h7 : b % 8 = 7
  · have hd : (b + 1) / 8 = b / 8 + 1 := by omega
    have hm : (b + 1) % 8 = 0 := by omega
    rw [if_pos (by omega)]
    refine ⟨hm.symm, by rw [hm]; rfl, ?_, ?_, ?_⟩
    · simp only [h.rest, hd, List.tail_drop]
    · simp only [h.left, hd]; omega
    · simp only [List.reverse_cons, h.out, hd, h.rest, headD_drop, h7]
      rw [shifted_eight, List.range_succ (n := b / 8), List.map_append, List.map_singleton]
      rfl
  · have hd : (b + 1) / 8 = b / 8 := by omega
    have hm : (b + 1) % 8 = b % 8 + 1 := by omega
    rw [if_neg (by omega)]
    refine ⟨by simp only [hnb, hm], ?_, by rw [hd]; exact h.rest, by rw [hd]; exact h.left,
      by rw [hd]; exact h.out⟩
    simp only [hd, hm, BitVec.toNat_ofNat]
    refine Nat.mod_eq_of_lt (hlt.trans_le ?_)
    exact Nat.pow_le_pow_right (by decide) (by omega)

@[simp] theorem takeBit_X (j : Nat) (w : Packing) : (takeBit j w).X = w.X := by
  unfold takeBit; split <;> rfl

theorem takeBits_X (is : List Nat) (w : Packing) : (takeBits is w).X = w.X := by
  induction is generalizing w with
  | nil => rfl
  | cons i is ih =>
    unfold takeBits
    split
    · rfl
    · rw [ih, takeBit_X]

theorem left_eq_zero_iff {b : Nat} {w : Packing} (h : Taken order N x k n pad b w) :
    w.LEFT = 0 ↔ 8 * n ≤ b := by
  rw [h.left]; omega

/-- One squaring's bits: all of them, or as many as the output still needs (R182). -/
theorem takeBits_taken {q p : Nat} {w : Packing} (hk : 1 ≤ k) (hp : p ≤ k)
    (hX : w.X = squarings N x (q + 1)) (hle : q * k + p ≤ 8 * n)
    (h : Taken order N x k n pad (q * k + p) w) :
    Taken order N x k n pad (min (8 * n) ((q + 1) * k)) (takeBits ((bitIndices order k).drop p) w) := by
  obtain ⟨d, hd⟩ : ∃ d, d = k - p := ⟨_, rfl⟩
  have hq : (q + 1) * k = q * k + k := Nat.succ_mul q k
  induction d generalizing p w with
  | zero =>
    have : p = k := by omega
    subst this
    rw [List.drop_eq_nil_of_le (by simp), takeBits, hq, Nat.min_eq_right hle]
    exact h
  | succ d ih =>
    rw [bitIndices_get order k p (by omega), takeBits]
    split
    · next h0 =>
      have := (left_eq_zero_iff h).1 h0
      rw [Nat.min_eq_left (by omega), show 8 * n = q * k + p by omega]
      exact h
    · next h0 =>
      have hb : q * k + p < 8 * n := by
        rcases Nat.lt_or_ge (q * k + p) (8 * n) with h1 | h1
        · exact h1
        · exact absurd ((left_eq_zero_iff h).2 h1) h0
      have hbit : bitOf w.X (takenIndex order k p) = streamBit order N x k (q * k + p) := by
        have h1 : (q * k + p) / k = q := by
          rw [Nat.mul_comm, Nat.mul_add_div hk, Nat.div_eq_of_lt (by omega), Nat.add_zero]
        have h2 : (q * k + p) % k = p := by
          rw [Nat.mul_comm, Nat.mul_add_mod, Nat.mod_eq_of_lt (by omega)]
        rw [streamBit, h1, h2, hX]
      exact ih (by omega) (by rw [takeBit_X, hX]) (by omega) (takeBit_taken h hbit) (by omega)

theorem squareAndTake_taken {q fuel : Nat} {w : Packing} (hk : 1 ≤ k)
    (hX : w.X = squarings N x q) (hq : q = 0 ∨ (q - 1) * k < 8 * n) (hf : 8 * n ≤ q + fuel)
    (h : Taken order N x k n pad (min (8 * n) (q * k)) w) :
    Taken order N x k n pad (8 * n) (squareAndTake N (bitIndices order k) fuel w) ∧
      (squareAndTake N (bitIndices order k) fuel w).X = squarings N x ((8 * n + k - 1) / k) := by
  have done (hge : 8 * n ≤ q * k) : q = (8 * n + k - 1) / k := by
    symm
    rw [Nat.div_eq_iff (by omega)]
    rcases hq with rfl | hq
    · omega
    · rcases Nat.eq_zero_or_pos q with rfl | hpos
      · omega
      · obtain ⟨r, rfl⟩ : ∃ r, q = r + 1 := ⟨q - 1, by omega⟩
        have h1 : (r + 1) * k = r * k + k := Nat.succ_mul r k
        simp only [Nat.add_sub_cancel] at hq
        omega
  induction fuel generalizing q w with
  | zero =>
    have hge : 8 * n ≤ q * k := le_trans (by omega) (Nat.le_mul_of_pos_right q hk)
    rw [Nat.min_eq_left hge] at h
    exact ⟨h, by rw [← done hge]; exact hX⟩
  | succ fuel ih =>
    unfold squareAndTake
    split
    · next h0 =>
      have hge : 8 * n ≤ q * k := by have := (left_eq_zero_iff h).1 h0; omega
      rw [Nat.min_eq_left hge] at h
      exact ⟨h, by rw [← done hge]; exact hX⟩
    · next h0 =>
      have hlt : q * k < 8 * n := by
        rcases Nat.lt_or_ge (q * k) (8 * n) with h1 | h1
        · exact h1
        · exact absurd ((left_eq_zero_iff h).2 (by omega)) h0
      rw [Nat.min_eq_right hlt.le] at h
      have hX' : squareMod N w.X = squarings N x (q + 1) := by rw [hX]; rfl
      have h' : Taken order N x k n pad (q * k + 0) { w with X := squareMod N w.X } :=
        ⟨h.nb, h.acc, h.rest, h.left, h.out⟩
      have h2 := takeBits_taken hk (Nat.zero_le k) hX' hlt.le h'
      rw [List.drop_zero] at h2
      have hstep : (q + 1) * k = q * k + k := Nat.succ_mul q k
      refine ih (by rw [takeBits_X]; exact hX') (Or.inr (by simpa using hlt)) (by omega) h2
        (fun hge => ?_)
      symm
      rw [Nat.div_eq_iff (by omega)]
      omega

end

/-- The extraction loop, said once: its bytes are the stream's, combined with the pad, and its last state is that after
`⌈8n/k⌉` squarings (43_square_extract R178, R183, R188). -/
theorem packLoop_spec (s : State) (n : Nat) (pad : List Byte) (hk : 1 ≤ bitsPerSquaring s)
    (hpad : pad.length = n) :
    (packLoop s n pad).OUT.reverse = xorBytes (streamBytes s n) pad ∧
      (packLoop s n pad).X = stateAfterBytes s n := by
  have h0 : Taken s.PARAMS.ACC_BIT_ORDER s.N s.X (bitsPerSquaring s) n pad
      (min (8 * n) (0 * bitsPerSquaring s)) (Packing.start s.X n pad) := by
    simp only [Nat.zero_mul, Nat.min_zero]
    exact ⟨rfl, rfl, rfl, rfl, rfl⟩
  obtain ⟨h1, h2⟩ := squareAndTake_taken (fuel := 8 * n) hk rfl (Or.inl rfl) (by omega) h0
  refine ⟨?_, h2⟩
  have := h1.out
  rw [Nat.mul_div_cancel_left n (by decide)] at this
  rw [packLoop, this, xorBytes, streamBytes]
  refine List.ext_getElem (by simp [hpad]) fun i hi _ => ?_
  have hi' : i < pad.length := by simpa [hpad] using hi
  simp [hi']

end Sys2Proof.Machine
end

