-- ==== Sys2Proof/Laws/State.lean ====
section
/-!
SUPPORT. One lemma per field for every named update of the state, so that no later proof unfolds a record update.
-/

namespace Sys2Proof.Machine

/-! ### `respond` -/

section
variable (op : Byte) (st : Status) (payload : List Byte) (s : State)

@[simp] theorem respond_N : (respond op st payload s).N = s.N := rfl
@[simp] theorem respond_X : (respond op st payload s).X = s.X := rfl
@[simp] theorem respond_P : (respond op st payload s).P = s.P := rfl
@[simp] theorem respond_Q : (respond op st payload s).Q = s.Q := rfl
@[simp] theorem respond_B : (respond op st payload s).B = s.B := rfl
@[simp] theorem respond_E : (respond op st payload s).E = s.E := rfl
@[simp] theorem respond_M : (respond op st payload s).M = s.M := rfl
@[simp] theorem respond_R : (respond op st payload s).R = s.R := rfl
@[simp] theorem respond_PV : (respond op st payload s).PV = s.PV := rfl
@[simp] theorem respond_QV : (respond op st payload s).QV = s.QV := rfl
@[simp] theorem respond_KREQ : (respond op st payload s).KREQ = s.KREQ := rfl
@[simp] theorem respond_KBL : (respond op st payload s).KBL = s.KBL := rfl
@[simp] theorem respond_MODE : (respond op st payload s).MODE = s.MODE := rfl
@[simp] theorem respond_WHITEN : (respond op st payload s).WHITEN = s.WHITEN := rfl
@[simp] theorem respond_BASE : (respond op st payload s).BASE = s.BASE := rfl
@[simp] theorem respond_PHASE : (respond op st payload s).PHASE = s.PHASE := rfl
@[simp] theorem respond_ERR : (respond op st payload s).ERR = errAfter st s.ERR := rfl
@[simp] theorem respond_CMD : (respond op st payload s).CMD = s.CMD := rfl
@[simp] theorem respond_RSP : (respond op st payload s).RSP = s.RSP ++ responsePacket op st payload := rfl
@[simp] theorem respond_PARAMS : (respond op st payload s).PARAMS = s.PARAMS := rfl
@[simp] theorem respond_ENTHQ : (respond op st payload s).ENTHQ = s.ENTHQ := rfl
@[simp] theorem respond_ENTADV : (respond op st payload s).ENTADV = s.ENTADV := rfl
@[simp] theorem respond_ASKED : (respond op st payload s).ASKED = s.ASKED := rfl
@[simp] theorem respond_RESETLINE : (respond op st payload s).RESETLINE = s.RESETLINE := rfl

end

/-! ### `eraseSession` -/

section
variable (s : State)

@[simp] theorem eraseSession_N : (eraseSession s).N = 0 := rfl
@[simp] theorem eraseSession_X : (eraseSession s).X = 0 := rfl
@[simp] theorem eraseSession_P : (eraseSession s).P = 0 := rfl
@[simp] theorem eraseSession_Q : (eraseSession s).Q = 0 := rfl
@[simp] theorem eraseSession_B : (eraseSession s).B = s.B := rfl
@[simp] theorem eraseSession_E : (eraseSession s).E = s.E := rfl
@[simp] theorem eraseSession_M : (eraseSession s).M = s.M := rfl
@[simp] theorem eraseSession_R : (eraseSession s).R = s.R := rfl
@[simp] theorem eraseSession_PV : (eraseSession s).PV = false := rfl
@[simp] theorem eraseSession_QV : (eraseSession s).QV = false := rfl
@[simp] theorem eraseSession_KREQ : (eraseSession s).KREQ = s.KREQ := rfl
@[simp] theorem eraseSession_KBL : (eraseSession s).KBL = 0 := rfl
@[simp] theorem eraseSession_MODE : (eraseSession s).MODE = s.MODE := rfl
@[simp] theorem eraseSession_WHITEN : (eraseSession s).WHITEN = s.WHITEN := rfl
@[simp] theorem eraseSession_BASE : (eraseSession s).BASE = s.BASE := rfl
@[simp] theorem eraseSession_PHASE : (eraseSession s).PHASE = .failed := rfl
@[simp] theorem eraseSession_ERR : (eraseSession s).ERR = s.ERR := rfl
@[simp] theorem eraseSession_CMD : (eraseSession s).CMD = s.CMD := rfl
@[simp] theorem eraseSession_RSP : (eraseSession s).RSP = s.RSP := rfl
@[simp] theorem eraseSession_PARAMS : (eraseSession s).PARAMS = s.PARAMS := rfl
@[simp] theorem eraseSession_ENTHQ : (eraseSession s).ENTHQ = s.ENTHQ := rfl
@[simp] theorem eraseSession_ENTADV : (eraseSession s).ENTADV = s.ENTADV := rfl
@[simp] theorem eraseSession_ASKED : (eraseSession s).ASKED = s.ASKED := rfl
@[simp] theorem eraseSession_RESETLINE : (eraseSession s).RESETLINE = s.RESETLINE := rfl

end

/-! ### `clearRegisters` -/

section
variable (s : State)

@[simp] theorem clearRegisters_N : (clearRegisters s).N = 0 := rfl
@[simp] theorem clearRegisters_X : (clearRegisters s).X = 0 := rfl
@[simp] theorem clearRegisters_P : (clearRegisters s).P = 0 := rfl
@[simp] theorem clearRegisters_Q : (clearRegisters s).Q = 0 := rfl
@[simp] theorem clearRegisters_B : (clearRegisters s).B = 0 := rfl
@[simp] theorem clearRegisters_E : (clearRegisters s).E = 0 := rfl
@[simp] theorem clearRegisters_M : (clearRegisters s).M = 0 := rfl
@[simp] theorem clearRegisters_R : (clearRegisters s).R = 0 := rfl
@[simp] theorem clearRegisters_PV : (clearRegisters s).PV = false := rfl
@[simp] theorem clearRegisters_QV : (clearRegisters s).QV = false := rfl
@[simp] theorem clearRegisters_KREQ : (clearRegisters s).KREQ = 1024 := rfl
@[simp] theorem clearRegisters_KBL : (clearRegisters s).KBL = 0 := rfl
@[simp] theorem clearRegisters_MODE : (clearRegisters s).MODE = .accelerated := rfl
@[simp] theorem clearRegisters_WHITEN : (clearRegisters s).WHITEN = false := rfl
@[simp] theorem clearRegisters_BASE : (clearRegisters s).BASE = 0 := rfl
@[simp] theorem clearRegisters_PHASE : (clearRegisters s).PHASE = .empty := rfl
@[simp] theorem clearRegisters_ERR : (clearRegisters s).ERR = .ok := rfl
@[simp] theorem clearRegisters_CMD : (clearRegisters s).CMD = s.CMD := rfl
@[simp] theorem clearRegisters_RSP : (clearRegisters s).RSP = s.RSP := rfl
@[simp] theorem clearRegisters_PARAMS : (clearRegisters s).PARAMS = s.PARAMS := rfl
@[simp] theorem clearRegisters_ENTHQ : (clearRegisters s).ENTHQ = s.ENTHQ := rfl
@[simp] theorem clearRegisters_ENTADV : (clearRegisters s).ENTADV = s.ENTADV := rfl
@[simp] theorem clearRegisters_ASKED : (clearRegisters s).ASKED = s.ASKED := rfl
@[simp] theorem clearRegisters_RESETLINE : (clearRegisters s).RESETLINE = s.RESETLINE := rfl

end

/-! ### `square` -/

section
variable (s : State)

@[simp] theorem square_N : (square s).N = s.N := rfl
@[simp] theorem square_X : (square s).X = squareMod s.N s.X := rfl
@[simp] theorem square_P : (square s).P = s.P := rfl
@[simp] theorem square_Q : (square s).Q = s.Q := rfl
@[simp] theorem square_B : (square s).B = s.B := rfl
@[simp] theorem square_E : (square s).E = s.E := rfl
@[simp] theorem square_M : (square s).M = s.M := rfl
@[simp] theorem square_R : (square s).R = s.R := rfl
@[simp] theorem square_PV : (square s).PV = s.PV := rfl
@[simp] theorem square_QV : (square s).QV = s.QV := rfl
@[simp] theorem square_KREQ : (square s).KREQ = s.KREQ := rfl
@[simp] theorem square_KBL : (square s).KBL = s.KBL := rfl
@[simp] theorem square_MODE : (square s).MODE = s.MODE := rfl
@[simp] theorem square_WHITEN : (square s).WHITEN = s.WHITEN := rfl
@[simp] theorem square_BASE : (square s).BASE = s.BASE := rfl
@[simp] theorem square_PHASE : (square s).PHASE = s.PHASE := rfl
@[simp] theorem square_ERR : (square s).ERR = s.ERR := rfl
@[simp] theorem square_CMD : (square s).CMD = s.CMD := rfl
@[simp] theorem square_RSP : (square s).RSP = s.RSP := rfl
@[simp] theorem square_PARAMS : (square s).PARAMS = s.PARAMS := rfl
@[simp] theorem square_ENTHQ : (square s).ENTHQ = s.ENTHQ := rfl
@[simp] theorem square_ENTADV : (square s).ENTADV = s.ENTADV := rfl
@[simp] theorem square_ASKED : (square s).ASKED = s.ASKED := rfl
@[simp] theorem square_RESETLINE : (square s).RESETLINE = s.RESETLINE := rfl

end

/-! ### `writeSeed` -/

section
variable (x : Nat) (s : State)

@[simp] theorem writeSeed_N : (writeSeed x s).N = s.N := rfl
@[simp] theorem writeSeed_X : (writeSeed x s).X = squareMod s.N x := rfl
@[simp] theorem writeSeed_P : (writeSeed x s).P = s.P := rfl
@[simp] theorem writeSeed_Q : (writeSeed x s).Q = s.Q := rfl
@[simp] theorem writeSeed_B : (writeSeed x s).B = s.B := rfl
@[simp] theorem writeSeed_E : (writeSeed x s).E = s.E := rfl
@[simp] theorem writeSeed_M : (writeSeed x s).M = s.M := rfl
@[simp] theorem writeSeed_R : (writeSeed x s).R = s.R := rfl
@[simp] theorem writeSeed_PV : (writeSeed x s).PV = s.PV := rfl
@[simp] theorem writeSeed_QV : (writeSeed x s).QV = s.QV := rfl
@[simp] theorem writeSeed_KREQ : (writeSeed x s).KREQ = s.KREQ := rfl
@[simp] theorem writeSeed_KBL : (writeSeed x s).KBL = s.KBL := rfl
@[simp] theorem writeSeed_MODE : (writeSeed x s).MODE = s.MODE := rfl
@[simp] theorem writeSeed_WHITEN : (writeSeed x s).WHITEN = s.WHITEN := rfl
@[simp] theorem writeSeed_BASE : (writeSeed x s).BASE = s.BASE := rfl
@[simp] theorem writeSeed_PHASE : (writeSeed x s).PHASE = .ready := rfl
@[simp] theorem writeSeed_ERR : (writeSeed x s).ERR = s.ERR := rfl
@[simp] theorem writeSeed_CMD : (writeSeed x s).CMD = s.CMD := rfl
@[simp] theorem writeSeed_RSP : (writeSeed x s).RSP = s.RSP := rfl
@[simp] theorem writeSeed_PARAMS : (writeSeed x s).PARAMS = s.PARAMS := rfl
@[simp] theorem writeSeed_ENTHQ : (writeSeed x s).ENTHQ = s.ENTHQ := rfl
@[simp] theorem writeSeed_ENTADV : (writeSeed x s).ENTADV = s.ENTADV := rfl
@[simp] theorem writeSeed_ASKED : (writeSeed x s).ASKED = s.ASKED := rfl
@[simp] theorem writeSeed_RESETLINE : (writeSeed x s).RESETLINE = s.RESETLINE := rfl

end

/-! ### `writePower` -/

section
variable (s : State)

@[simp] theorem writePower_N : (writePower s).N = s.N := rfl
@[simp] theorem writePower_X : (writePower s).X = s.X := rfl
@[simp] theorem writePower_P : (writePower s).P = s.P := rfl
@[simp] theorem writePower_Q : (writePower s).Q = s.Q := rfl
@[simp] theorem writePower_B : (writePower s).B = s.B := rfl
@[simp] theorem writePower_E : (writePower s).E = s.E := rfl
@[simp] theorem writePower_M : (writePower s).M = s.M := rfl
@[simp] theorem writePower_R : (writePower s).R = modExp s.B s.E s.M := rfl
@[simp] theorem writePower_PV : (writePower s).PV = s.PV := rfl
@[simp] theorem writePower_QV : (writePower s).QV = s.QV := rfl
@[simp] theorem writePower_KREQ : (writePower s).KREQ = s.KREQ := rfl
@[simp] theorem writePower_KBL : (writePower s).KBL = s.KBL := rfl
@[simp] theorem writePower_MODE : (writePower s).MODE = s.MODE := rfl
@[simp] theorem writePower_WHITEN : (writePower s).WHITEN = s.WHITEN := rfl
@[simp] theorem writePower_BASE : (writePower s).BASE = s.BASE := rfl
@[simp] theorem writePower_PHASE : (writePower s).PHASE = s.PHASE := rfl
@[simp] theorem writePower_ERR : (writePower s).ERR = s.ERR := rfl
@[simp] theorem writePower_CMD : (writePower s).CMD = s.CMD := rfl
@[simp] theorem writePower_RSP : (writePower s).RSP = s.RSP := rfl
@[simp] theorem writePower_PARAMS : (writePower s).PARAMS = s.PARAMS := rfl
@[simp] theorem writePower_ENTHQ : (writePower s).ENTHQ = s.ENTHQ := rfl
@[simp] theorem writePower_ENTADV : (writePower s).ENTADV = s.ENTADV := rfl
@[simp] theorem writePower_ASKED : (writePower s).ASKED = s.ASKED := rfl
@[simp] theorem writePower_RESETLINE : (writePower s).RESETLINE = s.RESETLINE := rfl

end

/-! ### `withStream` -/

section
variable (s : State) (rest : List Byte)

@[simp] theorem State.withStream_N : (s.withStream rest).N = s.N := rfl
@[simp] theorem State.withStream_X : (s.withStream rest).X = s.X := rfl
@[simp] theorem State.withStream_P : (s.withStream rest).P = s.P := rfl
@[simp] theorem State.withStream_Q : (s.withStream rest).Q = s.Q := rfl
@[simp] theorem State.withStream_B : (s.withStream rest).B = s.B := rfl
@[simp] theorem State.withStream_E : (s.withStream rest).E = s.E := rfl
@[simp] theorem State.withStream_M : (s.withStream rest).M = s.M := rfl
@[simp] theorem State.withStream_R : (s.withStream rest).R = s.R := rfl
@[simp] theorem State.withStream_PV : (s.withStream rest).PV = s.PV := rfl
@[simp] theorem State.withStream_QV : (s.withStream rest).QV = s.QV := rfl
@[simp] theorem State.withStream_KREQ : (s.withStream rest).KREQ = s.KREQ := rfl
@[simp] theorem State.withStream_KBL : (s.withStream rest).KBL = s.KBL := rfl
@[simp] theorem State.withStream_MODE : (s.withStream rest).MODE = s.MODE := rfl
@[simp] theorem State.withStream_WHITEN : (s.withStream rest).WHITEN = s.WHITEN := rfl
@[simp] theorem State.withStream_BASE : (s.withStream rest).BASE = s.BASE := rfl
@[simp] theorem State.withStream_PHASE : (s.withStream rest).PHASE = s.PHASE := rfl
@[simp] theorem State.withStream_ERR : (s.withStream rest).ERR = s.ERR := rfl
@[simp] theorem State.withStream_CMD : (s.withStream rest).CMD = rest := rfl
@[simp] theorem State.withStream_RSP : (s.withStream rest).RSP = s.RSP := rfl
@[simp] theorem State.withStream_PARAMS : (s.withStream rest).PARAMS = s.PARAMS := rfl
@[simp] theorem State.withStream_ENTHQ : (s.withStream rest).ENTHQ = s.ENTHQ := rfl
@[simp] theorem State.withStream_ENTADV : (s.withStream rest).ENTADV = s.ENTADV := rfl
@[simp] theorem State.withStream_ASKED : (s.withStream rest).ASKED = s.ASKED := rfl
@[simp] theorem State.withStream_RESETLINE : (s.withStream rest).RESETLINE = s.RESETLINE := rfl

end

/-! ### `hostSend` -/

section
variable (bs : List Byte) (s : State)

@[simp] theorem hostSend_N : (hostSend bs s).N = s.N := rfl
@[simp] theorem hostSend_X : (hostSend bs s).X = s.X := rfl
@[simp] theorem hostSend_P : (hostSend bs s).P = s.P := rfl
@[simp] theorem hostSend_Q : (hostSend bs s).Q = s.Q := rfl
@[simp] theorem hostSend_B : (hostSend bs s).B = s.B := rfl
@[simp] theorem hostSend_E : (hostSend bs s).E = s.E := rfl
@[simp] theorem hostSend_M : (hostSend bs s).M = s.M := rfl
@[simp] theorem hostSend_R : (hostSend bs s).R = s.R := rfl
@[simp] theorem hostSend_PV : (hostSend bs s).PV = s.PV := rfl
@[simp] theorem hostSend_QV : (hostSend bs s).QV = s.QV := rfl
@[simp] theorem hostSend_KREQ : (hostSend bs s).KREQ = s.KREQ := rfl
@[simp] theorem hostSend_KBL : (hostSend bs s).KBL = s.KBL := rfl
@[simp] theorem hostSend_MODE : (hostSend bs s).MODE = s.MODE := rfl
@[simp] theorem hostSend_WHITEN : (hostSend bs s).WHITEN = s.WHITEN := rfl
@[simp] theorem hostSend_BASE : (hostSend bs s).BASE = s.BASE := rfl
@[simp] theorem hostSend_PHASE : (hostSend bs s).PHASE = s.PHASE := rfl
@[simp] theorem hostSend_ERR : (hostSend bs s).ERR = s.ERR := rfl
@[simp] theorem hostSend_CMD : (hostSend bs s).CMD = s.CMD ++ bs := rfl
@[simp] theorem hostSend_RSP : (hostSend bs s).RSP = s.RSP := rfl
@[simp] theorem hostSend_PARAMS : (hostSend bs s).PARAMS = s.PARAMS := rfl
@[simp] theorem hostSend_ENTHQ : (hostSend bs s).ENTHQ = s.ENTHQ := rfl
@[simp] theorem hostSend_ENTADV : (hostSend bs s).ENTADV = s.ENTADV := rfl
@[simp] theorem hostSend_ASKED : (hostSend bs s).ASKED = s.ASKED := rfl
@[simp] theorem hostSend_RESETLINE : (hostSend bs s).RESETLINE = s.RESETLINE := rfl

end

/-! ### `takeReset` -/

section
variable (s : State)

@[simp] theorem takeReset_N : (takeReset s).N = 0 := rfl
@[simp] theorem takeReset_X : (takeReset s).X = 0 := rfl
@[simp] theorem takeReset_P : (takeReset s).P = 0 := rfl
@[simp] theorem takeReset_Q : (takeReset s).Q = 0 := rfl
@[simp] theorem takeReset_B : (takeReset s).B = 0 := rfl
@[simp] theorem takeReset_E : (takeReset s).E = 0 := rfl
@[simp] theorem takeReset_M : (takeReset s).M = 0 := rfl
@[simp] theorem takeReset_R : (takeReset s).R = 0 := rfl
@[simp] theorem takeReset_PV : (takeReset s).PV = false := rfl
@[simp] theorem takeReset_QV : (takeReset s).QV = false := rfl
@[simp] theorem takeReset_KREQ : (takeReset s).KREQ = 1024 := rfl
@[simp] theorem takeReset_KBL : (takeReset s).KBL = 0 := rfl
@[simp] theorem takeReset_MODE : (takeReset s).MODE = .accelerated := rfl
@[simp] theorem takeReset_WHITEN : (takeReset s).WHITEN = false := rfl
@[simp] theorem takeReset_BASE : (takeReset s).BASE = 0 := rfl
@[simp] theorem takeReset_PHASE : (takeReset s).PHASE = .empty := rfl
@[simp] theorem takeReset_ERR : (takeReset s).ERR = .ok := rfl
@[simp] theorem takeReset_CMD : (takeReset s).CMD = [] := rfl
@[simp] theorem takeReset_RSP : (takeReset s).RSP = [] := rfl
@[simp] theorem takeReset_PARAMS : (takeReset s).PARAMS = s.PARAMS := rfl
@[simp] theorem takeReset_ENTHQ : (takeReset s).ENTHQ = s.ENTHQ := rfl
@[simp] theorem takeReset_ENTADV : (takeReset s).ENTADV = s.ENTADV := rfl
@[simp] theorem takeReset_ASKED : (takeReset s).ASKED = s.ASKED := rfl
@[simp] theorem takeReset_RESETLINE : (takeReset s).RESETLINE = .low := rfl

end

/-! ### `afterAsking`: only the answers and the record of requests move -/

section
variable (port : Port) (n : Nat) (s : State)

@[simp] theorem afterAsking_N : (afterAsking port n s).N = s.N := by cases port <;> rfl
@[simp] theorem afterAsking_X : (afterAsking port n s).X = s.X := by cases port <;> rfl
@[simp] theorem afterAsking_P : (afterAsking port n s).P = s.P := by cases port <;> rfl
@[simp] theorem afterAsking_Q : (afterAsking port n s).Q = s.Q := by cases port <;> rfl
@[simp] theorem afterAsking_B : (afterAsking port n s).B = s.B := by cases port <;> rfl
@[simp] theorem afterAsking_E : (afterAsking port n s).E = s.E := by cases port <;> rfl
@[simp] theorem afterAsking_M : (afterAsking port n s).M = s.M := by cases port <;> rfl
@[simp] theorem afterAsking_R : (afterAsking port n s).R = s.R := by cases port <;> rfl
@[simp] theorem afterAsking_PV : (afterAsking port n s).PV = s.PV := by cases port <;> rfl
@[simp] theorem afterAsking_QV : (afterAsking port n s).QV = s.QV := by cases port <;> rfl
@[simp] theorem afterAsking_KREQ : (afterAsking port n s).KREQ = s.KREQ := by cases port <;> rfl
@[simp] theorem afterAsking_KBL : (afterAsking port n s).KBL = s.KBL := by cases port <;> rfl
@[simp] theorem afterAsking_MODE : (afterAsking port n s).MODE = s.MODE := by cases port <;> rfl
@[simp] theorem afterAsking_WHITEN : (afterAsking port n s).WHITEN = s.WHITEN := by cases port <;> rfl
@[simp] theorem afterAsking_BASE : (afterAsking port n s).BASE = s.BASE := by cases port <;> rfl
@[simp] theorem afterAsking_PHASE : (afterAsking port n s).PHASE = s.PHASE := by cases port <;> rfl
@[simp] theorem afterAsking_ERR : (afterAsking port n s).ERR = s.ERR := by cases port <;> rfl
@[simp] theorem afterAsking_CMD : (afterAsking port n s).CMD = s.CMD := by cases port <;> rfl
@[simp] theorem afterAsking_RSP : (afterAsking port n s).RSP = s.RSP := by cases port <;> rfl
@[simp] theorem afterAsking_PARAMS : (afterAsking port n s).PARAMS = s.PARAMS := by cases port <;> rfl
@[simp] theorem afterAsking_ASKED :
    (afterAsking port n s).ASKED = s.ASKED ++ [⟨port, n⟩] := by cases port <;> rfl
@[simp] theorem afterAsking_RESETLINE : (afterAsking port n s).RESETLINE = s.RESETLINE := by cases port <;> rfl
@[simp] theorem afterAsking_highQuality_ENTHQ :
    (afterAsking .highQuality n s).ENTHQ = s.ENTHQ.tail := rfl
@[simp] theorem afterAsking_highQuality_ENTADV :
    (afterAsking .highQuality n s).ENTADV = s.ENTADV := rfl
@[simp] theorem afterAsking_advisory_ENTHQ :
    (afterAsking .advisory n s).ENTHQ = s.ENTHQ := rfl
@[simp] theorem afterAsking_advisory_ENTADV :
    (afterAsking .advisory n s).ENTADV = s.ENTADV.tail := rfl

end

/-! ### `afterRequests` -/

@[simp] theorem afterRequests_nil (s : State) : afterRequests [] s = s := rfl
@[simp] theorem afterRequests_cons (r : Request) (rs : List Request) (s : State) :
    afterRequests (r :: rs) s = afterRequests rs (afterAsking r.port r.count s) := rfl

/-- Requests put themselves on record and move the tapes, nothing else. -/
theorem afterRequests_eq (rs : List Request) (s : State) :
    afterRequests rs s = { s with
      ENTHQ := (afterRequests rs s).ENTHQ, ENTADV := (afterRequests rs s).ENTADV
      ASKED := s.ASKED ++ rs } := by
  induction rs generalizing s with
  | nil => simp
  | cons r rs ih =>
    rcases r with ⟨_ | _, n⟩ <;> rw [afterRequests_cons, ih] <;> simp [afterAsking]

@[simp] theorem afterRequests_ASKED (rs : List Request) (s : State) :
    (afterRequests rs s).ASKED = s.ASKED ++ rs := by rw [afterRequests_eq]
@[simp] theorem afterRequests_PARAMS (rs : List Request) (s : State) :
    (afterRequests rs s).PARAMS = s.PARAMS := by rw [afterRequests_eq]

/-! ### `loadReg`: what no load touches -/

section
variable (r : Reg) (v : Nat) (s : State)

@[simp] theorem loadReg_N : (loadReg r v s).N = s.N := by cases r <;> rfl
@[simp] theorem loadReg_X : (loadReg r v s).X = s.X := by cases r <;> rfl
@[simp] theorem loadReg_R : (loadReg r v s).R = s.R := by cases r <;> rfl
@[simp] theorem loadReg_KBL : (loadReg r v s).KBL = s.KBL := by cases r <;> rfl
@[simp] theorem loadReg_PHASE : (loadReg r v s).PHASE = s.PHASE := by cases r <;> rfl
@[simp] theorem loadReg_ERR : (loadReg r v s).ERR = s.ERR := by cases r <;> rfl
@[simp] theorem loadReg_CMD : (loadReg r v s).CMD = s.CMD := by cases r <;> rfl
@[simp] theorem loadReg_RSP : (loadReg r v s).RSP = s.RSP := by cases r <;> rfl
@[simp] theorem loadReg_PARAMS : (loadReg r v s).PARAMS = s.PARAMS := by cases r <;> rfl
@[simp] theorem loadReg_ENTHQ : (loadReg r v s).ENTHQ = s.ENTHQ := by cases r <;> rfl
@[simp] theorem loadReg_ENTADV : (loadReg r v s).ENTADV = s.ENTADV := by cases r <;> rfl
@[simp] theorem loadReg_ASKED : (loadReg r v s).ASKED = s.ASKED := by cases r <;> rfl
@[simp] theorem loadReg_RESETLINE : (loadReg r v s).RESETLINE = s.RESETLINE := by cases r <;> rfl

end

/-! ### `writeGenerated`, `writeSupplied`: what forming a modulus leaves -/

section
variable (p q : Nat) (s : State)

@[simp] theorem writeGenerated_N : (writeGenerated p q s).N = p * q := rfl
@[simp] theorem writeGenerated_X : (writeGenerated p q s).X = s.X := rfl
@[simp] theorem writeGenerated_P : (writeGenerated p q s).P = if s.PARAMS.RETAIN_PQ then p else 0 := rfl
@[simp] theorem writeGenerated_Q : (writeGenerated p q s).Q = if s.PARAMS.RETAIN_PQ then q else 0 := rfl
@[simp] theorem writeGenerated_B : (writeGenerated p q s).B = s.B := rfl
@[simp] theorem writeGenerated_E : (writeGenerated p q s).E = s.E := rfl
@[simp] theorem writeGenerated_M : (writeGenerated p q s).M = s.M := rfl
@[simp] theorem writeGenerated_R : (writeGenerated p q s).R = s.R := rfl
@[simp] theorem writeGenerated_PV : (writeGenerated p q s).PV = s.PARAMS.RETAIN_PQ := rfl
@[simp] theorem writeGenerated_QV : (writeGenerated p q s).QV = s.PARAMS.RETAIN_PQ := rfl
@[simp] theorem writeGenerated_KREQ : (writeGenerated p q s).KREQ = s.KREQ := rfl
@[simp] theorem writeGenerated_KBL : (writeGenerated p q s).KBL = BitVec.ofNat 32 (bitlen (p * q)) := rfl
@[simp] theorem writeGenerated_MODE : (writeGenerated p q s).MODE = s.MODE := rfl
@[simp] theorem writeGenerated_WHITEN : (writeGenerated p q s).WHITEN = s.WHITEN := rfl
@[simp] theorem writeGenerated_BASE : (writeGenerated p q s).BASE = s.BASE := rfl
@[simp] theorem writeGenerated_PHASE : (writeGenerated p q s).PHASE = .keyed := rfl
@[simp] theorem writeGenerated_ERR : (writeGenerated p q s).ERR = s.ERR := rfl
@[simp] theorem writeGenerated_CMD : (writeGenerated p q s).CMD = s.CMD := rfl
@[simp] theorem writeGenerated_RSP : (writeGenerated p q s).RSP = s.RSP := rfl
@[simp] theorem writeGenerated_PARAMS : (writeGenerated p q s).PARAMS = s.PARAMS := rfl
@[simp] theorem writeGenerated_ENTHQ : (writeGenerated p q s).ENTHQ = s.ENTHQ := rfl
@[simp] theorem writeGenerated_ENTADV : (writeGenerated p q s).ENTADV = s.ENTADV := rfl
@[simp] theorem writeGenerated_ASKED : (writeGenerated p q s).ASKED = s.ASKED := rfl
@[simp] theorem writeGenerated_RESETLINE : (writeGenerated p q s).RESETLINE = s.RESETLINE := rfl
@[simp] theorem writeSupplied_N : (writeSupplied s).N = s.P * s.Q := rfl
@[simp] theorem writeSupplied_X : (writeSupplied s).X = s.X := rfl
@[simp] theorem writeSupplied_P : (writeSupplied s).P = if s.PARAMS.RETAIN_PQ then s.P else 0 := rfl
@[simp] theorem writeSupplied_Q : (writeSupplied s).Q = if s.PARAMS.RETAIN_PQ then s.Q else 0 := rfl
@[simp] theorem writeSupplied_B : (writeSupplied s).B = s.B := rfl
@[simp] theorem writeSupplied_E : (writeSupplied s).E = s.E := rfl
@[simp] theorem writeSupplied_M : (writeSupplied s).M = s.M := rfl
@[simp] theorem writeSupplied_R : (writeSupplied s).R = s.R := rfl
@[simp] theorem writeSupplied_PV : (writeSupplied s).PV = (s.PV && s.PARAMS.RETAIN_PQ) := rfl
@[simp] theorem writeSupplied_QV : (writeSupplied s).QV = (s.QV && s.PARAMS.RETAIN_PQ) := rfl
@[simp] theorem writeSupplied_KREQ : (writeSupplied s).KREQ = s.KREQ := rfl
@[simp] theorem writeSupplied_KBL : (writeSupplied s).KBL = BitVec.ofNat 32 (bitlen (s.P * s.Q)) := rfl
@[simp] theorem writeSupplied_MODE : (writeSupplied s).MODE = s.MODE := rfl
@[simp] theorem writeSupplied_WHITEN : (writeSupplied s).WHITEN = s.WHITEN := rfl
@[simp] theorem writeSupplied_BASE : (writeSupplied s).BASE = s.BASE := rfl
@[simp] theorem writeSupplied_PHASE : (writeSupplied s).PHASE = .keyed := rfl
@[simp] theorem writeSupplied_ERR : (writeSupplied s).ERR = s.ERR := rfl
@[simp] theorem writeSupplied_CMD : (writeSupplied s).CMD = s.CMD := rfl
@[simp] theorem writeSupplied_RSP : (writeSupplied s).RSP = s.RSP := rfl
@[simp] theorem writeSupplied_PARAMS : (writeSupplied s).PARAMS = s.PARAMS := rfl
@[simp] theorem writeSupplied_ENTHQ : (writeSupplied s).ENTHQ = s.ENTHQ := rfl
@[simp] theorem writeSupplied_ENTADV : (writeSupplied s).ENTADV = s.ENTADV := rfl
@[simp] theorem writeSupplied_ASKED : (writeSupplied s).ASKED = s.ASKED := rfl
@[simp] theorem writeSupplied_RESETLINE : (writeSupplied s).RESETLINE = s.RESETLINE := rfl

end

end Sys2Proof.Machine
end

