-- ==== Sys2Proof/Laws/Ops.lean ====
section
/-!
SUPPORT. What the shared operations can do, once each: the inversion of a command, of its parts and of an entropy
request. Later proofs cite these and unfold no operation.
-/

namespace Sys2Proof.Machine

/-! ### Legality and error entry -/

/-- `legalIn` is the table of 10_state R31. -/
theorem legalIn_iff (i : Instr) (ph : Phase) : legalIn i ph = true ↔ ph ∈ legalPhases i := by
  cases i with
  | ld r payload => cases r <;> cases ph <;> simp [legalIn, loadLegalIn, legalPhases]
  | _ => cases ph <;> simp [legalIn, legalPhases]

theorem responsePacket_error (op : Byte) (e : Status) : responsePacket op e [] = errorResponse op e := rfl

theorem errAfter_error {e : Status} (h : e ≠ .ok) (old : Status) : errAfter e old = e := if_neg h

/-- A fatal error (60_exceptions R247). -/
theorem raiseError_fatal {i : Instr} {e : Status} (h : isFatal i e = true) (he : e ≠ .ok) (s : State) :
    raiseError i e s = { erased e s with RSP := s.RSP ++ errorResponse i.opcode e } := by
  simp only [raiseError, h, if_true, respond, responsePacket_error, errAfter_error he]
  rfl

/-- An error that is not fatal (60_exceptions R246). -/
theorem raiseError_plain {i : Instr} {e : Status} (h : isFatal i e = false) (he : e ≠ .ok) (s : State) :
    raiseError i e s = { s with ERR := e, RSP := s.RSP ++ errorResponse i.opcode e } := by
  simp [raiseError, h, respond, responsePacket_error, errAfter_error he]

/-! ### Entropy -/

theorem settleAnswer_length {n : Nat} {a : Answer} {bs : List Byte} (h : settleAnswer n a = .bytes bs) :
    bs.length = n := by
  cases a with
  | bytes cs =>
    simp only [settleAnswer] at h
    split at h
    · next hn => cases h; exact hn
    · cases h
  | fail => cases h
  | silent => cases h

theorem freeAnswer_length {port : Port} {k n : Nat} {bs : List Byte}
    (h : freeAnswer port k n = .bytes bs) : bs.length = n := by
  unfold freeAnswer at h
  split at h
  · cases h; simp
  · cases h
  · cases h

/-- An answer that is `Ok` has exactly the bytes asked for (00_scope R10). -/
theorem answerTo_length {port : Port} {n : Nat} {s : State} {bs : List Byte}
    (h : answerTo port n s = .bytes bs) : bs.length = n := by
  unfold answerTo at h
  split at h
  · exact settleAnswer_length h
  · exact freeAnswer_length h

/-! ### Parts and bodies -/

theorem andThen_got {α β : Type} {part : Attempt α} {k : α → State → Attempt β} {b : β} {t : State}
    (h : part.andThen k = .got b t) : ∃ a u, part = .got a u ∧ k a u = .got b t := by
  cases part with
  | got a u => exact ⟨a, u, rfl, h⟩
  | raised e u => cases h
  | stopped f => cases h

theorem andThen_raised {α β : Type} {part : Attempt α} {k : α → State → Attempt β} {e : Status}
    {t : State} (h : part.andThen k = .raised e t) :
    part = .raised e t ∨ ∃ a u, part = .got a u ∧ k a u = .raised e t := by
  cases part with
  | got a u => exact .inr ⟨a, u, rfl, h⟩
  | raised e' u => cases h; exact .inl rfl
  | stopped f => cases h

theorem andThen_stopped {α β : Type} {part : Attempt α} {k : α → State → Attempt β} {f : Fault}
    (h : part.andThen k = .stopped f) :
    part = .stopped f ∨ ∃ a u, part = .got a u ∧ k a u = .stopped f := by
  cases part with
  | got a u => exact .inr ⟨a, u, rfl, h⟩
  | raised e' u => cases h
  | stopped f' => cases h; exact .inl rfl

/-- Everything a command can do when it completes: the phase is wrong, its body is done, or its body raises. -/
theorem runCommand_cases {i : Instr} {body : State → Attempt Reply} {s t : State}
    (h : runCommand i body s = .next t) :
    (legalIn i s.PHASE = false ∧ t = raiseError i .wrongPhase s) ∨
    (legalIn i s.PHASE = true ∧ ∃ reply u, body s = .got reply u ∧ t = respond i.opcode reply.1 reply.2 u) ∨
    (legalIn i s.PHASE = true ∧ ∃ e u, body s = .raised e u ∧ t = raiseError i e u) := by
  unfold runCommand at h
  split at h
  · next hl =>
    cases hb : body s with
    | got reply u => rw [hb] at h; cases h; exact .inr (.inl ⟨hl, reply, u, rfl, rfl⟩)
    | raised e u => rw [hb] at h; cases h; exact .inr (.inr ⟨hl, e, u, rfl, rfl⟩)
    | stopped f => rw [hb] at h; cases h
  · next hl => cases h; exact .inl ⟨by simpa using hl, rfl⟩

theorem runCommand_got {i : Instr} {body : State → Attempt Reply} {s u : State} {reply : Reply}
    (hl : legalIn i s.PHASE = true) (hb : body s = .got reply u) :
    runCommand i body s = .next (respond i.opcode reply.1 reply.2 u) := by
  simp [runCommand, hl, hb, finish]

theorem runCommand_raised {i : Instr} {body : State → Attempt Reply} {s u : State} {e : Status}
    (hl : legalIn i s.PHASE = true) (hb : body s = .raised e u) :
    runCommand i body s = .next (raiseError i e u) := by
  simp [runCommand, hl, hb, finish]

theorem runCommand_stopped {i : Instr} {body : State → Attempt Reply} {s : State} {f : Fault}
    (hl : legalIn i s.PHASE = true) (hb : body s = .stopped f) : runCommand i body s = .fault f := by
  simp [runCommand, hl, hb, finish]

theorem runCommand_illegal {i : Instr} {body : State → Attempt Reply} {s : State}
    (hl : legalIn i s.PHASE = false) :
    runCommand i body s = .next (raiseError i .wrongPhase s) := by
  simp [runCommand, hl]

/-- A command stops only where its body does. -/
theorem runCommand_fault {i : Instr} {body : State → Attempt Reply} {s : State} {f : Fault}
    (h : runCommand i body s = .fault f) : legalIn i s.PHASE = true ∧ body s = .stopped f := by
  unfold runCommand at h
  split at h
  · next hl =>
    cases hb : body s with
    | got reply u => rw [hb] at h; cases h
    | raised e u => rw [hb] at h; cases h
    | stopped f' => rw [hb] at h; cases h; exact ⟨hl, rfl⟩
  · cases h

/-- No command is refused. -/
theorem runCommand_not_refused (i : Instr) (body : State → Attempt Reply) (s : State) (r : Refusal) :
    runCommand i body s ≠ .refused r := by
  unfold runCommand
  split
  · cases body s <;> exact nofun
  · exact nofun

/-! ### The prime generator -/

theorem genPrime_got {bits p : Nat} {s t : State} (h : genPrime bits s = .got p t) :
    t = afterAsking .highQuality (bytesFor bits) s ∧
      ∃ bs, answerTo .highQuality (bytesFor bits) s = .bytes bs ∧
        findPrime s.PARAMS (forceLength bits (fromBytes bs)) = some p := by
  unfold genPrime at h
  split at h
  · cases h
  · cases h
  · next bs hbs =>
    split at h
    · cases h
    · next c hc => cases h; exact ⟨rfl, bs, hbs, hc⟩

theorem genPrime_raised {bits : Nat} {e : Status} {s t : State} (h : genPrime bits s = .raised e t) :
    t = afterAsking .highQuality (bytesFor bits) s ∧
      (e = .entropySourceError ∨ e = .capacityExceeded) := by
  unfold genPrime at h
  split at h
  · cases h
  · cases h; exact ⟨rfl, .inl rfl⟩
  · split at h
    · cases h; exact ⟨rfl, .inr rfl⟩
    · cases h

theorem genPrime_stopped {bits : Nat} {f : Fault} {s : State} (h : genPrime bits s = .stopped f) :
    f = .portSilent ∧ answerTo .highQuality (bytesFor bits) s = .silent := by
  unfold genPrime at h
  split at h
  · next ha => cases h; exact ⟨rfl, ha⟩
  · cases h
  · split at h <;> cases h

/-! ### Extraction -/

/-- The pad has the bytes asked for, and fetching it moves nothing but the port and `WHITEN`. -/
theorem fetchPad_got {n : Nat} {pad : List Byte × Bool} {s t : State} (h : fetchPad n s = .got pad t) :
    pad.1.length = n ∧
      ((s.WHITEN = false ∧ pad = (List.replicate n 0, false) ∧ t = s) ∨
       (s.WHITEN = true ∧ answerTo .advisory n s = .bytes pad.1 ∧ pad.2 = false ∧
          t = afterAsking .advisory n s) ∨
       (s.WHITEN = true ∧ answerTo .advisory n s = .fail ∧ pad = (List.replicate n 0, true) ∧
          t = { afterAsking .advisory n s with WHITEN := false })) := by
  unfold fetchPad at h
  split at h
  · next hw =>
    split at h
    · cases h
    · next bs hbs => cases h; exact ⟨answerTo_length hbs, .inr (.inl ⟨hw, hbs, rfl, rfl⟩)⟩
    · next hf => cases h; exact ⟨by simp, .inr (.inr ⟨hw, hf, rfl, rfl⟩)⟩
  · next hw => cases h; exact ⟨by simp, .inl ⟨by simpa using hw, rfl, rfl⟩⟩

theorem fetchPad_not_raised (n : Nat) (s t : State) (e : Status) : fetchPad n s ≠ .raised e t := by
  unfold fetchPad
  split
  · split <;> exact nofun
  · exact nofun

theorem fetchPad_stopped {n : Nat} {f : Fault} {s : State} (h : fetchPad n s = .stopped f) :
    f = .portSilent ∧ s.WHITEN = true ∧ answerTo .advisory n s = .silent := by
  unfold fetchPad at h
  split at h
  · next hw =>
    split at h
    · next ha => cases h; exact ⟨rfl, hw, ha⟩
    · cases h
    · cases h
  · cases h

theorem xorBytes_zero (bs : List Byte) : xorBytes bs (List.replicate bs.length 0) = bs := by
  induction bs with
  | nil => rfl
  | cons b bs ih =>
    simp only [xorBytes, List.length_cons, List.replicate_succ, List.zipWith_cons_cons] at ih ⊢
    rw [ih]; simp

@[simp] theorem streamBytes_length (s : State) (n : Nat) : (streamBytes s n).length = n := by
  simp [streamBytes]

/-- Where the part of the state that an extraction reads is the same, so is the stream. -/
theorem stream_congr {s t : State} (hN : t.N = s.N) (hX : t.X = s.X) (hK : t.KBL = s.KBL)
    (hM : t.MODE = s.MODE) (hP : t.PARAMS = s.PARAMS) (n : Nat) :
    streamBytes t n = streamBytes s n ∧ stateAfterBytes t n = stateAfterBytes s n := by
  have : bitsPerSquaring t = bitsPerSquaring s := by simp [bitsPerSquaring, hM, hK]
  simp [streamBytes, stateAfterBytes, this, hN, hX, hP]

/-- Everything an extraction can do when it completes (43_square_extract R178, R183, R184, R188, R189). -/
theorem extractBytes_got {n : Nat} {out : List Byte × Bool} {s t : State}
    (h : extractBytes n s = .got out t) :
    (n = 0 ∧ out = ([], false) ∧ t = s) ∨
    (n ≠ 0 ∧ s.N ≠ 0 ∧ 1 ≤ bitsPerSquaring s ∧ ∃ pad u, fetchPad n s = .got pad u ∧
      out = (xorBytes (streamBytes s n) pad.1, pad.2) ∧ t = { u with X := stateAfterBytes s n }) := by
  unfold extractBytes at h
  split at h
  · next hn => cases h; exact .inl ⟨hn, rfl, rfl⟩
  · next hn =>
    split at h
    · cases h
    · next hN =>
      split at h
      · cases h
      · next hk =>
        obtain ⟨pad, u, hpad, h⟩ := andThen_got h
        cases h
        obtain ⟨hlen, hcase⟩ := fetchPad_got hpad
        have same : u.N = s.N ∧ u.X = s.X ∧ u.KBL = s.KBL ∧ u.MODE = s.MODE ∧ u.PARAMS = s.PARAMS := by
          rcases hcase with ⟨-, -, rfl⟩ | ⟨-, -, -, rfl⟩ | ⟨-, -, -, rfl⟩ <;> simp
        obtain ⟨h1, h2, h3, h4, h5⟩ := same
        obtain ⟨hb, hx⟩ := stream_congr h1 h2 h3 h4 h5 n
        have hku : 1 ≤ bitsPerSquaring u := by
          have : bitsPerSquaring u = bitsPerSquaring s := by simp [bitsPerSquaring, h3, h4]
          omega
        obtain ⟨ho, hX⟩ := packLoop_spec u n pad.1 hku hlen
        refine .inr ⟨hn, hN, by omega, pad, u, hpad, ?_, ?_⟩
        · simp only [ho, hb]
        · simp only [hX, hx]

theorem extractBytes_not_raised (n : Nat) (s t : State) (e : Status) :
    extractBytes n s ≠ .raised e t := by
  unfold extractBytes
  split
  · exact nofun
  · split
    · exact nofun
    · split
      · exact nofun
      · intro h
        rcases andThen_raised h with h | ⟨pad, u, -, h⟩
        · exact fetchPad_not_raised n s t e h
        · cases h

theorem extractBytes_stopped {n : Nat} {f : Fault} {s : State} (h : extractBytes n s = .stopped f) :
    n ≠ 0 ∧ ((f = .zeroModulus ∧ s.N = 0) ∨ (f = .extractNeverEnds ∧ bitsPerSquaring s = 0) ∨
      (f = .portSilent ∧ s.WHITEN = true ∧ answerTo .advisory n s = .silent)) := by
  unfold extractBytes at h
  split at h
  · cases h
  · next hn =>
    refine ⟨hn, ?_⟩
    split at h
    · next hN => cases h; exact .inl ⟨rfl, hN⟩
    · split at h
      · next hk => cases h; exact .inr (.inl ⟨rfl, hk⟩)
      · rcases andThen_stopped h with h | ⟨pad, u, -, h⟩
        · exact .inr (.inr (fetchPad_stopped h))
        · cases h

/-- An extraction that has what it needs completes, with the stream's bytes and the pad. -/
theorem extractBytes_done {n : Nat} {s u : State} {pad : List Byte × Bool} (hn : n ≠ 0)
    (hN : s.N ≠ 0) (hk : 1 ≤ bitsPerSquaring s) (hp : fetchPad n s = .got pad u) :
    extractBytes n s = .got (xorBytes (streamBytes s n) pad.1, pad.2)
      { u with X := stateAfterBytes s n } := by
  have hk' : bitsPerSquaring s ≠ 0 := by omega
  have h : extractBytes n s = .got ((packLoop u n pad.1).OUT.reverse, pad.2)
      { u with X := (packLoop u n pad.1).X } := by
    simp [extractBytes, hn, hN, hk', hp, Attempt.andThen]
  rcases extractBytes_got h with ⟨h0, -⟩ | ⟨-, -, -, pad', u', hp', ho, ht⟩
  · exact absurd h0 hn
  · rw [hp] at hp'
    cases hp'
    rw [h, ho, ht]

end Sys2Proof.Machine
end

