-- ==== Sys2Proof/Laws/Primes.lean ====
section
/-!
SUPPORT. What the prime unit and the prime search compute (41_modulus R144, R148).
-/

namespace Sys2Proof

/-! ### Exact primality and the least candidate -/

theorem noDivisorFrom_iff (n fuel d : Nat) (hd : 1 ≤ d) (hf : n < d + fuel) :
    noDivisorFrom n fuel d = true ↔ ∀ k, d ≤ k → k * k ≤ n → ¬ k ∣ n := by
  induction fuel generalizing d with
  | zero =>
    simp only [noDivisorFrom, true_iff]
    intro k hk hkk
    have : k ≤ k * k := Nat.le_mul_of_pos_left k (by omega)
    omega
  | succ fuel ih =>
    unfold noDivisorFrom
    split
    · next h =>
      simp only [true_iff]
      intro k hk hkk
      exact absurd (Nat.mul_le_mul hk hk) (by omega)
    · next h =>
      split
      · next hdiv =>
        simp only [Bool.false_eq_true, false_iff, not_forall]
        exact ⟨d, le_rfl, by omega, not_not.2 (Nat.dvd_of_mod_eq_zero hdiv)⟩
      · next hdiv =>
        rw [ih (d + 1) (by omega) (by omega)]
        constructor
        · intro hall k hk hkk
          rcases Nat.eq_or_lt_of_le hk with rfl | hlt
          · exact fun hc => hdiv (Nat.mod_eq_zero_of_dvd hc)
          · exact hall k hlt hkk
        · exact fun hall k hk hkk => hall k (by omega) hkk

/-- The reference primality test is exact (41_modulus R148). -/
theorem isPrime_iff (n : Nat) : isPrime n = true ↔ n.Prime := by
  rw [isPrime, Bool.and_eq_true, decide_eq_true_iff, noDivisorFrom_iff n n 2 (by decide) (by omega),
    Nat.prime_def_le_sqrt]
  simp only [Nat.le_sqrt]

theorem le_leastFrom (test : Nat → Bool) (fuel c : Nat) : c ≤ leastFrom test fuel c := by
  induction fuel generalizing c with
  | zero => exact le_rfl
  | succ fuel ih =>
    unfold leastFrom
    split
    · exact le_rfl
    · exact (Nat.le_succ c).trans (ih (c + 1))

theorem leastFrom_spec (test : Nat → Bool) (fuel c : Nat)
    (h : ∃ d, c ≤ d ∧ d < c + fuel ∧ test d = true) :
    test (leastFrom test fuel c) = true ∧
      ∀ d, c ≤ d → d < leastFrom test fuel c → test d = false := by
  induction fuel generalizing c with
  | zero => obtain ⟨d, h1, h2, -⟩ := h; omega
  | succ fuel ih =>
    unfold leastFrom
    split
    · next hc => exact ⟨hc, fun d h1 h2 => absurd h1 (by omega)⟩
    · next hc =>
      obtain ⟨d, h1, h2, h3⟩ := h
      have hne : d ≠ c := by rintro rfl; exact hc h3
      obtain ⟨hr, hleast⟩ := ih (c + 1) ⟨d, by omega, by omega, h3⟩
      refine ⟨hr, fun e h4 h5 => ?_⟩
      rcases Nat.eq_or_lt_of_le h4 with rfl | h6
      · simpa using hc
      · exact hleast e h6 h5

/-- The least number above `n` that passes a test every prime passes. -/
theorem leastAbove_spec (test : Nat → Bool) (n : Nat) (h : ∀ p, p.Prime → test p = true) :
    n < leastAbove test n ∧ test (leastAbove test n) = true ∧
      ∀ d, n < d → d < leastAbove test n → test d = false := by
  have hex : ∃ d, n + 1 ≤ d ∧ d < n + 1 + (n + 2) ∧ test d = true := by
    rcases Nat.eq_zero_or_pos n with rfl | hn
    · exact ⟨2, by decide, by decide, h 2 Nat.prime_two⟩
    · obtain ⟨p, hp, h1, h2⟩ := Nat.exists_prime_lt_and_le_two_mul n hn.ne'
      exact ⟨p, by omega, by omega, h p hp⟩
  obtain ⟨h1, h2⟩ := leastFrom_spec test _ _ hex
  exact ⟨le_leastFrom test _ _, h1, fun d h3 h4 => h2 d h3 h4⟩

theorem lt_leastAbove (test : Nat → Bool) (n : Nat) : n < leastAbove test n :=
  le_leastFrom test _ _

/-! ### The bases of the Miller-Rabin rounds -/

@[simp] theorem basesFor_length (source : BaseSource) (n reps : Nat) :
    (basesFor source n reps).length = reps := by
  simp [basesFor]

theorem admissibleBase_mem {n : Nat} (b : Nat) (hn : 5 ≤ n) :
    2 ≤ admissibleBase n b ∧ admissibleBase n b + 2 ≤ n := by
  unfold admissibleBase
  split
  · next h => exact h
  · have := Nat.mod_lt b (show n - 3 > 0 by omega)
    omega

theorem basesFor_mem {source : BaseSource} {n reps a : Nat} (hn : 5 ≤ n) (h : a ∈ basesFor source n reps) :
    2 ≤ a ∧ a + 2 ≤ n := by
  obtain ⟨j, -, rfl⟩ := List.mem_map.1 h
  exact admissibleBase_mem _ hn

namespace Machine

/-! ### The search -/

theorem lt_nextPrime (unit : PrimeUnit) (n reps : Nat) : n < nextPrime unit n reps := by
  cases unit with
  | reference => exact lt_leastAbove _ n
  | millerRabin source => exact lt_leastAbove _ n
  | other k => simp only [nextPrime]; omega

/-- What a search that finds a prime has found (41_modulus R144). -/
theorem searchPrime_some {ps : Params} {fuel c p : Nat} (h : searchPrime ps fuel c = some p) :
    c < p ∧ bitlen p ≤ ps.KMAX ∧ acceptsPrime ps p = true := by
  induction fuel generalizing c with
  | zero => cases h
  | succ fuel ih =>
    simp only [searchPrime] at h
    have hlt := lt_nextPrime ps.PRIMES c ps.REPS
    split at h
    · cases h
    · next hfit =>
      split at h
      · next hacc => cases h; exact ⟨hlt, by omega, hacc⟩
      · obtain ⟨h1, h2⟩ := ih h; exact ⟨hlt.trans h1, h2⟩

/-- More rounds than `2^KMAX - c` find nothing more: the candidates rise and one of `2^KMAX` has outgrown `KMAX`. -/
theorem searchPrime_rounds (ps : Params) {fuel c : Nat} (extra : Nat) (h : 2 ^ ps.KMAX ≤ c + fuel) :
    searchPrime ps (fuel + extra) c = searchPrime ps fuel c := by
  induction fuel generalizing c with
  | zero =>
    cases extra with
    | zero => rfl
    | succ extra =>
      have hlt := lt_nextPrime ps.PRIMES c ps.REPS
      have : ps.KMAX < bitlen (nextPrime ps.PRIMES c ps.REPS) :=
        (lt_bitlen_iff _ _).2 (by omega)
      simp [searchPrime, this]
  | succ fuel ih =>
    have hlt := lt_nextPrime ps.PRIMES c ps.REPS
    rw [show fuel + 1 + extra = fuel + extra + 1 by omega]
    simp only [searchPrime]
    rw [ih (by omega)]

/-- The answer of `findPrime` does not depend on its bound on the rounds (log entry 6). -/
theorem findPrime_rounds (ps : Params) (seed extra : Nat) :
    searchPrime ps (2 ^ ps.KMAX + extra) seed = findPrime ps seed :=
  searchPrime_rounds ps extra (by omega)

/-- The seed is the number of exactly `bits` bits that 41_modulus R143 describes. -/
theorem forceLength_eq (bits v : Nat) (hb : 1 ≤ bits) :
    forceLength bits v = (v % 2 ^ bits) ||| 2 ^ (bits - 1) := by
  obtain ⟨b, rfl⟩ : ∃ b, bits = b + 1 := ⟨bits - 1, by omega⟩
  simp only [forceLength, Nat.add_sub_cancel]
  have hlt : v % 2 ^ (b + 1) < 2 ^ (b + 1) := Nat.mod_lt _ (Nat.two_pow_pos _)
  generalize v % 2 ^ (b + 1) = s at hlt ⊢
  rw [bitOf_eq_testBit]
  have hlow : s % 2 ^ b < 2 ^ b := Nat.mod_lt _ (Nat.two_pow_pos _)
  have hdiv : s / 2 ^ b < 2 := by
    rw [Nat.div_lt_iff_lt_mul (Nat.two_pow_pos _)]; rw [pow_succ] at hlt; omega
  have hs := Nat.div_add_mod s (2 ^ b)
  rw [Nat.testBit_eq_decide_div_mod_eq]
  rcases Nat.lt_or_ge (s / 2 ^ b) 1 with h0 | h1
  · have h0' : s / 2 ^ b = 0 := Nat.lt_one_iff.1 h0
    have hsl : s < 2 ^ b := (Nat.div_eq_zero_iff_lt (Nat.two_pow_pos _)).1 h0'
    simp only [h0']
    rw [Nat.or_comm]
    have := Nat.two_pow_add_eq_or_of_lt hsl 1
    simp only [Nat.mul_one] at this
    rw [← this]
    simp [Nat.add_comm]
  · have h1' : s / 2 ^ b = 1 := Nat.le_antisymm (Nat.lt_succ_iff.1 hdiv) h1
    simp only [h1']
    have := Nat.two_pow_add_eq_or_of_lt hlow 1
    rw [h1', this] at hs
    conv_rhs => rw [← hs]
    simp only [Nat.mul_one] at hs ⊢
    rw [Nat.or_assoc, Nat.or_comm (s % 2 ^ b), ← Nat.or_assoc, Nat.or_self]
    simp [hs]

theorem two_pow_le_forceLength (bits v : Nat) (hb : 1 ≤ bits) :
    2 ^ (bits - 1) ≤ forceLength bits v := by
  rw [forceLength_eq bits v hb]; exact Nat.right_le_or

end Machine

end Sys2Proof
end

