-- ==== Sys2Proof/Laws/Radix.lean ====
section
/-!
SUPPORT. What the radix converter computes (44_radix R201 to R203).
-/

namespace Sys2Proof.Machine

theorem rest_eq_mod (bn pv : Nat) : bn - bn / pv * pv = bn % pv := by
  have := Nat.div_add_mod bn pv
  rw [Nat.mul_comm] at this
  omega

@[simp] theorem digitsBelow_length (base count bn : Nat) :
    (digitsBelow base count bn).length = count := by
  induction count generalizing bn with
  | zero => rfl
  | succ count ih => simp [digitsBelow, ih]

theorem valueOfDigits_foldl (base acc : Nat) (ds : List Nat) :
    ds.foldl (fun v d => base * v + d) acc = acc * base ^ ds.length + valueOfDigits base ds := by
  induction ds generalizing acc with
  | nil => simp [valueOfDigits]
  | cons d ds ih =>
    simp only [valueOfDigits, List.foldl_cons, List.length_cons]
    rw [ih, ih (base * 0 + d)]
    ring

theorem valueOfDigits_cons (base d : Nat) (ds : List Nat) :
    valueOfDigits base (d :: ds) = d * base ^ ds.length + valueOfDigits base ds := by
  conv_lhs => rw [valueOfDigits, List.foldl_cons, valueOfDigits_foldl]
  simp

/-- The quotients at places `base^(count-1)` down to `base^0` are the digits of a number below `base^count`. -/
theorem digitsBelow_spec {base count bn : Nat} (hb : 1 ≤ base) (h : bn < base ^ count) :
    (∀ d ∈ digitsBelow base count bn, d < base) ∧
      valueOfDigits base (digitsBelow base count bn) = bn := by
  induction count generalizing bn with
  | zero => simp [digitsBelow, valueOfDigits] at h ⊢; exact h.symm
  | succ count ih =>
    have hpos : 0 < base ^ count := Nat.pow_pos hb
    have hd : bn / base ^ count < base := by
      rw [Nat.div_lt_iff_lt_mul hpos, Nat.mul_comm, ← pow_succ]; exact h
    obtain ⟨h1, h2⟩ := ih (bn := bn - bn / base ^ count * base ^ count)
      (by rw [rest_eq_mod]; exact Nat.mod_lt _ hpos)
    refine ⟨fun d hmem => ?_, ?_⟩
    · rcases List.mem_cons.1 hmem with rfl | hmem
      · exact hd
      · exact h1 d hmem
    · rw [digitsBelow, valueOfDigits_cons, h2, digitsBelow_length]
      have := Nat.div_mul_le_self bn (base ^ count)
      omega

/-- The returned digits are the `count`-digit representation of the raw number modulo `base^count` (44_radix R202). -/
theorem digitsOf_spec {base : Nat} (count : Nat) (raw : List Byte) (hb : 1 ≤ base) :
    (digitsOf base count raw).length = count ∧ (∀ d ∈ digitsOf base count raw, d < base) ∧
      valueOfDigits base (digitsOf base count raw) = fromBytes raw % base ^ count := by
  have h : fromBytes raw - topQuantity base count (fromBytes raw) * base ^ count
      = fromBytes raw % base ^ count := rest_eq_mod _ _
  have hlt : fromBytes raw % base ^ count < base ^ count := Nat.mod_lt _ (Nat.pow_pos hb)
  have := digitsBelow_spec (count := count) hb hlt
  simp only [digitsOf, h]
  exact ⟨digitsBelow_length _ _ _, this⟩

/-- The shortcut of `needsTooMany` agrees with 44_radix R200's test for every base `DIGITS` accepts. -/
theorem needsTooMany_iff {bmax base count : Nat} (hb : 2 ≤ base) :
    needsTooMany bmax base count = true ↔ bmax < byteCount base count := by
  rw [needsTooMany, Bool.or_eq_true, decide_eq_true_iff, decide_eq_true_iff]
  refine ⟨fun h => ?_, Or.inr⟩
  rcases h with h | h
  · rw [← not_le, byteCount_le_iff count bmax (by omega), not_le]
    calc 256 ^ bmax = 2 ^ (8 * bmax) := by rw [show (256 : Nat) = 2 ^ 8 by rfl, ← pow_mul]
      _ < 2 ^ count := Nat.pow_lt_pow_right (by decide) h
      _ ≤ base ^ count := Nat.pow_le_pow_left hb count
  · exact h

end Sys2Proof.Machine
end

