-- ==== Sys2Proof/Laws/Seed.lean ====
section
/-!
SUPPORT. The coprimality loop of `SEEDR` (42_seed R160).
-/

namespace Sys2Proof.Machine

theorem le_coprimeFrom (n fuel x : Nat) : x ≤ coprimeFrom n fuel x := by
  induction fuel generalizing x with
  | zero => exact le_rfl
  | succ fuel ih =>
    unfold coprimeFrom
    split
    · exact le_rfl
    · exact (Nat.le_succ x).trans (ih (x + 1))

theorem coprimeFrom_spec (n fuel x : Nat) (h : ∃ y, x ≤ y ∧ y < x + fuel ∧ Nat.gcd y n = 1) :
    IsFirstCoprimeFrom n x (coprimeFrom n fuel x) := by
  refine ⟨le_coprimeFrom n fuel x, ?_⟩
  induction fuel generalizing x with
  | zero => obtain ⟨y, h1, h2, -⟩ := h; omega
  | succ fuel ih =>
    unfold coprimeFrom
    split
    · next hx => exact ⟨hx, fun z h1 h2 => absurd h1 (by omega)⟩
    · next hx =>
      obtain ⟨y, h1, h2, h3⟩ := h
      have hne : y ≠ x := by rintro rfl; exact hx h3
      obtain ⟨hc, hleast⟩ := ih (x + 1) ⟨y, by omega, by omega, h3⟩
      refine ⟨hc, fun z h4 h5 => ?_⟩
      rcases Nat.eq_or_lt_of_le h4 with rfl | h6
      · exact hx
      · exact hleast z h6 h5

/-- One of any `n` consecutive numbers is congruent to 1 modulo `n` (42_seed R160). -/
theorem exists_coprime_near (n x : Nat) (hn : 1 ≤ n) : ∃ y, x ≤ y ∧ y < x + n ∧ Nat.gcd y n = 1 := by
  rcases Nat.eq_or_lt_of_le hn with rfl | h2
  · exact ⟨x, le_rfl, by omega, Nat.gcd_one_right x⟩
  · obtain ⟨k, hk⟩ : ∃ k, x ≤ k * n + 1 ∧ k * n + 1 < x + n := by
      rcases Nat.eq_zero_or_pos x with rfl | hx
      · exact ⟨0, by omega, by omega⟩
      · refine ⟨(x - 1 + n - 1) / n, ?_⟩
        have h1 := Nat.div_add_mod (x - 1 + n - 1) n
        have h2 := Nat.mod_lt (x - 1 + n - 1) hn
        have h3 : n * ((x - 1 + n - 1) / n) = (x - 1 + n - 1) / n * n := Nat.mul_comm _ _
        omega
    exact ⟨k * n + 1, hk.1, hk.2, by simp⟩

/-- The loop ends within `n` increments, at the first coprime number (42_seed R160). -/
theorem nextCoprime_spec (n x : Nat) (hn : 1 ≤ n) : IsFirstCoprimeFrom n x (nextCoprime n x) :=
  coprimeFrom_spec n n x (exists_coprime_near n x hn)

theorem nextCoprime_lt (n x : Nat) (hn : 1 ≤ n) : nextCoprime n x < x + n := by
  obtain ⟨y, h1, h2, h3⟩ := exists_coprime_near n x hn
  by_contra hge
  exact (nextCoprime_spec n x hn).2.2 y h1 (by omega) h3

theorem nextCoprime_unique {n x y z : Nat} (hy : IsFirstCoprimeFrom n x y)
    (hz : IsFirstCoprimeFrom n x z) : y = z := by
  rcases Nat.lt_trichotomy y z with h | h | h
  · exact absurd hy.2.1 (hz.2.2 y hy.1 h)
  · exact h
  · exact absurd hz.2.1 (hy.2.2 z hz.1 h)

end Sys2Proof.Machine
end

