-- ==== Sys2Proof/Laws/Exec.lean ====
section
/-!
SUPPORT. What a command can do, said once: `exec` as one command with its body, and for every body what it is when it is
done, when it raises and when it stops. Claims over all commands are case splits over these.
-/

namespace Sys2Proof.Machine

/-- The body that `exec` runs for a command whose encoding is legal. -/
def bodyOf (i : Instr) (s : State) : Attempt Reply :=
  match i with
  | .ld r payload => loadBody r (fromBytes payload) s
  | .rd r => .got (.ok, readPayload r s) s
  | .clr => .got (.ok, []) (clearRegisters s)
  | .genkey => genkeyBody s
  | .mkn => mknBody s
  | .seedr => seedrBody s
  | .seedx payload => seedxBody (fromBytes payload) s
  | .sqr => sqrBody s
  | .extract payload => extractBody (fromBytes payload) s
  | .digits payload => digitsBody (fromBytes payload) s
  | .modexp => modexpBody s

/-- A load of a register that `LD` never writes. -/
def readOnlyLoad : Instr → Bool
  | .ld r _ => !r.loadable
  | .rd _ | .clr | .genkey | .mkn | .seedr | .seedx _ | .sqr | .extract _ | .digits _ | .modexp => false

theorem readOnlyLoad_of_wellFormed {i : Instr} (h : i.wellFormed = true) : readOnlyLoad i = false := by
  cases i <;> simp_all [Instr.wellFormed, readOnlyLoad]

theorem exec_eq {i : Instr} (s : State) (h : readOnlyLoad i = false) :
    exec i s = runCommand i (bodyOf i) s := by
  cases i with
  | ld r payload =>
    have hl : r.loadable = true := by simpa [readOnlyLoad] using h
    simp only [exec, execLd, hl, if_true]
    rfl
  | rd r => rfl
  | clr => rfl
  | genkey => rfl
  | mkn => rfl
  | seedr => rfl
  | seedx payload => rfl
  | sqr => rfl
  | extract payload => rfl
  | digits payload => rfl
  | modexp => rfl

theorem exec_readOnlyLoad {i : Instr} (s : State) (h : readOnlyLoad i = true) :
    exec i s = .next (raiseError i .illegalCommand s) := by
  cases i with
  | ld r payload =>
    have hl : r.loadable = false := by simpa [readOnlyLoad] using h
    simp [exec, execLd, hl]
  | rd r => cases h
  | clr => cases h
  | genkey => cases h
  | mkn => cases h
  | seedr => cases h
  | seedx payload => cases h
  | sqr => cases h
  | extract payload => cases h
  | digits payload => cases h
  | modexp => cases h

/-- Everything a command can do when it completes. -/
theorem exec_cases {i : Instr} {s t : State} (h : exec i s = .next t) :
    ((readOnlyLoad i = true ∧ t = raiseError i .illegalCommand s) ∨
      (legalIn i s.PHASE = false ∧ t = raiseError i .wrongPhase s)) ∨
    (readOnlyLoad i = false ∧ legalIn i s.PHASE = true ∧
      ((∃ reply u, bodyOf i s = .got reply u ∧ t = respond i.opcode reply.1 reply.2 u) ∨
       (∃ e u, bodyOf i s = .raised e u ∧ t = raiseError i e u))) := by
  cases hr : readOnlyLoad i with
  | true => rw [exec_readOnlyLoad s hr] at h; cases h; exact .inl (.inl ⟨rfl, rfl⟩)
  | false =>
    rw [exec_eq s hr] at h
    rcases runCommand_cases h with h | ⟨hl, h⟩ | ⟨hl, h⟩
    · exact .inl (.inr h)
    · exact .inr ⟨rfl, hl, .inl h⟩
    · exact .inr ⟨rfl, hl, .inr h⟩

/-- A command stops only where its body does. -/
theorem exec_fault {i : Instr} {s : State} {f : Fault} (h : exec i s = .fault f) :
    legalIn i s.PHASE = true ∧ bodyOf i s = .stopped f := by
  cases hr : readOnlyLoad i with
  | true => rw [exec_readOnlyLoad s hr] at h; cases h
  | false => rw [exec_eq s hr] at h; exact runCommand_fault h

theorem exec_not_refused (i : Instr) (s : State) (r : Refusal) : exec i s ≠ .refused r := by
  cases hr : readOnlyLoad i with
  | true => rw [exec_readOnlyLoad s hr]; exact nofun
  | false => rw [exec_eq s hr]; exact runCommand_not_refused _ _ _ _

/-! ### Bodies that are done -/

theorem loadBody_got {r : Reg} {v : Nat} {s u : State} {reply : Reply}
    (h : loadBody r v s = .got reply u) :
    reply = (.ok, []) ∧ u = loadReg r v s ∧ (r.isBig = true → bitlen v ≤ s.PARAMS.KMAX) ∧
      (r.isBig = false → v < 2 ^ 32) ∧ (r = .MODE ∨ r = .WHITEN → v ≤ 1) := by
  unfold loadBody at h
  split at h
  · cases h
  · next h1 =>
    split at h
    · cases h
    · next h2 =>
      split at h
      · cases h
      · next h3 => cases h; simp_all [fitsBig, fitsScalar]

/-- A generated modulus is made of two primes that the search found in its two draws. -/
theorem genkeyBody_got {s u : State} {reply : Reply} (h : genkeyBody s = .got reply u) :
    s.PV = false ∧ s.QV = false ∧ 16 ≤ s.KREQ.toNat ∧ s.KREQ.toNat + 1 ≤ s.PARAMS.KMAX ∧
    ∃ p q s₁ s₂, genPrime (pBits s.KREQ.toNat) s = .got p s₁ ∧ genPrime (qBits s.KREQ.toNat) s₁ = .got q s₂ ∧
      bitlen (p * q) ≤ s₂.PARAMS.KMAX ∧ u = writeGenerated p q s₂ ∧ reply = (.ok, modulusPayload u) := by
  unfold genkeyBody at h
  simp only at h
  split at h
  · cases h
  · next h1 =>
    split at h
    · cases h
    · next h2 =>
      split at h
      · cases h
      · next h3 =>
        obtain ⟨p, s₁, hp, h⟩ := andThen_got h
        obtain ⟨q, s₂, hq, h⟩ := andThen_got h
        unfold formModulus at h
        split at h
        · cases h
        · next h4 =>
          cases h
          have h1' : s.PV = false ∧ s.QV = false := by simpa using h1
          refine ⟨h1'.1, h1'.2, by simp only [minKbits] at h2; omega, by omega,
            p, q, s₁, s₂, hp, hq, by simpa [fitsBig] using h4, rfl, rfl⟩

theorem mknBody_got {s u : State} {reply : Reply} (h : mknBody s = .got reply u) :
    s.PV = true ∧ s.QV = true ∧ 2 ≤ s.P * s.Q ∧ bitlen (s.P * s.Q) ≤ s.PARAMS.KMAX ∧
      u = writeSupplied s ∧ reply = (.ok, modulusPayload u) := by
  unfold mknBody at h
  split at h
  · cases h
  · next h1 =>
    split at h
    · cases h
    · next h2 =>
      split at h
      · cases h
      · next h3 =>
        cases h
        have h1' : s.PV = true ∧ s.QV = true := by simpa using h1
        exact ⟨h1'.1, h1'.2, by omega, by simpa [fitsBig] using h3, rfl, rfl⟩

theorem seedrBody_got {s u : State} {reply : Reply} (h : seedrBody s = .got reply u) :
    s.N ≠ 0 ∧ ∃ bs x, answerTo .highQuality (bytesFor s.KBL.toNat) s = .bytes bs ∧
      IsFirstCoprimeFrom s.N (fromBytes bs) x ∧
      u = writeSeed x (afterAsking .highQuality (bytesFor s.KBL.toNat) s) ∧
      reply = (.ok, toBytes u.X) := by
  unfold seedrBody at h
  split at h
  · cases h
  · next h1 =>
    simp only at h
    split at h
    · cases h
    · cases h
    · next bs hbs =>
      cases h
      exact ⟨h1, bs, nextCoprime s.N (fromBytes bs), hbs, nextCoprime_spec _ _ (by omega), rfl, rfl⟩

theorem seedxBody_got {x : Nat} {s u : State} {reply : Reply} (h : seedxBody x s = .got reply u) :
    s.N ≠ 0 ∧ bitlen x ≤ s.PARAMS.KMAX ∧ Nat.gcd x s.N = 1 ∧ u = writeSeed x s ∧
      reply = (.ok, toBytes u.X) := by
  unfold seedxBody at h
  split at h
  · cases h
  · next h1 =>
    split at h
    · cases h
    · next h2 =>
      split at h
      · cases h
      · next h3 =>
        cases h
        exact ⟨h3, by simpa [fitsBig] using h1, by simpa using h2, rfl, rfl⟩

theorem sqrBody_got {s u : State} {reply : Reply} (h : sqrBody s = .got reply u) :
    s.N ≠ 0 ∧ u = square s ∧ reply = (.ok, []) := by
  unfold sqrBody at h
  split at h
  · cases h
  · next h1 => cases h; exact ⟨h1, rfl, rfl⟩

theorem extractBody_got {n : Nat} {s u : State} {reply : Reply} (h : extractBody n s = .got reply u) :
    n < 2 ^ 32 ∧ n ≤ s.PARAMS.BMAX ∧ ∃ out, extractBytes n s = .got out u ∧
      reply = (extractStatus out.2, out.1) := by
  unfold extractBody at h
  split at h
  · cases h
  · next h1 =>
    obtain ⟨out, u', ho, h⟩ := andThen_got h
    cases h
    simp [fitsScalar] at h1
    exact ⟨by omega, h1.2, out, ho, rfl⟩

theorem digitsBody_got {count : Nat} {s u : State} {reply : Reply}
    (h : digitsBody count s = .got reply u) :
    count < 2 ^ 32 ∧ 2 ≤ s.BASE.toNat ∧ byteCount s.BASE.toNat count ≤ s.PARAMS.BMAX ∧
      count ≤ 8 * s.PARAMS.BMAX ∧
      ∃ out, extractBytes (byteCount s.BASE.toNat count) s = .got out u ∧
        reply = (extractStatus out.2, digitsPayload s.BASE.toNat (digitsOf s.BASE.toNat count out.1)) := by
  unfold digitsBody at h
  simp only at h
  split at h
  · cases h
  · next h1 =>
    split at h
    · cases h
    · next h2 =>
      split at h
      · cases h
      · next h3 =>
        obtain ⟨out, u', ho, h⟩ := andThen_got h
        cases h
        simp [fitsScalar] at h1
        simp [needsTooMany] at h3
        exact ⟨by omega, by omega, h3.2, h3.1, out, ho, rfl⟩

theorem modexpBody_got {s u : State} {reply : Reply} (h : modexpBody s = .got reply u) :
    s.M ≠ 0 ∧ u = { s with R := s.B ^ s.E % s.M } ∧ reply = (.ok, toBytes (s.B ^ s.E % s.M)) := by
  unfold modexpBody at h
  split at h
  · cases h
  · next h1 => cases h; simp [writePower, modExp_eq, h1]

/-! ### Bodies that raise and bodies that stop -/

/-- What a body that raises has done: asked for entropy where it is `GENKEY` or `SEEDR`, and nothing else. -/
theorem bodyOf_raised {i : Instr} {s u : State} {e : Status} (h : bodyOf i s = .raised e u) :
    (e = .invalidParameter ∨ e = .entropySourceError ∨ e = .capacityExceeded) ∧
      (u = s ∨
       (i = .genkey ∧ s.KREQ.toNat + 1 ≤ s.PARAMS.KMAX ∧
         (u = afterAsking .highQuality (bytesFor (pBits s.KREQ.toNat)) s ∨
          u = afterAsking .highQuality (bytesFor (qBits s.KREQ.toNat))
                (afterAsking .highQuality (bytesFor (pBits s.KREQ.toNat)) s))) ∨
       (i = .seedr ∧ u = afterAsking .highQuality (bytesFor s.KBL.toNat) s)) := by
  cases i with
  | ld r payload =>
    simp only [bodyOf, loadBody] at h
    split at h
    · cases h; simp
    · split at h
      · cases h; simp
      · split at h <;> cases h; simp
  | rd r => cases h
  | clr => cases h
  | genkey =>
    simp only [bodyOf, genkeyBody] at h
    split at h
    · cases h; simp
    · split at h
      · cases h; simp
      · split at h
        · cases h; simp
        · next hk =>
          rcases andThen_raised h with h | ⟨p, s₁, hp, h⟩
          · obtain ⟨rfl, he⟩ := genPrime_raised h
            exact ⟨by tauto, .inr (.inl ⟨rfl, by omega, .inl rfl⟩)⟩
          · obtain ⟨rfl, -⟩ := genPrime_got hp
            rcases andThen_raised h with h | ⟨q, s₂, hq, h⟩
            · obtain ⟨rfl, he⟩ := genPrime_raised h
              exact ⟨by tauto, .inr (.inl ⟨rfl, by omega, .inr rfl⟩)⟩
            · obtain ⟨rfl, -⟩ := genPrime_got hq
              unfold formModulus at h
              split at h
              · cases h; exact ⟨by tauto, .inr (.inl ⟨rfl, by omega, .inr rfl⟩)⟩
              · cases h
  | mkn =>
    simp only [bodyOf, mknBody] at h
    split at h
    · cases h; simp
    · split at h
      · cases h; simp
      · split at h <;> cases h; simp
  | seedr =>
    simp only [bodyOf, seedrBody] at h
    split at h
    · cases h
    · split at h
      · cases h
      · cases h; simp
      · cases h
  | seedx payload =>
    simp only [bodyOf, seedxBody] at h
    split at h
    · cases h; simp
    · split at h
      · cases h; simp
      · split at h <;> cases h
  | sqr =>
    simp only [bodyOf, sqrBody] at h
    split at h <;> cases h
  | extract payload =>
    simp only [bodyOf, extractBody] at h
    split at h
    · cases h; simp
    · rcases andThen_raised h with h | ⟨out, u', -, h⟩
      · exact absurd h (extractBytes_not_raised _ _ _ _)
      · cases h
  | digits payload =>
    simp only [bodyOf, digitsBody] at h
    split at h
    · cases h; simp
    · split at h
      · cases h; simp
      · split at h
        · cases h; simp
        · rcases andThen_raised h with h | ⟨out, u', -, h⟩
          · exact absurd h (extractBytes_not_raised _ _ _ _)
          · cases h
  | modexp =>
    simp only [bodyOf, modexpBody] at h
    split at h <;> cases h; simp

/-- A command whose first request is never answered waits there. -/
theorem waitsAt_zero {i : Instr} {s : State} {r : Request} {rs : List Request} (hm : mayAsk i s = r :: rs)
    (h : answerTo r.port r.count s = .silent) : WaitsAt i s 0 :=
  ⟨fun j hj => absurd hj (Nat.not_lt_zero j), by simp [answerAt, hm, h]⟩

/-- A command whose second request is never answered waits there. -/
theorem waitsAt_one {i : Instr} {s : State} {r r' : Request} {rs : List Request}
    (hm : mayAsk i s = r :: r' :: rs) (h : ∃ bs, answerTo r.port r.count s = .bytes bs)
    (h' : answerTo r'.port r'.count (afterAsking r.port r.count s) = .silent) : WaitsAt i s 1 := by
  refine ⟨fun j hj => ?_, by simp [answerAt, hm, h']⟩
  obtain rfl : j = 0 := by omega
  simpa [answerAt, hm] using h

/-- Where a body stops: a silent port, or arithmetic that no run reaches. -/
theorem bodyOf_stopped {i : Instr} {s : State} {f : Fault} (h : bodyOf i s = .stopped f) :
    (f = .portSilent ∧ ∃ k, WaitsAt i s k) ∨
    ((legalPhases i = [.keyed] ∨ legalPhases i = [.ready]) ∧
      ((f = .zeroModulus ∧ s.N = 0) ∨ (f = .extractNeverEnds ∧ bitsPerSquaring s = 0))) := by
  cases i with
  | ld r payload =>
    simp only [bodyOf, loadBody] at h
    split at h
    · cases h
    · split at h
      · cases h
      · split at h <;> cases h
  | rd r => cases h
  | clr => cases h
  | genkey =>
    simp only [bodyOf, genkeyBody] at h
    split at h
    · cases h
    · split at h
      · cases h
      · split at h
        · cases h
        · rcases andThen_stopped h with h | ⟨p, s₁, hp, h⟩
          · obtain ⟨rfl, ha⟩ := genPrime_stopped h
            exact .inl ⟨rfl, 0, waitsAt_zero rfl ha⟩
          · obtain ⟨rfl, bs, hbs, -⟩ := genPrime_got hp
            rcases andThen_stopped h with h | ⟨q, s₂, hq, h⟩
            · obtain ⟨rfl, ha⟩ := genPrime_stopped h
              exact .inl ⟨rfl, 1, waitsAt_one rfl ⟨bs, hbs⟩ ha⟩
            · unfold formModulus at h
              split at h <;> cases h
  | mkn =>
    simp only [bodyOf, mknBody] at h
    split at h
    · cases h
    · split at h
      · cases h
      · split at h <;> cases h
  | seedr =>
    simp only [bodyOf, seedrBody] at h
    split at h
    · next h0 => cases h; exact .inr ⟨by simp [legalPhases], .inl ⟨rfl, h0⟩⟩
    · split at h
      · next ha => cases h; exact .inl ⟨rfl, 0, waitsAt_zero rfl ha⟩
      · cases h
      · cases h
  | seedx payload =>
    simp only [bodyOf, seedxBody] at h
    split at h
    · cases h
    · split at h
      · cases h
      · split at h
        · next h0 => cases h; exact .inr ⟨by simp [legalPhases], .inl ⟨rfl, h0⟩⟩
        · cases h
  | sqr =>
    simp only [bodyOf, sqrBody] at h
    split at h
    · next h0 => cases h; exact .inr ⟨by simp [legalPhases], .inl ⟨rfl, h0⟩⟩
    · cases h
  | extract payload =>
    simp only [bodyOf, extractBody] at h
    split at h
    · cases h
    · rcases andThen_stopped h with h | ⟨out, u', -, h⟩
      · obtain ⟨hn, ⟨rfl, h0⟩ | ⟨rfl, h0⟩ | ⟨rfl, hw, ha⟩⟩ := extractBytes_stopped h
        · exact .inr ⟨by simp [legalPhases], .inl ⟨rfl, h0⟩⟩
        · exact .inr ⟨by simp [legalPhases], .inr ⟨rfl, h0⟩⟩
        · exact .inl ⟨rfl, 0, waitsAt_zero (if_pos ⟨hw, Nat.pos_of_ne_zero hn⟩) ha⟩
      · cases h
  | digits payload =>
    simp only [bodyOf, digitsBody] at h
    split at h
    · cases h
    · split at h
      · cases h
      · split at h
        · cases h
        · rcases andThen_stopped h with h | ⟨out, u', -, h⟩
          · obtain ⟨hn, ⟨rfl, h0⟩ | ⟨rfl, h0⟩ | ⟨rfl, hw, ha⟩⟩ := extractBytes_stopped h
            · exact .inr ⟨by simp [legalPhases], .inl ⟨rfl, h0⟩⟩
            · exact .inr ⟨by simp [legalPhases], .inr ⟨rfl, h0⟩⟩
            · exact .inl ⟨rfl, 0, waitsAt_zero (if_pos ⟨hw, Nat.pos_of_ne_zero hn⟩) ha⟩
          · cases h
  | modexp =>
    simp only [bodyOf, modexpBody] at h
    split at h <;> cases h

end Sys2Proof.Machine
end

