-- ==== Sys2Proof/Laws/Requests.lean ====
section
/-!
SUPPORT. What a command asks of the entropy ports (20_memory R71): its body exchanges exactly the requests of `requestsOf`,
which a reset in its middle puts on record (70_reset R265), and these are a first part of the table's row.
-/

namespace Sys2Proof.Machine

/-- From `s` to `u` these requests, and no others, have been made and their answers used. -/
def Exchanged (s u : State) (rs : List Request) : Prop :=
  u.ASKED = s.ASKED ++ rs ∧ u.ENTHQ = (afterRequests rs s).ENTHQ ∧ u.ENTADV = (afterRequests rs s).ENTADV

theorem exchanged_nil {s u : State} (hA : u.ASKED = s.ASKED) (hQ : u.ENTHQ = s.ENTHQ)
    (hV : u.ENTADV = s.ENTADV) : Exchanged s u [] := ⟨by simp [hA], hQ, hV⟩

/-- An extraction that completes has made the request for its pad. -/
theorem extractBytes_exchanged {n : Nat} {out : List Byte × Bool} {s u : State}
    (h : extractBytes n s = .got out u) : Exchanged s u (padRequests n s) := by
  rcases extractBytes_got h with ⟨rfl, -, rfl⟩ | ⟨hn, hN, hk, pad, v, hpad, -, hu⟩
  · exact exchanged_nil rfl rfl rfl
  · have hk' : bitsPerSquaring s ≠ 0 := by omega
    obtain ⟨-, ⟨hw, -, hv⟩ | ⟨hw, -, -, hv⟩ | ⟨hw, -, -, hv⟩⟩ := fetchPad_got hpad <;> subst hu <;> subst hv <;>
      simp [Exchanged, padRequests, hn, hN, hk', hw]

/-- What the requests of `GENKEY` are once its checks are passed. -/
theorem genkeyRequests_checked {s : State} (h1 : ¬ (s.PV || s.QV) = true) (h2 : ¬ s.KREQ.toNat < minKbits)
    (h3 : ¬ s.PARAMS.KMAX < s.KREQ.toNat + 1) :
    genkeyRequests s = match genPrime (pBits s.KREQ.toNat) s with
      | .got _ _ =>
        [⟨.highQuality, bytesFor (pBits s.KREQ.toNat)⟩, ⟨.highQuality, bytesFor (qBits s.KREQ.toNat)⟩]
      | .raised _ _ => [⟨.highQuality, bytesFor (pBits s.KREQ.toNat)⟩]
      | .stopped _ => [⟨.highQuality, bytesFor (pBits s.KREQ.toNat)⟩] := by
  simp only [genkeyRequests]
  exact if_neg (by simp only [Bool.or_eq_true, decide_eq_true_eq] at h1 ⊢; tauto)

/-- A body that is done or raises has exchanged the command's requests. -/
theorem bodyOf_exchanged {i : Instr} {s : State} (hl : legalIn i s.PHASE = true) :
    (∀ reply u, bodyOf i s = .got reply u → Exchanged s u (requestsOf i s)) ∧
    (∀ e u, bodyOf i s = .raised e u → Exchanged s u (requestsOf i s)) := by
  unfold requestsOf
  rw [if_pos hl]
  cases i with
  | ld r payload =>
    refine ⟨fun reply u h => ?_, fun e u h => ?_⟩
    · obtain ⟨-, rfl, -⟩ := loadBody_got h
      exact exchanged_nil (by cases r <;> rfl) (by cases r <;> rfl) (by cases r <;> rfl)
    · obtain ⟨-, rfl | ⟨h, -⟩ | ⟨h, -⟩⟩ := bodyOf_raised h
      · exact exchanged_nil rfl rfl rfl
      · cases h
      · cases h
  | rd r => exact ⟨fun reply u h => by cases h; exact exchanged_nil rfl rfl rfl, fun e u h => by cases h⟩
  | clr => exact ⟨fun reply u h => by cases h; exact exchanged_nil rfl rfl rfl, fun e u h => by cases h⟩
  | genkey =>
    refine ⟨fun reply u h => ?_, fun e u h => ?_⟩
    · obtain ⟨hp, hq, hk, hK, p, q, s₁, s₂, h₁, h₂, -, rfl, -⟩ := genkeyBody_got h
      have hr := genkeyRequests_checked (s := s) (by simp [hp, hq]) (by simp only [minKbits]; omega) (by omega)
      simp only [hr, h₁]
      obtain ⟨rfl, -⟩ := genPrime_got h₁
      obtain ⟨rfl, -⟩ := genPrime_got h₂
      exact ⟨by simp, rfl, rfl⟩
    · simp only [bodyOf, genkeyBody] at h
      split at h
      · next h1 => cases h; simp [genkeyRequests, h1, exchanged_nil]
      · next h1 =>
        split at h
        · next h2 => cases h; simp [genkeyRequests, h2, exchanged_nil]
        · next h2 =>
          split at h
          · next h3 => cases h; simp [genkeyRequests, h3, exchanged_nil]
          · next h3 =>
            have hr := genkeyRequests_checked h1 h2 h3
            rcases andThen_raised h with h | ⟨p, s₁, hp, h⟩
            · simp only [hr, h]
              obtain ⟨rfl, -⟩ := genPrime_raised h
              exact ⟨by simp, rfl, rfl⟩
            · simp only [hr, hp]
              obtain ⟨rfl, -⟩ := genPrime_got hp
              rcases andThen_raised h with h | ⟨q, s₂, hq, h⟩
              · obtain ⟨rfl, -⟩ := genPrime_raised h
                exact ⟨by simp, rfl, rfl⟩
              · obtain ⟨rfl, -⟩ := genPrime_got hq
                unfold formModulus at h
                split at h
                · cases h; exact ⟨by simp, rfl, rfl⟩
                · cases h
  | mkn =>
    refine ⟨fun reply u h => ?_, fun e u h => ?_⟩
    · obtain ⟨-, -, -, -, rfl, -⟩ := mknBody_got h
      exact exchanged_nil rfl rfl rfl
    · obtain ⟨-, rfl | ⟨h, -⟩ | ⟨h, -⟩⟩ := bodyOf_raised h
      · exact exchanged_nil rfl rfl rfl
      · cases h
      · cases h
  | seedr =>
    refine ⟨fun reply u h => ?_, fun e u h => ?_⟩
    · obtain ⟨hN, _, _, -, -, rfl, -⟩ := seedrBody_got h
      simp [Exchanged, seedrRequests, hN]
    · simp only [bodyOf, seedrBody] at h
      split at h
      · cases h
      · next hN =>
        split at h
        · cases h
        · cases h; simp [Exchanged, seedrRequests, hN]
        · cases h
  | seedx payload =>
    refine ⟨fun reply u h => ?_, fun e u h => ?_⟩
    · obtain ⟨-, -, -, rfl, -⟩ := seedxBody_got h
      exact exchanged_nil rfl rfl rfl
    · obtain ⟨-, rfl | ⟨h, -⟩ | ⟨h, -⟩⟩ := bodyOf_raised h
      · exact exchanged_nil rfl rfl rfl
      · cases h
      · cases h
  | sqr =>
    refine ⟨fun reply u h => ?_, fun e u h => ?_⟩
    · obtain ⟨-, rfl, -⟩ := sqrBody_got h
      exact exchanged_nil rfl rfl rfl
    · simp only [bodyOf, sqrBody] at h
      split at h <;> cases h
  | extract payload =>
    refine ⟨fun reply u h => ?_, fun e u h => ?_⟩
    · obtain ⟨h1, h2, out, ho, -⟩ := extractBody_got h
      have : ¬ (!fitsScalar (fromBytes payload) || decide (s.PARAMS.BMAX < fromBytes payload)) = true := by
        simp [fitsScalar, h2]; omega
      simp only [extractRequests]
      rw [if_neg this]
      exact extractBytes_exchanged ho
    · simp only [bodyOf, extractBody] at h
      split at h
      · next h1 => cases h; simp only [extractRequests]; rw [if_pos h1]; exact exchanged_nil rfl rfl rfl
      · rcases andThen_raised h with h | ⟨out, u', -, h⟩
        · exact absurd h (extractBytes_not_raised _ _ _ _)
        · cases h
  | digits payload =>
    simp only [digitsRequests]
    refine ⟨fun reply u h => ?_, fun e u h => ?_⟩
    · obtain ⟨h1, h2, h3, h4, out, ho, -⟩ := digitsBody_got h
      have hc : ¬ (!fitsScalar (fromBytes payload)) = true := by simp [fitsScalar]; omega
      have hb : ¬ needsTooMany s.PARAMS.BMAX s.BASE.toNat (fromBytes payload) = true := by
        simp [needsTooMany]; omega
      rw [if_neg hc, if_neg (by omega), if_neg hb]
      exact extractBytes_exchanged ho
    · simp only [bodyOf, digitsBody] at h
      split at h
      · next h1 => cases h; rw [if_pos h1]; exact exchanged_nil rfl rfl rfl
      · next h1 =>
        rw [if_neg h1]
        split at h
        · next h2 => cases h; rw [if_pos h2]; exact exchanged_nil rfl rfl rfl
        · next h2 =>
          rw [if_neg h2]
          split at h
          · next h3 => cases h; rw [if_pos h3]; exact exchanged_nil rfl rfl rfl
          · rcases andThen_raised h with h | ⟨out, u', -, h⟩
            · exact absurd h (extractBytes_not_raised _ _ _ _)
            · cases h
  | modexp =>
    refine ⟨fun reply u h => ?_, fun e u h => ?_⟩
    · obtain ⟨-, rfl, -⟩ := modexpBody_got h
      exact exchanged_nil rfl rfl rfl
    · obtain ⟨-, rfl | ⟨h, -⟩ | ⟨h, -⟩⟩ := bodyOf_raised h
      · exact exchanged_nil rfl rfl rfl
      · cases h
      · cases h

/-! ### The requests are a first part of the table's row -/

theorem okBefore_zero (i : Instr) (s : State) : OkBefore i s 0 := fun j hj => absurd hj (Nat.not_lt_zero j)

/-- The row of an extraction: the request is made where the row has it, unless a stop comes first. -/
theorem padRequests_eq (n : Nat) (s : State) :
    padRequests n s = [] ∨ (s.WHITEN = true ∧ 1 ≤ n ∧ padRequests n s = [⟨.advisory, n⟩]) := by
  unfold padRequests
  split
  · exact .inl rfl
  · split
    · exact .inl rfl
    · split
      · exact .inl rfl
      · split
        · next hn _ _ hw => exact .inr ⟨hw, by omega, rfl⟩
        · exact .inl rfl

/-- A command makes a first part of its row's requests, every one but the last answered `Ok` before the next is made. -/
theorem requestsOf_prefix (i : Instr) (s : State) :
    ∃ k ≤ (mayAsk i s).length, OkBefore i s (k - 1) ∧ requestsOf i s = (mayAsk i s).take k := by
  have none : requestsOf i s = [] →
      ∃ k ≤ (mayAsk i s).length, OkBefore i s (k - 1) ∧ requestsOf i s = (mayAsk i s).take k :=
    fun h => ⟨0, Nat.zero_le _, okBefore_zero i s, by simp [h]⟩
  have one : ∀ r rs, mayAsk i s = r :: rs → requestsOf i s = [r] →
      ∃ k ≤ (mayAsk i s).length, OkBefore i s (k - 1) ∧ requestsOf i s = (mayAsk i s).take k :=
    fun r rs hm h => ⟨1, by simp [hm], okBefore_zero i s, by simp [h, hm]⟩
  cases hl : legalIn i s.PHASE with
  | false => exact none (by simp [requestsOf, hl])
  | true =>
    cases i with
    | ld r payload => exact none (by simp [requestsOf])
    | rd r => exact none (by simp [requestsOf])
    | clr => exact none (by simp [requestsOf])
    | mkn => exact none (by simp [requestsOf])
    | seedx payload => exact none (by simp [requestsOf])
    | sqr => exact none (by simp [requestsOf])
    | modexp => exact none (by simp [requestsOf])
    | seedr =>
      by_cases hN : s.N = 0
      · exact none (by simp [requestsOf, seedrRequests, hN])
      · exact one _ _ rfl (by simp [requestsOf, hl, seedrRequests, hN, bytesFor])
    | extract payload =>
      have he : requestsOf (.extract payload) s = extractRequests (fromBytes payload) s := by
        simp [requestsOf, hl]
      unfold extractRequests at he
      split at he
      · exact none he
      · rcases padRequests_eq (fromBytes payload) s with h | ⟨hw, hn, h⟩
        · exact none (he.trans h)
        · exact one _ [] (if_pos ⟨hw, hn⟩) (he.trans h)
    | digits payload =>
      have he : requestsOf (.digits payload) s = digitsRequests (fromBytes payload) s := by
        simp [requestsOf, hl]
      simp only [digitsRequests] at he
      split at he
      · exact none he
      · split at he
        · exact none he
        · split at he
          · exact none he
          · rcases padRequests_eq (byteCount s.BASE.toNat (fromBytes payload)) s with h | ⟨hw, hn, h⟩
            · exact none (he.trans h)
            · exact one _ [] (if_pos ⟨hw, hn⟩) (he.trans h)
    | genkey =>
      have he : requestsOf .genkey s = genkeyRequests s := by simp [requestsOf, hl]
      simp only [genkeyRequests] at he
      split at he
      · exact none he
      · split at he
        · next p u hp =>
          obtain ⟨-, bs, hbs, -⟩ := genPrime_got hp
          refine ⟨2, by simp [mayAsk], fun j hj => ⟨bs, ?_⟩, he⟩
          obtain rfl : j = 0 := by omega
          exact congrArg some hbs
        · exact one _ _ rfl he
        · exact one _ _ rfl he

/-! ### The reset input does not disturb what a command would ask -/

/-- The prime generator takes no notice of the reset input. -/
theorem genPrime_assertReset (bits k : Nat) (s : State) :
    genPrime bits (assertReset k s) = match genPrime bits s with
      | .got p u => .got p (assertReset k u)
      | .raised e u => .raised e (assertReset k u)
      | .stopped f => .stopped f := by
  have h1 : answerTo .highQuality (bytesFor bits) (assertReset k s)
    = answerTo .highQuality (bytesFor bits) s := rfl
  have h2 : (assertReset k s).PARAMS = s.PARAMS := rfl
  unfold genPrime
  rw [h1, h2]
  cases answerTo .highQuality (bytesFor bits) s with
  | silent => rfl
  | fail => rfl
  | bytes bs =>
    simp only
    cases findPrime s.PARAMS (forceLength bits (fromBytes bs)) <;> rfl

theorem genkeyRequests_assertReset (k : Nat) (s : State) :
    genkeyRequests (assertReset k s) = genkeyRequests s := by
  have h1 : (assertReset k s).KREQ = s.KREQ := rfl
  have h2 : (assertReset k s).PV = s.PV := rfl
  have h3 : (assertReset k s).QV = s.QV := rfl
  have h4 : (assertReset k s).PARAMS = s.PARAMS := rfl
  simp only [genkeyRequests, genPrime_assertReset, h1, h2, h3, h4]
  split
  · rfl
  · cases genPrime (pBits s.KREQ.toNat) s <;> rfl

@[simp] theorem requestsOf_assertReset (i : Instr) (k : Nat) (s : State) :
    requestsOf i (assertReset k s) = requestsOf i s := by
  cases i with
  | genkey =>
    have h : (assertReset k s).PHASE = s.PHASE := rfl
    simp only [requestsOf, genkeyRequests_assertReset, h]
  | ld r payload => rfl
  | rd r => rfl
  | clr => rfl
  | mkn => rfl
  | seedr => rfl
  | seedx payload => rfl
  | sqr => rfl
  | extract payload => rfl
  | digits payload => rfl
  | modexp => rfl

@[simp] theorem afterRequests_assertReset (rs : List Request) (k : Nat) (s : State) :
    afterRequests rs (assertReset k s) = assertReset k (afterRequests rs s) := by
  induction rs generalizing s with
  | nil => rfl
  | cons r rs ih =>
    have h : afterAsking r.port r.count (assertReset k s) = assertReset k (afterAsking r.port r.count s) := by
      cases r.port <;> rfl
    rw [afterRequests_cons, h, ih, afterRequests_cons]

/-- An asserted reset meets a command after `k` of its requests. -/
theorem step_assertReset {i : Instr} {rest : List Byte} (k : Nat) {s : State}
    (h : decode s.CMD = .command i rest) :
    step (assertReset k s) = .next (takeReset (afterRequests ((requestsOf i s).take k) s)) := by
  have hd : decode (assertReset k s).CMD = .command i rest := h
  have ha : abandonCommand k (assertReset k s)
      = assertReset k (afterRequests ((requestsOf i s).take k) s) := by
    simp only [abandonCommand, hd, requestsOf_assertReset, afterRequests_assertReset]
  show Host.Outcome.next (takeReset (abandonCommand k (assertReset k s))) = _
  rw [ha]
  rfl

end Sys2Proof.Machine
end

