-- ==== Sys2Proof/Tests/Slice0.lean ====
section
/-!
SUPPORT. Tests on fixed values, their expected results from 95_test_vectors.md (its row is named) and from the encoding
tables of spec/; and for every obligation with hypotheses a witness that meets them.
-/

namespace Sys2Proof.Machine

/-! ### Small states -/

/-- What is seen of a next state. -/
def seen {α : Type} (f : State → α) : Host.Outcome State Fault Refusal → Option α
  | .next t => some (f t)
  | .fault _ => none
  | .refused _ => none

theorem next_of_seen {α : Type} {f : State → α} {o : Host.Outcome State Fault Refusal} {a : α}
    (h : seen f o = some a) : ∃ t, o = .next t ∧ f t = a := by
  cases o with
  | next t => exact ⟨t, rfl, Option.some.inj h⟩
  | fault f => cases h
  | refused r => cases h

/-- The smallest engine of 00_scope R5. -/
def tiny : Params where
  KMAX := 18
  BMAX := 1
  REPS := 5
  RETAIN_PQ := true
  ACC_BIT_ORDER := .highFirst
  PRIMES := .reference

/-- A session with a modulus (`KBL` its length) and no seed. -/
def keyed (n : Nat) : State :=
  { State.reset with N := n, KBL := BitVec.ofNat 32 (bitlen n), PHASE := .keyed }

/-- A session with a modulus and a state. -/
def ready (n x : Nat) : State := { keyed n with X := x, PHASE := .ready }

/-- A session after a failed initialisation. -/
def failed : State := { State.reset with ERR := .invalidParameter, PHASE := .failed }

/-- 95_test_vectors T20: `KREQ = 16` and the two draws lined up. -/
def drawing : State :=
  { State.reset with KREQ := 16, ENTHQ := [.bytes [0xFF, 0x37], .bytes [0x2A]] }

/-! ### WellFormed: an ill-formed term for each check -/

theorem test_wellFormed_refuses_ld_of_N : (Instr.ld .N [0x05]).wellFormed = false := by decide
theorem test_wellFormed_refuses_ld_of_X : (Instr.ld .X []).wellFormed = false := by decide
theorem test_wellFormed_refuses_ld_of_R : (Instr.ld .R []).wellFormed = false := by decide
theorem test_wellFormed_refuses_ld_of_KBL : (Instr.ld .KBL []).wellFormed = false := by decide
theorem test_wellFormed_refuses_ld_of_STATUS : (Instr.ld .STATUS []).wellFormed = false := by decide

theorem test_wellFormed_refuses_long_payload (payload : List Byte) (h : payload.length = 65536) :
    (Instr.ld .P payload).wellFormed = false ∧ (Instr.seedx payload).wellFormed = false ∧
    (Instr.extract payload).wellFormed = false ∧ (Instr.digits payload).wellFormed = false := by
  simp [Instr.wellFormed, payloadFits, h]

theorem test_wellFormed_admits_the_longest_payload (payload : List Byte) (h : payload.length = 65535) :
    (Instr.ld .P payload).wellFormed = true ∧ (Instr.seedx payload).wellFormed = true := by
  simp [Instr.wellFormed, payloadFits, Reg.loadable, h]

/-! ### Decoding: words written out from 30_encoding R90, R92, R96 -/

theorem test_decode_ld : decode [0x01, 0x10, 0x00, 0x01, 0x14] = .command (.ld .KREQ [0x14]) [] := by
  decide
theorem test_decode_ld_long_length :
    decode ([0x01, 0x02, 0x02, 0x01, 0x01] ++ List.replicate 512 0)
      = .command (.ld .P (0x01 :: List.replicate 512 0)) [] := by decide +kernel
theorem test_decode_rd : decode [0x02, 0x15, 0x00, 0x00, 0xAA] = .command (.rd .STATUS) [0xAA] := by
  decide
theorem test_decode_clr : decode [0x03, 0x00, 0x00, 0x00] = .command .clr [] := by decide
theorem test_decode_genkey : decode [0x10, 0x00, 0x00, 0x00] = .command .genkey [] := by decide
theorem test_decode_mkn : decode [0x11, 0x00, 0x00, 0x00] = .command .mkn [] := by decide
theorem test_decode_seedr : decode [0x12, 0x00, 0x00, 0x00] = .command .seedr [] := by decide
theorem test_decode_seedx : decode [0x13, 0x00, 0x00, 0x01, 0x03] = .command (.seedx [0x03]) [] := by
  decide
theorem test_decode_sqr : decode [0x20, 0x00, 0x00, 0x00] = .command .sqr [] := by decide
theorem test_decode_extract :
    decode [0x21, 0x00, 0x00, 0x02, 0x01, 0x2C] = .command (.extract [0x01, 0x2C]) [] := by decide
theorem test_decode_digits : decode [0x22, 0x00, 0x00, 0x01, 0x05] = .command (.digits [0x05]) [] := by
  decide
theorem test_decode_modexp : decode [0x30, 0x00, 0x00, 0x00] = .command .modexp [] := by decide

/-- T80: an unknown opcode is consumed with its payload. -/
theorem test_decode_unknown_opcode :
    decode [0x7F, 0x00, 0x00, 0x02, 0xAA, 0xBB, 0x20] = .illegal 0x7F .unknownOpcode [0x20] := by decide
/-- T4A -/
theorem test_decode_select_not_zero :
    decode [0x21, 0x01, 0x00, 0x01, 0x01] = .illegal 0x21 .selectNotZero [] := by decide
/-- T82 -/
theorem test_decode_length_not_zero :
    decode [0x20, 0x00, 0x00, 0x01, 0x00] = .illegal 0x20 .lengthNotZero [] := by decide
/-- T16 -/
theorem test_decode_reserved_select :
    decode [0x02, 0x08, 0x00, 0x00] = .illegal 0x02 .reservedSelect [] ∧
    decode [0x02, 0x16, 0x00, 0x00] = .illegal 0x02 .reservedSelect [] := by decide
/-- T15 -/
theorem test_decode_never_written :
    decode [0x01, 0x15, 0x00, 0x01, 0x05] = .illegal 0x01 .neverWritten [] := by decide
theorem test_decode_incomplete :
    decode [0x20, 0x00, 0x00] = .incomplete ∧ decode [0x13, 0x00, 0x00, 0x02, 0x03] = .incomplete := by
  decide

/-- spec/opcode_table.json numbers `RD` 0x02000000 in its 32-bit header. -/
theorem test_decodeTableWord :
    decodeTableWord 32 0x02000000 = some (.rd .N) ∧ decodeTableWord 32 0x30000000 = some .modexp ∧
    decodeTableWord 32 0x01020001 = some (.ld .P [0x00]) ∧ decodeTableWord 32 0x01000000 = none := by
  decide

theorem test_withFetchWord_runs_the_word :
    seen (fun t => (t.CMD, t.RSP)) (step ((ready 77 9).withFetchWord 32 0x20000000))
      = some ([], [0x20, 0, 0, 0, 0, 0, 0, 0]) := by decide

/-- 30_encoding R101: `POWM 4, 13, 497`. -/
theorem test_assemble_powm :
    assemble (expand (.powM 4 13 497)) =
      [0x01, 0x04, 0x00, 0x01, 0x04, 0x01, 0x05, 0x00, 0x01, 0x0D,
       0x01, 0x06, 0x00, 0x02, 0x01, 0xF1, 0x30, 0x00, 0x00, 0x00] := by decide

/-! ### Commands on the vectors of 95_test_vectors -/

/-- T07 and T08: 2^32 does not fit a scalar register, 2^32 - 1 does. -/
theorem test_ld_scalar_edge :
    seen (fun t => (t.KREQ, t.ERR)) (exec (.ld .KREQ [0x01, 0, 0, 0, 0]) State.reset)
      = some (1024, .capacityExceeded) ∧
    seen (fun t => (t.BASE, t.ERR)) (exec (.ld .BASE [0xFF, 0xFF, 0xFF, 0xFF]) State.reset)
      = some (0xFFFFFFFF, .ok) := by decide
/-- T09 and T10: the widest value that fits `P`, and one bit more. -/
theorem test_ld_big_edge :
    seen (fun t => (t.P, t.PV)) (exec (.ld .P (0x01 :: List.replicate 512 0)) State.reset)
      = some (0, false) ∧
    seen (fun t => (t.P, t.PV)) (exec (.ld .P (List.replicate 512 0xFF)) State.reset)
      = some (2 ^ 4096 - 1, true) := by decide +kernel
/-- T17 -/
theorem test_rd_status :
    seen State.RSP (exec (.rd .STATUS) failed) = some [0x02, 0, 0, 0, 0, 0, 0, 0x04, 0, 0, 0x01, 0x03] := by
  decide
/-- T01 -/
theorem test_rd_kreq :
    seen State.RSP (exec (.rd .KREQ) State.reset)
      = some [0x02, 0, 0, 0, 0, 0, 0, 0x04, 0, 0, 0x04, 0] := by decide
/-- T18 -/
theorem test_clr :
    seen (fun t => (t.N, t.X, t.BASE, t.MODE, t.PHASE))
        (exec .clr { ready 77 9 with BASE := 10, MODE := .conservative })
      = some (0, 0, 0, .accelerated, .empty) := by decide
/-- T20 -/
theorem test_genkey :
    seen (fun t => (t.N, t.KBL, t.PHASE, t.RSP)) (exec .genkey drawing)
      = some (59249, 16, .keyed, [0x10, 0, 0, 0, 0, 0, 0, 0x06, 0, 0, 0, 0x10, 0xE7, 0x71]) := by
  decide +kernel
/-- T27: the second draw fails, the first prime is not kept. -/
theorem test_genkey_second_draw_fails :
    seen (fun t => (t.P, t.N, t.PHASE, t.ERR, t.ASKED))
        (exec .genkey { drawing with ENTHQ := [.bytes [0xFF, 0x37], .fail] })
      = some (0, 0, .failed, .entropySourceError, [⟨.highQuality, 2⟩, ⟨.highQuality, 1⟩]) := by
  decide +kernel
/-- T2A -/
theorem test_mkn :
    seen (fun t => (t.N, t.KBL, t.P, t.PV, t.PHASE))
        (exec .mkn { State.reset with P := 11, Q := 7, PV := true, QV := true })
      = some (77, 7, 0, false, .keyed) := by decide
/-- T2C -/
theorem test_mkn_of_ones :
    seen (fun t => (t.PHASE, t.ERR, t.PV))
        (exec .mkn { State.reset with P := 1, Q := 1, PV := true, QV := true })
      = some (.failed, .invalidParameter, false) := by decide
/-- T61: the draw has a factor in common with `N`. -/
theorem test_seedr_increments :
    seen (fun t => (t.X, t.RSP)) (exec .seedr { keyed 59249 with ENTHQ := [.bytes [0x02, 0x96]] })
      = some (24826, [0x12, 0, 0, 0, 0, 0, 0, 0x02, 0x60, 0xFA]) := by decide +kernel
/-- T64 -/
theorem test_seedr_draw_fails :
    seen (fun t => (t.N, t.KBL, t.PHASE, t.ERR)) (exec .seedr { keyed 59249 with ENTHQ := [.fail] })
      = some (0, 0, .failed, .entropySourceError) := by decide +kernel
/-- T6B -/
theorem test_seedx_above_N :
    seen (fun t => (t.X, t.PHASE)) (exec (.seedx [0x50]) (keyed 77)) = some (9, .ready) := by decide
/-- T68 -/
theorem test_seedx_not_coprime :
    seen (fun t => (t.N, t.PHASE, t.RSP)) (exec (.seedx [0x0E]) (keyed 77))
      = some (0, .failed, [0x13, 0x01, 0, 0, 0, 0, 0, 0]) := by decide
/-- T48 -/
theorem test_sqr : seen State.X (exec .sqr (ready 77 9)) = some 4 := by decide
/-- T37 -/
theorem test_extract_accelerated :
    seen (fun t => (t.X, t.RSP)) (exec (.extract [0x03]) (ready 253 9))
      = some (108, [0x21, 0, 0, 0, 0, 0, 0, 0x03, 0x84, 0xF5, 0xD1]) := by decide +kernel
/-- T42: whitening is lost. -/
theorem test_extract_whitening_lost :
    seen (fun t => (t.X, t.WHITEN, t.ERR, t.RSP))
        (exec (.extract [0x04]) { ready 272953 91251 with WHITEN := true, ENTADV := [.fail] })
      = some (258153, false, .whiteningUnavailable,
          [0x21, 0x03, 0, 0, 0, 0, 0, 0x04, 0xF3, 0x6C, 0xFF, 0x89]) := by decide +kernel
/-- T50 -/
theorem test_digits_decimal :
    seen (fun t => (t.X, t.RSP)) (exec (.digits [0x05]) { ready 59249 30466 with BASE := 10 })
      = some (15051, [0x22, 0, 0, 0, 0, 0, 0, 0x05, 7, 4, 7, 6, 5]) := by decide +kernel
/-- T55: two bytes per digit. -/
theorem test_digits_wide :
    seen (fun t => (t.X, t.RSP)) (exec (.digits [0x01]) { ready 59249 30466 with BASE := 257 })
      = some (21973, [0x22, 0, 0, 0, 0, 0, 0, 0x02, 0x00, 0x35]) := by decide +kernel
/-- T70 -/
theorem test_modexp :
    seen (fun t => (t.R, t.RSP)) (exec .modexp { State.reset with B := 4, E := 13, M := 497 })
      = some (445, [0x30, 0, 0, 0, 0, 0, 0, 0x02, 0x01, 0xBD]) := by decide +kernel
/-- T73: 0^0 mod 1. -/
theorem test_modexp_zero_to_zero :
    seen (fun t => (t.R, t.RSP)) (exec .modexp { State.reset with M := 1, R := 5 })
      = some (0, [0x30, 0, 0, 0, 0, 0, 0, 0]) := by decide

/-- 45_modexp R217's example, and from T7D a base to which 341 passes; 331 is a prime. -/
theorem test_mrRound : mrRound 341 2 = false ∧ mrRound 341 4 = true ∧ mrRound 331 2 = true := by
  decide +kernel

/-- 45_modexp R217: `reps` rounds with bases in `[2, 7]`, whatever the list: 9 is found composite, 11 passes. -/
theorem test_bases :
    basesFor (.listed [8]) 9 5 = [4, 3, 4, 5, 6] ∧ probPrime (.millerRabin (.listed [8])) 9 5 = false ∧
    probPrime (.millerRabin (.listed [])) 9 5 = false ∧ probPrime (.millerRabin (.listed [2])) 11 5 = true := by
  decide +kernel

/-- T30 on the machine of 43_square_extract R185: 8 squarings, 8 bits and one byte. -/
theorem test_fsm :
    (fsmRun 17 (fsmStart { ready 77 9 with MODE := .conservative } 1 [0x00])).OUT = [0x33] ∧
    (fsmRun 17 (fsmStart { ready 77 9 with MODE := .conservative } 1 [0x00])).control = .done := by
  decide +kernel

/-! ### The environment -/

theorem test_hostTake : (hostTake 2 { State.reset with RSP := [1, 2, 3] }).1 = [1, 2] ∧
    (hostTake 2 { State.reset with RSP := [1, 2, 3] }).2.RSP = [3] := by decide

theorem test_platformAnswers :
    answerTo .advisory 1 (platformAnswers .advisory (.bytes [0xA5]) State.reset) = .bytes [0xA5] ∧
    answerTo .highQuality 2 (platformAnswers .highQuality (.bytes [0xA5]) State.reset) = .fail := by
  decide

/-- 70_reset R265: `SEEDR` waits for an answer that never comes; reset abandons it, and the answer to the next request is
the next one. -/
theorem test_reset_in_a_command :
    seen (fun t => (t.ENTHQ, t.ASKED, t.PHASE, t.CMD, t.RSP)) (step (assertReset 1
        { keyed 59249 with ENTHQ := [.silent, .bytes [0x12, 0x34]], CMD := [0x12, 0, 0, 0, 0x02] }))
      = some ([.bytes [0x12, 0x34]], [⟨.highQuality, 2⟩], .empty, [], []) := by decide +kernel

/-- The same command, reset before it has begun. -/
theorem test_reset_before_a_command :
    seen (fun t => (t.ENTHQ, t.ASKED, t.PHASE)) (step (assertReset 0
        { keyed 59249 with ENTHQ := [.silent], CMD := [0x12, 0, 0, 0] }))
      = some ([.silent], [], .empty) := by decide +kernel

/-! ### Witnesses: for every obligation with hypotheses, values that meet them, clause by clause -/

theorem witness_AssertedResetIsTakenNext :
    (∀ i rest, decode State.reset.CMD ≠ .command i rest) ∧
    decode ({ keyed 77 with CMD := [0x12, 0, 0, 0] } : State).CMD = .command .seedr [] :=
  ⟨nofun, by decide⟩

/-- `SEEDR`, `GENKEY` with T20's draws, T44 and T5H. -/
theorem witness_ResetDropsTheAnswerOfAnAbandonedRequest :
    (decode ({ keyed 59249 with CMD := [0x12, 0, 0, 0] } : State).CMD = .command .seedr [] ∧
      2 = ((keyed 59249).KBL.toNat + 7) / 8) ∧
    (decode ({ drawing with CMD := [0x10, 0, 0, 0] } : State).CMD = .command .genkey [] ∧
      2 = (drawing.KREQ.toNat / 2 + 1 + 7) / 8 ∧
      answerTo .highQuality 2 { drawing with CMD := [0x10, 0, 0, 0] } = .bytes [0xFF, 0x37] ∧
      findPrime drawing.PARAMS (forcedSeed (drawing.KREQ.toNat / 2 + 1) [0xFF, 0x37]) = some 331) ∧
    (decode ({ ready 272953 91251 with WHITEN := true, CMD := [0x21, 0, 0, 0x01, 0x04] } : State).CMD
        = .command (.extract [0x04]) [] ∧ 4 = fromBytes [0x04] ∧ 1 ≤ bitsPerSquaring (ready 272953 91251)) ∧
    (decode ({ ready 59249 30466 with WHITEN := true, CMD := [0x22, 0, 0, 0x01, 0x05] } : State).CMD
        = .command (.digits [0x05]) [] ∧ 10 ^ fromBytes [0x05] ≤ 256 ^ 3 ∧
      (∀ m < 3, 256 ^ m < 10 ^ fromBytes [0x05]) ∧ 3 ≤ (ready 59249 30466).PARAMS.BMAX) := by decide +kernel

theorem witness_DecodeReadsBackEveryEncodedCommand :
    (Instr.ld .P [0x0B]).wellFormed = true ∧ (Instr.rd .STATUS).wellFormed = true ∧
    (Instr.digits []).wellFormed = true := by decide

theorem witness_EveryDecodedPacketIsItsCommandsEncoding :
    decode [0x13, 0x00, 0x00, 0x01, 0x03, 0x20] = .command (.seedx [0x03]) [0x20] := by decide

/-- One packet for each of (a) to (e) of 30_encoding R97, and one that none of them touches. -/
theorem witness_IllegalEncodingsAreExactlyTheListedOnes :
    IllegalEncoding 0x7F 0x00 2 ∧ IllegalEncoding 0x21 0x01 1 ∧ IllegalEncoding 0x20 0x00 1 ∧
    IllegalEncoding 0x02 0x16 0 ∧ IllegalEncoding 0x01 0x15 1 ∧
    ¬ IllegalEncoding 0x01 0x02 65535 ∧ ¬ IllegalEncoding 0x21 0x00 0 ∧ State.reset.RESETLINE = .low := by
  simp [IllegalEncoding, State.reset]

theorem witness_TruncatedPacketLeavesTheEngineIdle :
    ({ State.reset with CMD := [0x20, 0x00, 0x00] } : State).CMD.length < 4 ∧
    ∃ (op a hi lo : Byte) (stream : List Byte),
      ({ State.reset with CMD := [0x13, 0x00, 0x00, 0x02, 0x03] } : State).CMD
        = op :: a :: hi :: lo :: stream ∧ stream.length < 256 * hi.toNat + lo.toNat :=
  ⟨by decide, 0x13, 0x00, 0x00, 0x02, [0x03], by decide, by decide⟩

theorem witness_StepRunsTheDecodedCommand :
    State.reset.RESETLINE = .low ∧ Instr.sqr.wellFormed = true ∧
    decode ({ State.reset with CMD := [0x20, 0, 0, 0, 0x55] } : State).CMD = .command .sqr [0x55] := by
  decide

/-- T30 -/
theorem witness_WorkedEncodingsReadAsTheSpecSpellsThem :
    extractBytes 1 { ready 77 9 with MODE := .conservative }
      = .got ([0x33], false) { ready 77 9 with MODE := .conservative } ∧
    (ready 77 9).PHASE = .ready ∧ (keyed 77).KBL = 7 ∧ State.reset.PHASE = .empty := by decide +kernel

theorem witness_WrongPhaseChangesNothingButErr :
    Instr.mkn.wellFormed = true ∧ (keyed 77).PHASE ∉ legalPhases .mkn ∧
    (Instr.ld .P [0x03]).wellFormed = true ∧ (keyed 77).PHASE ∉ legalPhases (.ld .P [0x03]) := by decide

theorem witness_LoadOfAReadOnlyRegisterIsIllegal : Reg.STATUS ∈ [Reg.N, .X, .R, .KBL, .STATUS] := by
  decide

/-- T68 -/
theorem witness_FatalErrorErasesTheSession :
    (∃ t : State, exec (.seedx [0x0E]) (keyed 77) = .next t ∧
      (t.RSP = (keyed 77).RSP ++ errorResponse (Instr.seedx [0x0E]).opcode .invalidParameter ∧
        t.PHASE = .failed)) ∧
    (keyed 77).PHASE ≠ .failed ∧ (Instr.seedx [0x0E]).opcode ∈ ([0x10, 0x11, 0x12, 0x13] : List Byte) ∧
    failed.PHASE = .failed ∧ Instr.modexp.wellFormed = true ∧
    Instr.modexp.opcode ∉ ([0x02, 0x03] : List Byte) := by
  refine ⟨?_, by decide, by decide, by decide, by decide, by decide⟩
  obtain ⟨t, h, ht⟩ := next_of_seen (f := fun t => (t.RSP, t.PHASE))
    (o := exec (.seedx [0x0E]) (keyed 77)) (a := ([0x13, 0x01, 0, 0, 0, 0, 0, 0], .failed)) (by decide)
  exact ⟨t, h, congrArg Prod.fst ht, congrArg Prod.snd ht⟩

/-- T05, and T2G for an init command. -/
theorem witness_NonFatalErrorChangesNothingElse :
    (∃ t : State, exec (.ld .MODE [0x02]) State.reset = .next t ∧
      t.RSP = State.reset.RSP ++ errorResponse (Instr.ld .MODE [0x02]).opcode .invalidParameter) ∧
    (∃ t : State, exec .mkn (keyed 77) = .next t ∧
      t.RSP = (keyed 77).RSP ++ errorResponse Instr.mkn.opcode .wrongPhase) :=
  ⟨next_of_seen (by decide), next_of_seen (by decide)⟩

/-- The widest values that fit, in every phase named. -/
theorem witness_LoadWritesItsRegisterAndNothingElse :
    bitlen (fromBytes (List.replicate 512 0xFF)) ≤ State.reset.PARAMS.KMAX ∧
    fromBytes [0xFF, 0xFF, 0xFF, 0xFF] < 2 ^ 32 ∧ fromBytes [] = 0 ∧ fromBytes [0x00, 0x01] = 1 ∧
    State.reset.PHASE = .empty ∧ (keyed 77).PHASE = .keyed ∧ (ready 77 9).PHASE ≠ .failed := by
  decide +kernel

/-- The smallest values that do not fit. -/
theorem witness_LoadRefusesWhatDoesNotFit :
    (State.reset.PHASE ∈ legalPhases (.ld .P (0x01 :: List.replicate 512 0)) ∧
      State.reset.PARAMS.KMAX < bitlen (fromBytes (0x01 :: List.replicate 512 0))) ∧
    (State.reset.PHASE ∈ legalPhases (.ld .MODE [0x01, 0, 0, 0, 0]) ∧
      2 ^ 32 ≤ fromBytes [0x01, 0, 0, 0, 0]) ∧
    (State.reset.PHASE ∈ legalPhases (.ld .WHITEN [0x02]) ∧ 1 < fromBytes [0x02] ∧
      fromBytes [0x02] < 2 ^ 32) := by decide +kernel

theorem witness_LoadIsIdempotent :
    (∃ t : State, exec (.ld .P [0x0B]) State.reset = .next t ∧ t.P = 11) ∧
    (∃ t : State, exec (.ld .MODE [0x02]) State.reset = .next t ∧ t.ERR = .invalidParameter) :=
  ⟨next_of_seen (by decide), next_of_seen (by decide)⟩

theorem witness_ReadAnswersEveryRegisterAndWritesNone :
    (∀ r : Reg, r.select ≠ 0x08) ∧ ([0x00] : List Byte) ≠ [] :=
  ⟨fun r => by cases r <;> decide, by decide⟩

/-- T20 -/
theorem witness_GenkeyFormsTheModulus :
    drawing.PHASE = .empty ∧ drawing.PV = false ∧ drawing.QV = false ∧ 16 = drawing.KREQ.toNat ∧
    16 + 1 ≤ drawing.PARAMS.KMAX ∧ 2 = (16 / 2 + 1 + 7) / 8 ∧ 1 = (16 / 2 + 16 % 2 + 7) / 8 ∧
    answerTo .highQuality 2 drawing = .bytes [0xFF, 0x37] ∧
    findPrime drawing.PARAMS (forcedSeed (16 / 2 + 1) [0xFF, 0x37]) = some 331 ∧
    answerTo .highQuality 1 (afterAsking .highQuality 2 drawing) = .bytes [0x2A] ∧
    findPrime drawing.PARAMS (forcedSeed (16 / 2 + 16 % 2) [0x2A]) = some 179 ∧
    bitlen (331 * 179) ≤ drawing.PARAMS.KMAX := by decide +kernel

/-- T28, T25, T29: the edges of the three checks. -/
theorem witness_GenkeyChecksBeforeItDraws :
    State.reset.PHASE = .empty ∧ ({ State.reset with PV := true } : State).PV = true ∧
    ({ State.reset with KREQ := 15 } : State).KREQ.toNat < 16 ∧
    16 ≤ ({ State.reset with KREQ := 4096 } : State).KREQ.toNat ∧
    State.reset.PARAMS.KMAX < ({ State.reset with KREQ := 4096 } : State).KREQ.toNat + 1 := by decide

/-- T26, T27, and two seeds of nine ones in the smallest engine: 523 * 523 has 19 bits. -/
theorem witness_GenkeyDrawAndCapacityFailuresAreFatal :
    answerTo .highQuality 2 { drawing with ENTHQ := [.fail] } = .fail ∧
    answerTo .highQuality 1 (afterAsking .highQuality 2
      { drawing with ENTHQ := [.bytes [0xFF, 0x37], .fail] }) = .fail ∧
    17 + 1 ≤ tiny.KMAX ∧ forcedSeed (17 / 2 + 1) [0xFF, 0xFF] = 511 ∧
    forcedSeed (17 / 2 + 17 % 2) [0xFF, 0xFF] = 511 ∧ findPrime tiny 511 = some 523 ∧
    tiny.KMAX < bitlen (523 * 523) := by decide +kernel

/-- A first candidate that outgrows `KMAX`: no reference search can meet one (there is a suitable prime below), so the
witness is an open prime unit whose free value leaps. -/
theorem witness_GenkeyDrawAndCapacityFailuresAreFatal_leap (h : 2 ^ 18 ≤ Config.primeGap 0 511) :
    findPrime { tiny with PRIMES := .other 0 } 511 = none := by
  have h2 : tiny.KMAX < bitlen (511 + 1 + Config.primeGap 0 511) := by
    rw [lt_bitlen_iff]; simp only [tiny]; omega
  rw [findPrime, show 2 ^ ({ tiny with PRIMES := .other 0 } : Params).KMAX = 262143 + 1 from rfl, searchPrime]
  exact if_pos h2

theorem witness_PrimeSeedHasExactlyTheTargetLength :
    1 ≤ 1 ∧ forcedSeed 9 [0xFF, 0x37] = 311 ∧ forcedSeed 8 [0x2A] = 170 := by decide

/-- From 311 the third candidate, 331, is the first accepted one (T20); from 262143 the first has 19 bits. -/
theorem witness_PrimeSearchTakesTheFirstAcceptedCandidate :
    (∀ i ∈ [1, 2], bitlen (candidate tiny 311 i) ≤ tiny.KMAX ∧
      acceptsPrime tiny (candidate tiny 311 i) = false) ∧
    candidate tiny 311 3 = 331 ∧ bitlen 331 ≤ tiny.KMAX ∧ acceptsPrime tiny 331 = true ∧
    tiny.KMAX < bitlen (candidate tiny 262143 1) := by decide +kernel

theorem isLeastBlumPrimeAbove_iff (seed p : Nat) :
    IsLeastBlumPrimeAbove seed p ↔ seed < p ∧ isPrime p = true ∧ p % 4 = 3 ∧
      ∀ i < p, seed < i → ¬ (isPrime i = true ∧ i % 4 = 3) := by
  simp only [IsLeastBlumPrimeAbove, isPrime_iff]
  exact ⟨fun h => ⟨h.1, h.2.1, h.2.2.1, fun i h1 h2 => h.2.2.2 i h2 h1⟩,
    fun h => ⟨h.1, h.2.1, h.2.2.1, fun i h1 h2 => h.2.2.2 i h2 h1⟩⟩

theorem witness_ReferenceSearchFindsTheLeastBlumPrime :
    tiny.PRIMES = .reference ∧ IsLeastBlumPrimeAbove 311 331 ∧ bitlen 331 ≤ tiny.KMAX := by
  refine ⟨rfl, ?_, by decide⟩
  rw [isLeastBlumPrimeAbove_iff]; decide +kernel

/-- The least one above 2^18 - 1 has 19 bits. -/
theorem witness_ReferenceSearchFindsTheLeastBlumPrime_outgrown :
    IsLeastBlumPrimeAbove 262143 262147 ∧ tiny.KMAX < bitlen 262147 := by
  refine ⟨⟨by decide, by norm_num, by decide, fun c h1 h2 => ?_⟩, by decide +kernel⟩
  have : c % 4 ≠ 3 := by omega
  exact fun h => this h.2

theorem witness_PrimeFunctionsMeetTheirContract : Nat.Prime 2 ∧ Nat.Prime 331 := by norm_num

/-- 340 = 2^2 * 85 (45_modexp R217's example). -/
theorem witness_MillerRabinRoundTestsTheSquaresOfThePower :
    5 ≤ 341 ∧ 341 % 2 = 1 ∧ 2 ≤ 2 ∧ 2 + 2 ≤ 341 ∧ 341 - 1 = 2 ^ 2 * 85 ∧ 85 % 2 = 1 := by decide

/-- The least and the greatest base for 9. -/
theorem witness_MillerRabinRunsExactlyRepsAdmissibleRounds :
    5 ≤ 9 ∧ 9 % 2 = 1 ∧ ∀ a ∈ [2, 7], 2 ≤ a ∧ a + 2 ≤ 9 := by decide

/-- T20 -/
theorem witness_GeneratedKeyIsAtLeastAsLongAsRequested :
    drawing.PHASE = .empty ∧ ∃ t : State, exec .genkey drawing = .next t ∧ t.PHASE = .keyed :=
  ⟨rfl, next_of_seen (by decide +kernel)⟩

/-- T2B, T2C, T2F, T2E -/
theorem witness_MknFormsTheModulusFromSuppliedFactors :
    State.reset.PHASE = .empty ∧ (keyed 77).PHASE ∉ [Phase.empty] ∧
    ({ State.reset with P := 11, PV := true } : State).QV = false ∧ 1 * 1 < 2 ∧ 2 ≤ 2 * 1 ∧
    bitlen (2 * 1) ≤ State.reset.PARAMS.KMAX ∧ 2 ≤ 2 ^ 2100 * 2 ^ 2100 ∧
    State.reset.PARAMS.KMAX < bitlen (2 ^ 2100 * 2 ^ 2100) := by decide +kernel

/-- T61, T64 -/
theorem witness_SeedrSquaresTheFirstCoprimeDraw :
    (keyed 59249).PHASE = .keyed ∧ 2 ≤ (keyed 59249).N ∧ 2 = ((keyed 59249).KBL.toNat + 7) / 8 ∧
    answerTo .highQuality 2 { keyed 59249 with ENTHQ := [.bytes [0x02, 0x96]] } = .bytes [0x02, 0x96] ∧
    answerTo .highQuality 2 { keyed 59249 with ENTHQ := [.fail] } = .fail ∧
    State.reset.PHASE ∉ [Phase.keyed] := by decide +kernel

/-- T68, T67, and one bit too many. -/
theorem witness_SeedxSquaresTheSuppliedValue :
    (keyed 77).PHASE = .keyed ∧ 2 ≤ (keyed 77).N ∧ (ready 77 9).PHASE ∉ [Phase.keyed] ∧
    (keyed 77).PARAMS.KMAX < bitlen (fromBytes (0x01 :: List.replicate 512 0)) ∧
    (bitlen (fromBytes [0x0E]) ≤ (keyed 77).PARAMS.KMAX ∧ Nat.gcd (fromBytes [0x0E]) (keyed 77).N ≠ 1) ∧
    (bitlen (fromBytes [0x03]) ≤ (keyed 77).PARAMS.KMAX ∧ Nat.gcd (fromBytes [0x03]) (keyed 77).N = 1) := by
  decide +kernel

theorem witness_SqrAdvancesTheStateOnce :
    (ready 77 9).PHASE = .ready ∧ 1 ≤ (ready 77 9).N ∧ State.reset.PHASE ∉ [Phase.ready] := by decide

/-- In both modes and at the most bytes allowed. -/
theorem witness_ExtractAnswersTheBitStream :
    (ready 77 9).PHASE = .ready ∧ (ready 77 9).WHITEN = false ∧ 1 ≤ (ready 77 9).N ∧
    bitsPerSquaring (ready 77 9) = 2 ∧ bitsPerSquaring { ready 77 9 with MODE := .conservative } = 1 ∧
    fromBytes [0x01, 0x00, 0x00] = (ready 77 9).PARAMS.BMAX := by decide +kernel

/-- T44 -/
theorem witness_ExtractWhitenedCombinesThePad :
    ({ ready 272953 91251 with WHITEN := true } : State).PHASE = .ready ∧
    bitsPerSquaring { ready 272953 91251 with WHITEN := true } = 4 ∧
    answerTo .advisory (fromBytes [0x04])
      { ready 272953 91251 with WHITEN := true, ENTADV := [.bytes [0xA5, 0x5A, 0xFF, 0x00]] }
      = .bytes [0xA5, 0x5A, 0xFF, 0x00] := by decide +kernel

/-- T42, T43 -/
theorem witness_ExtractLosesWhiteningAndGoesOn :
    answerTo .advisory (fromBytes [0x04]) { ready 272953 91251 with WHITEN := true, ENTADV := [.fail] } = .fail ∧
    1 ≤ bitsPerSquaring { ready 272953 91251 with WHITEN := true, ENTADV := [.fail] } ∧
    1 ≤ fromBytes [0x04] ∧ fromBytes [0x04] ≤ (ready 272953 91251).PARAMS.BMAX := by decide +kernel

/-- T45 -/
theorem witness_ExtractOfZeroBytesDoesNothing :
    fromBytes [] = 0 ∧ fromBytes [0x00] = 0 ∧
    ({ ready 272953 91251 with WHITEN := true } : State).PHASE = .ready := by decide

/-- T46: one byte more than `BMAX`. -/
theorem witness_ExtractRefusesTooManyBytes :
    (ready 77 9).PHASE = .ready ∧ (ready 77 9).PARAMS.BMAX < fromBytes [0x01, 0x00, 0x01] ∧
    2 ^ 32 ≤ fromBytes [0x01, 0, 0, 0, 0] := by decide

/-- 24 bits are 8 squarings of 3 bits (T37); the next states are 26 (T38), 170 and 58 (by hand). -/
theorem witness_ExtractSplitsAtSquaringBoundaries :
    (ready 253 9).PHASE = .ready ∧ (ready 253 9).WHITEN = false ∧ bitsPerSquaring (ready 253 9) = 3 ∧
    fromBytes [0x04] = fromBytes [0x03] + fromBytes [0x01] ∧ 8 * fromBytes [0x03] % 3 = 0 ∧
    seen State.X (exec (.extract [0x03]) (ready 253 9)) = some 108 ∧
    seen State.X (exec (.extract [0x01]) (ready 253 108)) = some 58 ∧
    seen State.X (exec (.extract [0x04]) (ready 253 9)) = some 58 := by decide +kernel

theorem witness_ExtractionMachineAgreesWithTheLoop :
    1 ≤ 1 ∧ ([0xA5] : List Byte).length = 1 ∧ 1 ≤ bitsPerSquaring (ready 77 9) := by decide +kernel

/-- T50, and no digits at all. -/
theorem witness_DigitsAnswersTheDigitsOfTheRawNumber :
    5 = fromBytes [0x05] ∧ 10 = ({ ready 59249 30466 with BASE := 10 } : State).BASE.toNat ∧
    1 ≤ bitsPerSquaring { ready 59249 30466 with BASE := 10 } ∧
    10 ^ 5 ≤ 256 ^ 3 ∧ (∀ m < 3, 256 ^ m < 10 ^ 5) ∧ 3 ≤ (ready 59249 30466).PARAMS.BMAX ∧
    10 ^ 0 ≤ 256 ^ 0 ∧ (∀ m < 0, 256 ^ m < 10 ^ 0) := by decide +kernel

/-- T5H, T5I -/
theorem witness_DigitsWhitenedConvertsTheWhitenedBytes :
    answerTo .advisory 3 { ready 59249 30466 with WHITEN := true, ENTADV := [.bytes [0xFF, 0xFF, 0xFF]] }
      = .bytes [0xFF, 0xFF, 0xFF] ∧
    answerTo .advisory 3 { ready 59249 30466 with WHITEN := true, ENTADV := [.fail] } = .fail ∧
    1 ≤ bitsPerSquaring { ready 59249 30466 with WHITEN := true } ∧
    10 ^ 5 ≤ 256 ^ 3 ∧ (∀ m < 3, 256 ^ m < 10 ^ 5) := by decide +kernel

/-- T58 -/
theorem witness_DigitsOfCountZeroDoesNothing :
    fromBytes [] = 0 ∧ ({ ready 59249 30466 with BASE := 2 } : State).PHASE = .ready ∧
    2 ≤ ({ ready 59249 30466 with BASE := 2 } : State).BASE.toNat := by decide

/-- T5G, T5D, and in the smallest engine three decimal digits, which need two bytes. -/
theorem witness_DigitsChecksBeforeItExtracts :
    2 ^ 32 ≤ fromBytes [0x01, 0, 0, 0, 0] ∧ fromBytes [0x05] < 2 ^ 32 ∧
    ({ ready 59249 30466 with BASE := 1 } : State).BASE.toNat < 2 ∧ 256 ^ tiny.BMAX < 10 ^ fromBytes [0x03] := by
  decide

theorem witness_BinaryAndByteDigitsAreTheRawBits :
    5 ≤ 8 * ([0xBD] : List Byte).length ∧ 8 ≤ 8 * ([0xBD] : List Byte).length := by decide

theorem witness_ModexpIsTheReducedPower :
    ({ State.reset with M := 1 } : State).PHASE ≠ .failed ∧ ({ State.reset with M := 1 } : State).M ≠ 0 ∧
    State.reset.M = 0 ∧ failed.PHASE = .failed := by decide

/-- T77 -/
theorem witness_SquaringAgreesWithModexp :
    (ready 77 9).PHASE = .ready ∧ 1 ≤ (ready 77 9).N ∧ (∃ t : State, exec .sqr (ready 77 9) = .next t ∧ t.X = 4) ∧
    ∃ u : State, exec .modexp { ready 77 9 with B := (ready 77 9).X, E := 2, M := (ready 77 9).N } = .next u ∧
      u.R = 4 :=
  ⟨rfl, by decide, next_of_seen (by decide), next_of_seen (by decide +kernel)⟩

/-- T78 -/
theorem witness_PrimesPassTheFermatTestOnTheEngine :
    Nat.Prime 331 ∧ 2 ≤ 2 ∧ 2 + 2 ≤ 331 ∧ Nat.Prime 5 ∧ 3 + 2 ≤ 5 ∧
    ({ State.reset with B := 2, E := 330, M := 331 } : State).E = 331 - 1 :=
  ⟨by norm_num, by decide, by decide, by norm_num, by decide, by decide⟩

/-- The session of 95_test_vectors with `N = 77` and `X = 9`, the square of 3, meets the invariant. -/
theorem inv_ready : (ready 77 9).Inv where
  fitN := by decide +kernel
  fitX := by decide +kernel
  fitP := by decide +kernel
  fitQ := by decide +kernel
  fitB := by decide +kernel
  fitE := by decide +kernel
  fitM := by decide +kernel
  fitR := by decide +kernel
  length := by decide +kernel
  noP := by decide
  noQ := by decide
  empty := by decide
  keyed := by decide
  formed := by decide
  dropped := by decide
  kept := by decide
  below := by decide
  coprime := by decide
  residue := fun _ => ⟨3, by decide⟩
  failed := by decide

/-- The same session with a command waiting. -/
theorem inv_ready_waiting (cmd : List Byte) : ({ ready 77 9 with CMD := cmd } : State).Inv := by
  obtain ⟨⟩ := inv_ready
  constructor <;> assumption

theorem witness_StepKeepsTheRunInvariant :
    ({ ready 77 9 with CMD := [0x20, 0, 0, 0] } : State).Inv ∧
    ∃ t : State, step { ready 77 9 with CMD := [0x20, 0, 0, 0] } = .next t ∧ t.X = 4 :=
  ⟨inv_ready_waiting _, next_of_seen (by decide)⟩

/-- A whitened extraction whose port is silent. -/
theorem witness_OnlyASilentPortStopsTheEngine :
    ({ ready 77 9 with WHITEN := true, ENTADV := [.silent], CMD := [0x21, 0, 0, 0x01, 0x01] } : State).Inv ∧
    step { ready 77 9 with WHITEN := true, ENTADV := [.silent], CMD := [0x21, 0, 0, 0x01, 0x01] }
      = .fault .portSilent := by
  refine ⟨?_, by rfl⟩
  obtain ⟨⟩ := inv_ready
  constructor <;> assumption

theorem witness_EveryPacketIsAnsweredExactlyOnce :
    ({ ready 77 9 with CMD := [0x20, 0, 0, 0] } : State).Inv ∧
    decode ({ ready 77 9 with CMD := [0x20, 0, 0, 0] } : State).CMD ≠ .incomplete ∧
    (∃ t : State, step { ready 77 9 with CMD := [0x20, 0, 0, 0] } = .next t ∧ t.X = 4) ∧
    decode (ready 77 9).CMD = .incomplete ∧ ∃ t : State, step (ready 77 9) = .next t ∧ t.X = 9 :=
  ⟨inv_ready_waiting _, by decide, next_of_seen (by decide), by decide, next_of_seen (by decide)⟩

theorem witness_PhaseMovesFollowTheTable :
    ∃ t : State, exec (.seedx [0x03]) (keyed 77) = .next t ∧ t.PHASE = .ready :=
  next_of_seen (by decide)

theorem witness_ReadySessionKeepsItsConfiguration :
    (ready 77 9).PHASE = .ready ∧
    (∃ t : State, step { ready 77 9 with CMD := [0x20, 0, 0, 0] } = .next t ∧ t.PHASE = .ready) ∧
    ∃ t : State, step { ready 77 9 with CMD := [0x03, 0, 0, 0] } = .next t ∧ t.PHASE = .empty :=
  ⟨rfl, next_of_seen (by decide), next_of_seen (by decide)⟩

theorem witness_LaterBytesDoNotDisturbACommand :
    decode ({ ready 77 9 with CMD := [0x20, 0, 0, 0] } : State).CMD ≠ .incomplete ∧
    (∃ t : State, step { ready 77 9 with CMD := [0x20, 0, 0, 0] } = .next t ∧ t.CMD = []) ∧
    ∃ t : State, step (hostSend [0x21] { ready 77 9 with CMD := [0x20, 0, 0, 0] }) = .next t ∧ t.CMD = [0x21] :=
  ⟨by decide, next_of_seen (by decide), next_of_seen (by decide)⟩

/-- The request at which a whitened extraction hangs, and the two of `GENKEY` with T27's answers. -/
theorem witness_WaitsAt :
    WaitsAt (.extract [0x01]) { ready 77 9 with WHITEN := true, ENTADV := [.silent] } 0 ∧
    OkBefore .genkey { drawing with ENTHQ := [.bytes [0xFF, 0x37], .fail] } 1 ∧
    answerAt .genkey { drawing with ENTHQ := [.bytes [0xFF, 0x37], .fail] } 1 = some .fail := by
  refine ⟨⟨nofun, by decide +kernel⟩, fun j hj => ⟨[0xFF, 0x37], ?_⟩, by decide +kernel⟩
  obtain rfl : j = 0 := by omega
  decide +kernel

theorem witness_ResetSeesTheRequestsTheCommandMakes :
    (∃ t : State, exec .genkey { drawing with ENTHQ := [.bytes [0xFF, 0x37], .fail] } = .next t ∧
      t.ASKED = [⟨.highQuality, 2⟩, ⟨.highQuality, 1⟩]) ∧
    exec .seedr { keyed 77 with ENTHQ := [.silent] } = .fault .portSilent :=
  ⟨next_of_seen (by decide +kernel), by rfl⟩

/-- T60: a request is made and the command does not end with an error; T64: a request and an error. -/
theorem witness_EntropyRequestsFollowTheTable :
    (∃ t : State, exec .seedr { keyed 59249 with ENTHQ := [.bytes [0x12, 0x34]] } = .next t ∧
      t.RSP = okResponse 0x12 [0x77, 0x02]) ∧
    ∃ t : State, exec .seedr { keyed 59249 with ENTHQ := [.fail] } = .next t ∧
      t.ASKED = [⟨.highQuality, 2⟩] :=
  ⟨next_of_seen (by decide +kernel), next_of_seen (by decide +kernel)⟩

theorem witness_GeneratorIgnoresTheExponentiationRegisters :
    leavesOperands .sqr = true ∧ leavesOperands (.extract [0x01]) = true ∧
    ∃ t : State, exec .sqr (ready 77 9) = .next t ∧ t.X = 4 :=
  ⟨rfl, rfl, next_of_seen (by decide)⟩

/-- T20's first draw answered and its second not; T5H with a silent port. -/
theorem witness_SilentPortHangsTheCommandThatAsks :
    answerTo .highQuality ((drawing.KREQ.toNat / 2 + 1 + 7) / 8) { drawing with ENTHQ := [.silent] } = .silent ∧
    answerTo .highQuality ((drawing.KREQ.toNat / 2 + 1 + 7) / 8)
      { drawing with ENTHQ := [.bytes [0xFF, 0x37], .silent] } = .bytes [0xFF, 0x37] ∧
    findPrime drawing.PARAMS (forcedSeed (drawing.KREQ.toNat / 2 + 1) [0xFF, 0x37]) = some 331 ∧
    answerTo .highQuality ((drawing.KREQ.toNat / 2 + drawing.KREQ.toNat % 2 + 7) / 8)
      (afterAsking .highQuality ((drawing.KREQ.toNat / 2 + 1 + 7) / 8)
        { drawing with ENTHQ := [.bytes [0xFF, 0x37], .silent] }) = .silent ∧
    answerTo .highQuality (((keyed 77).KBL.toNat + 7) / 8) { keyed 77 with ENTHQ := [.silent] } = .silent ∧
    answerTo .advisory (fromBytes [0x01]) { ready 77 9 with WHITEN := true, ENTADV := [.silent] } = .silent ∧
    answerTo .advisory 3 { ready 59249 30466 with WHITEN := true, ENTADV := [.silent] } = .silent ∧
    10 ^ fromBytes [0x05] ≤ 256 ^ 3 ∧ (∀ m < 3, 256 ^ m < 10 ^ fromBytes [0x05]) := by
  decide +kernel

theorem witness_UndefinedArithmeticStopsByName :
    (keyed 0).PHASE = .keyed ∧ (keyed 0).N = 0 ∧ bitlen (fromBytes [0x01]) ≤ (keyed 0).PARAMS.KMAX ∧
    Nat.gcd (fromBytes [0x01]) (keyed 0).N = 1 ∧ (ready 0 0).PHASE = .ready ∧ (ready 0 0).N = 0 ∧
    1 ≤ fromBytes [0x01] ∧ fromBytes [0x01] ≤ (ready 0 0).PARAMS.BMAX ∧ 1 ≤ (ready 1 0).N ∧
    bitsPerSquaring (ready 1 0) = 0 ∧ 2 ≤ ({ ready 1 0 with BASE := 10 } : State).BASE.toNat ∧
    10 ^ fromBytes [0x01] ≤ 256 ^ tiny.BMAX := by decide +kernel

end Sys2Proof.Machine
end

section
/-!
The reset values, `CLR`, and format N for every opcode that has it.
-/

namespace Sys2Proof

/-! ### Format N -/

@[simp] theorem decodeN_zero_nil (i : Instr) : decodeN i 0 [] = .ok i := rfl

/-- Format N rejects every other select and every payload (30_encoding R97 (b), (c)). -/
theorem decodeN_error {a : Byte} {payload : List Byte} (i : Instr) (h : a ≠ 0 ∨ payload ≠ []) :
    ∃ why : Illegal, decodeN i a payload = .error why := by
  cases hd : decodeN i a payload with
  | error why => exact ⟨why, rfl⟩
  | ok j =>
    obtain ⟨ha, hp, -⟩ := decodeN_ok hd
    exact (h.elim (· ha) (· hp)).elim

end Sys2Proof

namespace Sys2Proof.Machine

/-- An opcode whose packets are decoded by format N has that format on the stream. -/
theorem formatN_of_decodePacket {op : Byte} {i : Instr}
    (h : ∀ (a : Byte) (payload : List Byte), decodePacket op a payload = decodeN i a payload) :
    FormatN op i := by
  constructor
  · intro rest
    exact (decode_packet op 0 [] rest (by simp)).1 i (by rw [h, decodeN_zero_nil])
  · intro a payload rest hlen hbad
    obtain ⟨why, hwhy⟩ := decodeN_error i hbad
    exact ⟨why, (decode_packet op a payload rest hlen).2 why (by rw [h, hwhy])⟩

theorem formatN_clr : FormatN 0x03 .clr := formatN_of_decodePacket fun _ _ => rfl

/-! ### Completion with an `OK` response -/

theorem responsePacket_ok (op : Byte) (payload : List Byte) :
    responsePacket op .ok payload = okResponse op payload := rfl

@[simp] theorem errAfter_ok (old : Status) : errAfter .ok old = old := rfl

/-- A response with status `OK` leaves `ERR` (10_state R29). -/
theorem respond_ok (op : Byte) (payload : List Byte) (s : State) :
    respond op .ok payload s = { s with RSP := s.RSP ++ okResponse op payload } := by
  simp only [respond, errAfter_ok, responsePacket_ok]

/-- A legal command whose body ends with status `OK`. -/
theorem exec_ok {i : Instr} {s u : State} {payload : List Byte} (hr : readOnlyLoad i = false)
    (hl : legalIn i s.PHASE = true) (hb : bodyOf i s = .got (.ok, payload) u) :
    exec i s = .next { u with RSP := u.RSP ++ okResponse i.opcode payload } := by
  rw [exec_eq s hr, runCommand_got hl hb, respond_ok]

/-- `CLR` is legal in every phase (40_transfer_system R122). -/
theorem exec_clr (s : State) :
    exec .clr s =
      .next { clearRegisters s with RSP := s.RSP ++ okResponse Instr.clr.opcode [] } :=
  exec_ok rfl rfl rfl

/-! ### The obligation -/

/-- Settles O1: reset by its definition, `CLR` by its format and its completion in every phase. -/
theorem resetAndClrLeaveTheStatedValues : Obligations.ResetAndClrLeaveTheStatedValues :=
  ⟨by decide, formatN_clr, exec_clr⟩

end Sys2Proof.Machine
end

section
/-!
One response per packet (20_memory R62): the opcode it carries, what a body leaves of `RSP` and `ERR`, how long its
payload can be in a run, and the step.
-/

namespace Sys2Proof

/-! ### The opcode of a packet -/

/-- The opcode map (30_encoding R96) read backwards: what a packet decodes to has the packet's opcode. -/
theorem opcode_of_decodePacket {op a : Byte} {payload : List Byte} {i : Instr}
    (h : decodePacket op a payload = .ok i) : i.opcode = op := by
  unfold decodePacket at h
  obtain ⟨rfl, h⟩ | ⟨-, h⟩ := ite_eq_iff.1 h
  · obtain ⟨r, -, -, rfl⟩ := decodeL_ok h; rfl
  obtain ⟨rfl, h⟩ | ⟨-, h⟩ := ite_eq_iff.1 h
  · obtain ⟨r, -, -, rfl⟩ := decodeR_ok h; rfl
  obtain ⟨rfl, h⟩ | ⟨-, h⟩ := ite_eq_iff.1 h
  · obtain ⟨-, -, rfl⟩ := decodeN_ok h; rfl
  obtain ⟨rfl, h⟩ | ⟨-, h⟩ := ite_eq_iff.1 h
  · obtain ⟨-, -, rfl⟩ := decodeN_ok h; rfl
  obtain ⟨rfl, h⟩ | ⟨-, h⟩ := ite_eq_iff.1 h
  · obtain ⟨-, -, rfl⟩ := decodeN_ok h; rfl
  obtain ⟨rfl, h⟩ | ⟨-, h⟩ := ite_eq_iff.1 h
  · obtain ⟨-, -, rfl⟩ := decodeN_ok h; rfl
  obtain ⟨rfl, h⟩ | ⟨-, h⟩ := ite_eq_iff.1 h
  · obtain ⟨-, rfl⟩ := decodeV_ok h; rfl
  obtain ⟨rfl, h⟩ | ⟨-, h⟩ := ite_eq_iff.1 h
  · obtain ⟨-, -, rfl⟩ := decodeN_ok h; rfl
  obtain ⟨rfl, h⟩ | ⟨-, h⟩ := ite_eq_iff.1 h
  · obtain ⟨-, rfl⟩ := decodeV_ok h; rfl
  obtain ⟨rfl, h⟩ | ⟨-, h⟩ := ite_eq_iff.1 h
  · obtain ⟨-, rfl⟩ := decodeV_ok h; rfl
  obtain ⟨rfl, h⟩ | ⟨-, h⟩ := ite_eq_iff.1 h
  · obtain ⟨-, -, rfl⟩ := decodeN_ok h; rfl
  cases h

/-- A stream with a whole packet at its front begins with an opcode, under which that packet is illegal or a command. -/
theorem decode_opcode {bs : List Byte} (h : decode bs ≠ .incomplete) :
    ∃ op, bs.head? = some op ∧
      ((∃ why rest, decode bs = .illegal op why rest) ∨
       (∃ i rest, i.opcode = op ∧ decode bs = .command i rest)) := by
  obtain ⟨op, a, payload, rest, hlen, rfl⟩ := decode_front h
  obtain ⟨hok, herr⟩ := decode_packet op a payload rest hlen
  refine ⟨op, rfl, ?_⟩
  cases hd : decodePacket op a payload with
  | error why => exact .inl ⟨why, rest, herr why hd⟩
  | ok i => exact .inr ⟨i, rest, opcode_of_decodePacket hd, hok i hd⟩

end Sys2Proof

namespace Sys2Proof.Machine

/-! ### The invariant says what fits -/

theorem inv_withStream {s : State} (h : s.Inv) (rest : List Byte) : (s.withStream rest).Inv := by
  obtain ⟨⟩ := h
  constructor <;> assumption

/-- Every big register fits, whichever one is read (10_state R21). -/
theorem bitlen_readReg_le {s : State} (h : s.Inv) {r : Reg} (hr : r.isBig = true) :
    bitlen (readReg r s) ≤ s.PARAMS.KMAX := by
  cases r with
  | N => exact h.fitN
  | X => exact h.fitX
  | P => exact h.fitP
  | Q => exact h.fitQ
  | B => exact h.fitB
  | E => exact h.fitE
  | M => exact h.fitM
  | R => exact h.fitR
  | KREQ | KBL | MODE | WHITEN | BASE | STATUS => cases hr

/-! ### Lengths of response payloads -/

/-- What fits a big register is at most 65535 bytes long (00_scope R5, R8). -/
theorem toBytes_length_le {v : Nat} (ps : Params) (h : bitlen v ≤ ps.KMAX) :
    (toBytes v).length ≤ 65535 := by
  rw [toBytes, toBytesN_length, bytesFor_le_iff]
  have := ps.kmax_le
  omega

theorem readPayload_length_le {s : State} (h : s.Inv) (r : Reg) : (readPayload r s).length ≤ 65535 := by
  unfold readPayload
  split
  · next hr => exact toBytes_length_le s.PARAMS (bitlen_readReg_le h hr)
  · simp

theorem modulusPayload_length_le {s : State} (h : bitlen s.N ≤ s.PARAMS.KMAX) :
    (modulusPayload s).length ≤ 4 + 65535 := by
  have := toBytes_length_le s.PARAMS h
  rw [modulusPayload, List.length_append, toBytesN_length]
  omega

/-- A square modulo `N` is below `N`, so it is as short. -/
theorem bitlen_squareMod_le {s : State} (h : s.Inv) (hN : s.N ≠ 0) (x : Nat) :
    bitlen (squareMod s.N x) ≤ s.PARAMS.KMAX :=
  (bitlen_mono (Nat.mod_lt _ (Nat.pos_of_ne_zero hN)).le).trans h.fitN

/-- An extraction gives the bytes asked for (43_square_extract R178). -/
theorem extractBytes_length {n : Nat} {out : List Byte × Bool} {s u : State}
    (h : extractBytes n s = .got out u) : out.1.length = n := by
  rcases extractBytes_got h with ⟨rfl, rfl, -⟩ | ⟨-, -, -, pad, v, hpad, rfl, -⟩
  · rfl
  · simp [xorBytes, (fetchPad_got hpad).1]

theorem digitsPayload_length (base : Nat) (ds : List Nat) :
    (digitsPayload base ds).length = ds.length * digitWidth base := by
  simp [digitsPayload, List.length_flatMap]

/-- Digits in whole bytes take no more than 8 times the raw bytes: a digit of `b` bits has at most `max 1 (b - 1)` bytes,
and `2^(b-1) < base` (44_radix R200, R204). -/
theorem mul_digitWidth_le {base count bmax : Nat} (hb : 2 ≤ base) (hc : count ≤ 8 * bmax)
    (hraw : byteCount base count ≤ bmax) : count * digitWidth base ≤ 8 * bmax := by
  obtain ⟨b, hbits⟩ : ∃ b, bitlen (base - 1) = b := ⟨_, rfl⟩
  have hlow : 2 ^ (b - 1) ≤ base := by
    have := two_pow_le_of_bitlen (v := base - 1) (by omega)
    rw [hbits] at this
    omega
  have hpow : 2 ^ ((b - 1) * count) ≤ 2 ^ (8 * bmax) :=
    calc 2 ^ ((b - 1) * count) = (2 ^ (b - 1)) ^ count := pow_mul 2 (b - 1) count
      _ ≤ base ^ count := Nat.pow_le_pow_left hlow count
      _ ≤ 256 ^ bmax := (byteCount_le_iff count bmax (by omega)).1 hraw
      _ = 2 ^ (8 * bmax) := pow_mul 2 8 bmax |>.symm
  have hle : (b - 1) * count ≤ 8 * bmax := (Nat.pow_le_pow_iff_right (by decide)).1 hpow
  rw [digitWidth, hbits]
  rcases Nat.lt_or_ge b 2 with h1 | h2
  · have hw : bytesFor b ≤ 1 := (bytesFor_le_iff b 1).2 (by omega)
    exact ((Nat.mul_le_mul_left count hw).trans_eq (Nat.mul_one count)).trans hc
  · have hw : bytesFor b ≤ b - 1 := (bytesFor_le_iff b (b - 1)).2 (by omega)
    exact ((Nat.mul_le_mul_left count hw).trans_eq (Nat.mul_comm count (b - 1))).trans hle

/-! ### What a body leaves of `RSP` and `ERR` -/

theorem extractBytes_frame {n : Nat} {out : List Byte × Bool} {s u : State}
    (h : extractBytes n s = .got out u) : u.RSP = s.RSP ∧ u.ERR = s.ERR := by
  rcases extractBytes_got h with ⟨-, -, rfl⟩ | ⟨-, -, -, pad, v, hpad, -, rfl⟩
  · exact ⟨rfl, rfl⟩
  · obtain ⟨-, ⟨-, -, rfl⟩ | ⟨-, -, -, rfl⟩ | ⟨-, -, -, rfl⟩⟩ := fetchPad_got hpad <;> exact ⟨rfl, rfl⟩

/-- A body that is done has written no response, and `ERR` only where it is `CLR`'s. -/
theorem bodyOf_got_frame {i : Instr} {s u : State} {reply : Reply} (h : bodyOf i s = .got reply u) :
    u.RSP = s.RSP ∧ u.ERR = if i.opcode = 0x03 then .ok else s.ERR := by
  cases i with
  | ld r payload => obtain ⟨-, rfl, -⟩ := loadBody_got h; exact ⟨loadReg_RSP .., loadReg_ERR ..⟩
  | rd r => cases h; exact ⟨rfl, rfl⟩
  | clr => cases h; exact ⟨rfl, rfl⟩
  | genkey =>
    obtain ⟨-, -, -, -, p, q, s₁, s₂, h₁, h₂, -, rfl, -⟩ := genkeyBody_got h
    obtain ⟨rfl, -⟩ := genPrime_got h₁
    obtain ⟨rfl, -⟩ := genPrime_got h₂
    exact ⟨rfl, rfl⟩
  | mkn => obtain ⟨-, -, -, -, rfl, -⟩ := mknBody_got h; exact ⟨rfl, rfl⟩
  | seedr => obtain ⟨-, _, _, -, -, rfl, -⟩ := seedrBody_got h; exact ⟨rfl, rfl⟩
  | seedx payload => obtain ⟨-, -, -, rfl, -⟩ := seedxBody_got h; exact ⟨rfl, rfl⟩
  | sqr => obtain ⟨-, rfl, -⟩ := sqrBody_got h; exact ⟨rfl, rfl⟩
  | extract payload => obtain ⟨-, -, out, ho, -⟩ := extractBody_got h; exact extractBytes_frame ho
  | digits payload => obtain ⟨-, -, -, -, out, ho, -⟩ := digitsBody_got h; exact extractBytes_frame ho
  | modexp => obtain ⟨-, rfl, -⟩ := modexpBody_got h; exact ⟨rfl, rfl⟩

/-- A body that raises has written no response. -/
theorem bodyOf_raised_RSP {i : Instr} {s u : State} {e : Status} (h : bodyOf i s = .raised e u) :
    u.RSP = s.RSP := by
  obtain ⟨-, rfl | ⟨-, -, rfl | rfl⟩ | ⟨-, rfl⟩⟩ := bodyOf_raised h <;> rfl

/-- No body raises `OK` or `ArithmeticError` (60_exceptions R240). -/
theorem bodyOf_raised_status {i : Instr} {s u : State} {e : Status} (h : bodyOf i s = .raised e u) :
    e ≠ .ok ∧ e ≠ .arithmeticError := by
  obtain ⟨rfl | rfl | rfl, -⟩ := bodyOf_raised h <;> exact ⟨nofun, nofun⟩

/-! ### The reply of a body that is done -/

theorem extractStatus_done (lost : Bool) :
    extractStatus lost = .ok ∨ extractStatus lost = .whiteningUnavailable := by
  cases lost
  · exact .inl rfl
  · exact .inr rfl

/-- A command that is done answers with `OK` or the loss of whitening (30_encoding R94). -/
theorem bodyOf_got_status {i : Instr} {s u : State} {reply : Reply} (h : bodyOf i s = .got reply u) :
    reply.1 = .ok ∨ reply.1 = .whiteningUnavailable := by
  cases i with
  | ld r payload => obtain ⟨rfl, -⟩ := loadBody_got h; exact .inl rfl
  | rd r => cases h; exact .inl rfl
  | clr => cases h; exact .inl rfl
  | genkey => obtain ⟨-, -, -, -, _, _, _, _, -, -, -, -, rfl⟩ := genkeyBody_got h; exact .inl rfl
  | mkn => obtain ⟨-, -, -, -, -, rfl⟩ := mknBody_got h; exact .inl rfl
  | seedr => obtain ⟨-, _, _, -, -, -, rfl⟩ := seedrBody_got h; exact .inl rfl
  | seedx payload => obtain ⟨-, -, -, -, rfl⟩ := seedxBody_got h; exact .inl rfl
  | sqr => obtain ⟨-, -, rfl⟩ := sqrBody_got h; exact .inl rfl
  | extract payload => obtain ⟨-, -, out, -, rfl⟩ := extractBody_got h; exact extractStatus_done _
  | digits payload => obtain ⟨-, -, -, -, out, -, rfl⟩ := digitsBody_got h; exact extractStatus_done _
  | modexp => obtain ⟨-, -, rfl⟩ := modexpBody_got h; exact .inl rfl

/-- In a run `RLEN` holds the length of every payload (30_encoding R94, log entry 14). -/
theorem bodyOf_got_payload_length {i : Instr} {s u : State} {reply : Reply} (hs : s.Inv)
    (h : bodyOf i s = .got reply u) : reply.2.length < 2 ^ 32 := by
  have hmax := s.PARAMS.bmax_le
  cases i with
  | ld r payload => obtain ⟨rfl, -⟩ := loadBody_got h; simp
  | rd r => cases h; exact (readPayload_length_le hs r).trans_lt (by decide)
  | clr => cases h; simp
  | genkey =>
    obtain ⟨-, -, -, -, p, q, s₁, s₂, -, -, hfit, rfl, rfl⟩ := genkeyBody_got h
    exact (modulusPayload_length_le (s := writeGenerated p q s₂) hfit).trans_lt (by decide)
  | mkn =>
    obtain ⟨-, -, -, hfit, rfl, rfl⟩ := mknBody_got h
    exact (modulusPayload_length_le (s := writeSupplied s) hfit).trans_lt (by decide)
  | seedr =>
    obtain ⟨hN, bs, x, -, -, rfl, rfl⟩ := seedrBody_got h
    exact (toBytes_length_le s.PARAMS (bitlen_squareMod_le hs hN x)).trans_lt (by decide)
  | seedx payload =>
    obtain ⟨hN, -, -, rfl, rfl⟩ := seedxBody_got h
    exact (toBytes_length_le s.PARAMS (bitlen_squareMod_le hs hN _)).trans_lt (by decide)
  | sqr => obtain ⟨-, -, rfl⟩ := sqrBody_got h; simp
  | extract payload =>
    obtain ⟨hn, -, out, ho, rfl⟩ := extractBody_got h
    exact (extractBytes_length ho).trans_lt hn
  | digits payload =>
    obtain ⟨-, hbase, hraw, hcount, out, -, rfl⟩ := digitsBody_got h
    have := mul_digitWidth_le hbase hcount hraw
    rw [digitsPayload_length, (digitsOf_spec _ _ (by omega)).1]
    omega
  | modexp =>
    obtain ⟨hM, -, rfl⟩ := modexpBody_got h
    have hlt := Nat.mod_lt (s.B ^ s.E) (Nat.pos_of_ne_zero hM)
    exact (toBytes_length_le s.PARAMS ((bitlen_mono hlt.le).trans hs.fitM)).trans_lt (by decide)

/-! ### One response -/

/-- From `s` to `t` exactly one response under the opcode `op` has been appended, and `ERR` is the latest status that was
not `OK`, which `CLR` clears (20_memory R62, 10_state R29, 30_encoding R94). -/
def AnsweredOnce (op : Byte) (s t : State) : Prop :=
  ∃ (st : Status) (payload : List Byte),
    st ≠ .arithmeticError ∧ payload.length < 2 ^ 32 ∧
    (st = .ok ∨ st = .whiteningUnavailable ∨ payload = []) ∧
    t.RSP = s.RSP ++ responsePacket op st payload ∧
    t.ERR = if st = .ok then (if op = 0x03 then .ok else s.ERR) else st

/-- An error's response has no payload (30_encoding R99). -/
theorem answeredOnce_respond_error {op : Byte} {e : Status} {s u : State} (he : e ≠ .ok)
    (ha : e ≠ .arithmeticError) (hu : u.RSP = s.RSP) : AnsweredOnce op s (respond op e [] u) :=
  ⟨e, [], ha, by simp, .inr (.inr rfl), by rw [respond_RSP, hu],
    by rw [respond_ERR, errAfter_error he, if_neg he]⟩

theorem answeredOnce_raiseError {i : Instr} {e : Status} {s u : State} (he : e ≠ .ok)
    (ha : e ≠ .arithmeticError) (hu : u.RSP = s.RSP) : AnsweredOnce i.opcode s (raiseError i e u) :=
  answeredOnce_respond_error he ha (by split <;> exact hu)

/-- A command that completes in a run answers once. -/
theorem answeredOnce_of_exec {i : Instr} {s t : State} (hs : s.Inv) (h : exec i s = .next t) :
    AnsweredOnce i.opcode s t := by
  obtain (⟨-, rfl⟩ | ⟨-, rfl⟩) | ⟨-, -, ⟨reply, u, hb, rfl⟩ | ⟨e, u, hb, rfl⟩⟩ := exec_cases h
  · exact answeredOnce_raiseError nofun nofun rfl
  · exact answeredOnce_raiseError nofun nofun rfl
  · obtain ⟨hrsp, herr⟩ := bodyOf_got_frame hb
    have hst := bodyOf_got_status hb
    refine ⟨reply.1, reply.2, ?_, bodyOf_got_payload_length hs hb, ?_, by rw [respond_RSP, hrsp],
      by rw [respond_ERR, errAfter, herr]⟩
    · rcases hst with h | h <;> rw [h] <;> exact nofun
    · exact hst.imp_right .inl
  · obtain ⟨hok, harith⟩ := bodyOf_raised_status hb
    exact answeredOnce_raiseError hok harith (bodyOf_raised_RSP hb)

/-! ### The step while the reset input is low -/

/-- With no whole packet the engine is idle (60_exceptions R255). -/
theorem step_incomplete {s : State} (hlow : s.RESETLINE = .low) (hd : decode s.CMD = .incomplete) :
    step s = .next s := by
  simp only [step, hlow, hd]

theorem step_illegal {s : State} {op : Byte} {why : Illegal} {rest : List Byte} (hlow : s.RESETLINE = .low)
    (hd : decode s.CMD = .illegal op why rest) :
    step s = .next (illegalPacket op (s.withStream rest)) := by
  simp only [step, hlow, hd]

theorem step_command {s : State} {i : Instr} {rest : List Byte} (hlow : s.RESETLINE = .low)
    (hd : decode s.CMD = .command i rest) : step s = exec i (s.withStream rest) := by
  simp only [step, hlow, hd]

/-- A step that consumes a packet answers once, under the packet's first byte. -/
theorem answeredOnce_of_step {s t : State} (hs : s.Inv) (hlow : s.RESETLINE = .low)
    (hd : decode s.CMD ≠ .incomplete) (h : step s = .next t) :
    ∃ op, s.CMD.head? = some op ∧ AnsweredOnce op s t := by
  obtain ⟨op, hop, ⟨why, rest, hi⟩ | ⟨i, rest, rfl, hi⟩⟩ := decode_opcode hd
  · rw [step_illegal hlow hi] at h
    cases h
    exact ⟨op, hop, answeredOnce_respond_error nofun nofun rfl⟩
  · rw [step_command hlow hi] at h
    have hans : AnsweredOnce i.opcode (s.withStream rest) t :=
      answeredOnce_of_exec (inv_withStream hs rest) h
    exact ⟨i.opcode, hop, hans⟩

/-! ### The obligation -/

/-- Settles O48: no packet leaves the engine idle, and a packet is answered once, illegal or run. -/
theorem everyPacketIsAnsweredExactlyOnce : Obligations.EveryPacketIsAnsweredExactlyOnce := by
  intro s t hs hlow h
  refine ⟨fun hd => ?_, fun hd => ?_⟩
  · rw [step_incomplete hlow hd] at h
    cases h
    rfl
  · obtain ⟨op, hop, st, payload, hst, hlen, hpay, hrsp, herr⟩ := answeredOnce_of_step hs hlow hd h
    exact ⟨op, st, payload, hop, hst, hlen, hpay, hrsp, herr⟩

end Sys2Proof.Machine
end

section
/-!
The illegal encodings of 30_encoding R97: what each format rejects, what that is in terms of (a) to (e), and the step on
such a packet.
-/

namespace Sys2Proof

/-! ### The select space -/

/-- Every select number but those of 20_memory R67 is reserved. -/
theorem regOfSelect_eq_none_iff (a : Byte) :
    regOfSelect a = none ↔
      a ∉ [0x00, 0x01, 0x02, 0x03, 0x04, 0x05, 0x06, 0x07, 0x10, 0x11, 0x12, 0x13, 0x14, 0x15] := by
  simp [regOfSelect, ite_eq_iff]

/-- The selects that `LD` never writes (30_encoding R97 (e)). -/
theorem loadable_eq_false_iff (r : Reg) :
    r.loadable = false ↔ r.select ∈ [0x00, 0x01, 0x07, 0x11, 0x15] := by
  cases r <;> decide

/-! ### What a format rejects -/

theorem decodeN_error_iff (i : Instr) (a : Byte) (payload : List Byte) :
    (∃ why, decodeN i a payload = .error why) ↔ a ≠ 0 ∨ payload.length ≠ 0 := by
  rw [decodeN]
  split_ifs with ha hlen
  · exact iff_of_true ⟨_, rfl⟩ (.inl ha)
  · exact iff_of_true ⟨_, rfl⟩ (.inr hlen)
  · exact iff_of_false nofun (not_or.2 ⟨ha, hlen⟩)

theorem decodeV_error_iff (f : List Byte → Instr) (a : Byte) (payload : List Byte) :
    (∃ why, decodeV f a payload = .error why) ↔ a ≠ 0 := by
  rw [decodeV]
  split_ifs with ha
  · exact iff_of_true ⟨_, rfl⟩ ha
  · exact iff_of_false nofun ha

theorem decodeL_error_iff (a : Byte) (payload : List Byte) :
    (∃ why, decodeL a payload = .error why) ↔
      regOfSelect a = none ∨ a ∈ [0x00, 0x01, 0x07, 0x11, 0x15] := by
  rw [decodeL]
  cases hr : regOfSelect a with
  | none => simp
  | some r =>
    rw [← select_of_regOfSelect hr, ← loadable_eq_false_iff]
    by_cases hl : r.loadable = true <;> simp [hl]

theorem decodeR_error_iff (a : Byte) (payload : List Byte) :
    (∃ why, decodeR a payload = .error why) ↔ regOfSelect a = none ∨ payload.length ≠ 0 := by
  rw [decodeR]
  cases regOfSelect a with
  | none => simp
  | some r => by_cases hlen : payload.length = 0 <;> simp [hlen]

/-! ### The format of every opcode -/

/-- The eleven opcodes (30_encoding R96). -/
def opcodes : List Byte := [0x01, 0x02, 0x03, 0x10, 0x11, 0x12, 0x13, 0x20, 0x21, 0x22, 0x30]

/-- How the fields after an opcode are read: the format of 30_encoding R96, and that the commands it reads are
well-formed where their payload fits. -/
inductive ReadsAs : Byte → (Byte → List Byte → Except Illegal Instr) → Prop
  | formatL : ReadsAs 0x01 decodeL
  | formatR : ReadsAs 0x02 decodeR
  | formatN {op : Byte} {i : Instr} (hop : op ∈ [0x03, 0x10, 0x11, 0x12, 0x20, 0x30])
      (hi : i.wellFormed = true) : ReadsAs op (decodeN i)
  | formatV {op : Byte} {f : List Byte → Instr} (hop : op ∈ [0x13, 0x21, 0x22])
      (hf : ∀ payload, (f payload).wellFormed = payloadFits payload) : ReadsAs op (decodeV f)
  | unknown {op : Byte} (hop : op ∉ opcodes) : ReadsAs op fun _ _ => .error .unknownOpcode

theorem decodePacket_unknown {op : Byte} (h : op ∉ opcodes) :
    decodePacket op = fun _ _ => .error .unknownOpcode := by
  simp only [opcodes, BitVec.ofNat_eq_ofNat, List.mem_cons, List.not_mem_nil, or_false, not_or] at h
  funext a payload
  simp [decodePacket, h]

/-- The opcode map of 30_encoding R96, one format per opcode. -/
theorem readsAs_decodePacket (op : Byte) : ReadsAs op (decodePacket op) := by
  by_cases hop : op ∈ opcodes
  · simp only [opcodes, List.mem_cons, List.not_mem_nil, or_false] at hop
    obtain rfl | rfl | rfl | rfl | rfl | rfl | rfl | rfl | rfl | rfl | rfl := hop
    · exact .formatL
    · exact .formatR
    · exact .formatN (i := .clr) (by decide) rfl
    · exact .formatN (i := .genkey) (by decide) rfl
    · exact .formatN (i := .mkn) (by decide) rfl
    · exact .formatN (i := .seedr) (by decide) rfl
    · exact .formatV (f := .seedx) (by decide) fun _ => rfl
    · exact .formatN (i := .sqr) (by decide) rfl
    · exact .formatV (f := .extract) (by decide) fun _ => rfl
    · exact .formatV (f := .digits) (by decide) fun _ => rfl
    · exact .formatN (i := .modexp) (by decide) rfl
  · rw [decodePacket_unknown hop]
    exact .unknown hop

/-- What a packet decodes to is well-formed where its payload fits `LEN`. -/
theorem wellFormed_of_decodePacket {op a : Byte} {payload : List Byte} {i : Instr}
    (hlen : payload.length ≤ 65535) (h : decodePacket op a payload = .ok i) : i.wellFormed = true := by
  have hfits : payloadFits payload = true := decide_eq_true hlen
  have hr := readsAs_decodePacket op
  generalize decodePacket op = d at h hr
  cases hr with
  | formatL => obtain ⟨r, hl, -, rfl⟩ := decodeL_ok h; simp [Instr.wellFormed, hl, hfits]
  | formatR => obtain ⟨r, -, -, rfl⟩ := decodeR_ok h; rfl
  | formatN _ hi => obtain ⟨-, -, rfl⟩ := decodeN_ok h; exact hi
  | formatV _ hf => obtain ⟨-, rfl⟩ := decodeV_ok h; rw [hf, hfits]
  | unknown => cases h

end Sys2Proof

namespace Sys2Proof.Machine

/-! ### The listed encodings, format by format -/

section
variable (a : Byte) (len : Nat)

theorem illegalEncoding_formatL :
    IllegalEncoding 0x01 a len ↔ regOfSelect a = none ∨ a ∈ [0x00, 0x01, 0x07, 0x11, 0x15] := by
  rw [regOfSelect_eq_none_iff]
  simp [IllegalEncoding]

theorem illegalEncoding_formatR :
    IllegalEncoding 0x02 a len ↔ regOfSelect a = none ∨ len ≠ 0 := by
  rw [regOfSelect_eq_none_iff]
  simp [IllegalEncoding, or_comm]

theorem illegalEncoding_formatN {op : Byte} (hop : op ∈ [0x03, 0x10, 0x11, 0x12, 0x20, 0x30]) :
    IllegalEncoding op a len ↔ a ≠ 0 ∨ len ≠ 0 := by
  fin_cases hop <;> simp [IllegalEncoding]

theorem illegalEncoding_formatV {op : Byte} (hop : op ∈ [0x13, 0x21, 0x22]) :
    IllegalEncoding op a len ↔ a ≠ 0 := by
  fin_cases hop <;> simp [IllegalEncoding]

end

/-- The decoder rejects exactly the packets of (a) to (e) of 30_encoding R97. -/
theorem decodePacket_error_iff (op a : Byte) (payload : List Byte) :
    (∃ why, decodePacket op a payload = .error why) ↔ IllegalEncoding op a payload.length := by
  have hr := readsAs_decodePacket op
  generalize decodePacket op = d at hr ⊢
  cases hr with
  | formatL => rw [decodeL_error_iff, illegalEncoding_formatL]
  | formatR => rw [decodeR_error_iff, illegalEncoding_formatR]
  | formatN hop => rw [decodeN_error_iff, illegalEncoding_formatN _ _ hop]
  | formatV hop => rw [decodeV_error_iff, illegalEncoding_formatV _ _ hop]
  | unknown hop => exact iff_of_true ⟨_, rfl⟩ (.inl hop)

/-! ### The step on an illegal encoding -/

/-- An illegal encoding moves `ERR` and `RSP` alone (30_encoding R97). -/
theorem illegalPacket_eq (op : Byte) (s : State) :
    illegalPacket op s =
      { s with ERR := .illegalCommand, RSP := s.RSP ++ errorResponse op .illegalCommand } := rfl

/-! ### The obligation -/

/-- Settles O6: the decoder's errors are the list's, and what it does not reject is a well-formed command. -/
theorem illegalEncodingsAreExactlyTheListedOnes : Obligations.IllegalEncodingsAreExactlyTheListedOnes := by
  intro op a payload rest hlen
  obtain ⟨hok, herr⟩ := decode_packet op a payload rest hlen
  rw [← decodePacket_error_iff]
  constructor
  · rintro ⟨why, hwhy⟩ s hlow hcmd
    have hd : decode s.CMD = .illegal op why rest := hcmd ▸ herr why hwhy
    rw [step_illegal hlow hd, illegalPacket_eq]
    rfl
  · intro hlegal
    cases hd : decodePacket op a payload with
    | error why => exact absurd ⟨why, hd⟩ hlegal
    | ok i => exact ⟨i, wellFormed_of_decodePacket hlen hd, opcode_of_decodePacket hd, hok i hd⟩

end Sys2Proof.Machine
end

section
/-!
The worked encodings of 30_encoding R102, from what `LD`, `RD`, `EXTRACT` and a command in the wrong phase do.
-/

namespace Sys2Proof.Machine

/-- `LD` sees its payload only as a number (30_encoding R91): two spellings of one number act alike. -/
theorem exec_ld_of_fromBytes_eq (r : Reg) {payload payload' : List Byte}
    (h : fromBytes payload = fromBytes payload') (s : State) :
    exec (.ld r payload) s = exec (.ld r payload') s := by
  have hrun : runCommand (.ld r payload) = runCommand (.ld r payload') := rfl
  simp only [exec, execLd, hrun, h]
  rfl

/-- `RD` is legal in every phase (40_transfer_system R121). -/
theorem exec_rd (r : Reg) (s : State) :
    exec (.rd r) s =
      .next { s with RSP := s.RSP ++ okResponse (Instr.rd r).opcode (readPayload r s) } :=
  exec_ok rfl rfl rfl

/-- A command in a phase where it is not legal (60_exceptions R242). -/
theorem exec_wrongPhase {i : Instr} {s : State} (hr : readOnlyLoad i = false)
    (hl : legalIn i s.PHASE = false) :
    exec i s =
      .next { s with ERR := .wrongPhase, RSP := s.RSP ++ errorResponse i.opcode .wrongPhase } := by
  rw [exec_eq s hr, runCommand_illegal hl, raiseError_plain (by simp [isFatal]) (by decide)]

/-- `EXTRACT`'s body where its check passes (43_square_extract R177). -/
theorem extractBody_of_extractBytes {n : Nat} {s u : State} {out : List Byte × Bool}
    (hn : n < 2 ^ 32) (hb : n ≤ s.PARAMS.BMAX) (h : extractBytes n s = .got out u) :
    extractBody n s = .got (extractStatus out.2, out.1) u := by
  rw [extractBody, fitsScalar, decide_eq_true hn, decide_eq_false (Nat.not_lt.2 hb), h]
  rfl

/-- `EXTRACT 1` in `READY`: one byte is within every `BMAX`. -/
theorem exec_extract_one {s u : State} {out : List Byte} (hph : s.PHASE = .ready)
    (h : extractBytes 1 s = .got (out, false) u) :
    exec (.extract [0x01]) s = .next { u with RSP := u.RSP ++ okResponse 0x21 out } :=
  exec_ok rfl (by rw [hph]; rfl) (extractBody_of_extractBytes (by decide) s.PARAMS.bmax_ge h)

/-- Settles O9: the packets by evaluation, the responses by what each command does. -/
theorem workedEncodingsReadAsTheSpecSpellsThem : Obligations.WorkedEncodingsReadAsTheSpecSpellsThem := by
  refine ⟨by decide, by decide, by decide, by decide, by decide, exec_ld_of_fromBytes_eq .MODE (by decide),
    by decide, by decide, by decide, by decide, by decide, ?_, ?_, ?_⟩
  · intro s u h hph
    exact exec_extract_one hph h
  · intro s hkbl
    rw [exec_rd, readPayload, readReg, hkbl]
    rfl
  · intro s hph
    exact exec_wrongPhase rfl (by rw [hph]; rfl)

end Sys2Proof.Machine
end

section
/-!
Register transfer (40_transfer_system): the loads that complete, format R under `RD`'s opcode, and what `RD` answers.
-/

namespace Sys2Proof

open Sys2Proof.Laws.Encoding (regOfSelect_select)

/-! ### Format R -/

/-- Every register's select reads it back (30_encoding R92). -/
@[simp] theorem decodeR_select_nil (r : Reg) : decodeR r.select [] = .ok (.rd r) := by
  simp [decodeR, regOfSelect_select]

/-- A number that is no register's select is reserved (20_memory R67). -/
theorem regOfSelect_eq_none {a : Byte} (h : ∀ r : Reg, r.select ≠ a) : regOfSelect a = none :=
  Option.eq_none_iff_forall_ne_some.2 fun r hr => h r (select_of_regOfSelect hr)

/-- Format R rejects a reserved select and a payload (30_encoding R97 (c), (d)). -/
theorem decodeR_error {a : Byte} {payload : List Byte} (h : (∀ r : Reg, r.select ≠ a) ∨ payload ≠ []) :
    ∃ why : Illegal, decodeR a payload = .error why :=
  (decodeR_error_iff a payload).2 (h.imp regOfSelect_eq_none (mt List.length_eq_zero_iff.1))

theorem decode_rd (r : Reg) (rest : List Byte) :
    decode (0x02 :: r.select :: 0 :: 0 :: rest) = .command (.rd r) rest :=
  (decode_packet 0x02 r.select [] rest (by simp)).1 (.rd r) (decodeR_select_nil r)

theorem decode_rd_illegal {a : Byte} {payload : List Byte} (rest : List Byte) (hlen : payload.length ≤ 65535)
    (h : (∀ r : Reg, r.select ≠ a) ∨ payload ≠ []) :
    ∃ why : Illegal, decode (packetBytes 0x02 a payload ++ rest) = .illegal 0x02 why rest := by
  obtain ⟨why, hwhy⟩ := decodeR_error h
  exact ⟨why, (decode_packet 0x02 a payload rest hlen).2 why hwhy⟩

end Sys2Proof

namespace Sys2Proof.Machine

/-! ### Where a load is legal -/

/-- A register that `LD` may write in some phase is no read-only one (20_memory R67). -/
theorem readOnlyLoad_of_loadLegalIn {r : Reg} {ph : Phase} (payload : List Byte)
    (h : loadLegalIn r ph = true) : readOnlyLoad (.ld r payload) = false := by
  cases r with
  | N | X | R | KBL | STATUS => cases h
  | P | Q | B | E | M | KREQ | MODE | WHITEN | BASE => rfl

theorem loadLegalIn_factor {r : Reg} {ph : Phase} (hr : r ∈ [Reg.P, .Q]) (h : ph = .empty) :
    loadLegalIn r ph = true := by
  subst h
  fin_cases hr <;> rfl

/-- The key length and the policies may be loaded until the generator is seeded (10_state R31). -/
theorem loadLegalIn_setup {r : Reg} {ph : Phase} (hr : r ∈ [Reg.KREQ, .MODE, .WHITEN])
    (h : ph = .empty ∨ ph = .keyed) : loadLegalIn r ph = true := by
  rcases h with rfl | rfl <;> fin_cases hr <;> rfl

/-- The operands of `MODEXP` and `DIGITS` may be loaded in every phase but `FAILED` (40_transfer_system R124). -/
theorem loadLegalIn_operand {r : Reg} {ph : Phase} (hr : r ∈ [Reg.B, .E, .M, .BASE])
    (h : ph ≠ .failed) : loadLegalIn r ph = true := by
  fin_cases hr <;> exact bne_iff_ne.2 h

/-! ### A load that completes -/

/-- A value that passes the three checks is loaded (40_transfer_system R120); `loadBody_got` is the converse. -/
theorem loadBody_of_fits {r : Reg} {v : Nat} {s : State} (hbig : r.isBig = true → bitlen v ≤ s.PARAMS.KMAX)
    (hscalar : r.isBig = false → v < 2 ^ 32) (hflag : r = .MODE ∨ r = .WHITEN → v ≤ 1) :
    loadBody r v s = .got (.ok, []) (loadReg r v s) := by
  have h1 : ¬ (r.isBig && !fitsBig s v) = true := by simpa [fitsBig] using hbig
  have h2 : ¬ (!r.isBig && !fitsScalar v) = true := by simpa [fitsScalar] using hscalar
  have h3 : ¬ ((r == .MODE || r == .WHITEN) && decide (1 < v)) = true := by simpa using hflag
  rw [loadBody, if_neg h1, if_neg h2, if_neg h3]

section
variable {r : Reg} {payload : List Byte} {v : Nat} {s : State}

theorem exec_ld_of_loadBody (hl : loadLegalIn r s.PHASE = true)
    (hb : loadBody r (fromBytes payload) s = .got (.ok, []) (loadReg r (fromBytes payload) s)) :
    exec (.ld r payload) s =
      .next { loadReg r (fromBytes payload) s with RSP := s.RSP ++ okResponse 0x01 [] } := by
  rw [exec_ok (readOnlyLoad_of_loadLegalIn payload hl) hl hb, loadReg_RSP]
  rfl

theorem exec_ld_big (hr : r.isBig = true) (hl : loadLegalIn r s.PHASE = true)
    (hfit : bitlen (fromBytes payload) ≤ s.PARAMS.KMAX) :
    exec (.ld r payload) s =
      .next { loadReg r (fromBytes payload) s with RSP := s.RSP ++ okResponse 0x01 [] } := by
  refine exec_ld_of_loadBody hl (loadBody_of_fits (fun _ => hfit) (by simp [hr]) ?_)
  rintro (rfl | rfl) <;> cases hr

theorem exec_ld_scalar (hr : r ∈ [Reg.KREQ, .BASE]) (hl : loadLegalIn r s.PHASE = true)
    (hlt : fromBytes payload < 2 ^ 32) :
    exec (.ld r payload) s =
      .next { loadReg r (fromBytes payload) s with RSP := s.RSP ++ okResponse 0x01 [] } := by
  refine exec_ld_of_loadBody hl (loadBody_of_fits ?_ (fun _ => hlt) ?_) <;> fin_cases hr <;> simp [Reg.isBig]

/-- `MODE` and `WHITEN` take 0 and 1; the value, not its spelling, is what is loaded. -/
theorem exec_ld_policy (hr : r ∈ [Reg.MODE, .WHITEN]) (hph : s.PHASE = .empty ∨ s.PHASE = .keyed)
    (hv : fromBytes payload = v) (hle : v ≤ 1) :
    exec (.ld r payload) s = .next { loadReg r v s with RSP := s.RSP ++ okResponse 0x01 [] } := by
  subst hv
  refine exec_ld_of_loadBody (loadLegalIn_setup (List.mem_cons_of_mem _ hr) hph)
    (loadBody_of_fits ?_ (fun _ => by omega) fun _ => hle)
  fin_cases hr <;> simp [Reg.isBig]

end

/-- Settles O14: each load by the rule of its kind of register, which writes what `loadReg` writes. -/
theorem loadWritesItsRegisterAndNothingElse : Obligations.LoadWritesItsRegisterAndNothingElse := by
  intro payload s
  refine ⟨fun hfit => ⟨fun hph => ?_, fun hph => ?_⟩, fun hlt => ⟨fun hph => ?_, fun hph => ?_⟩,
    fun hph => ⟨fun hv => ?_, fun hv => ?_⟩⟩
  · exact ⟨exec_ld_big rfl (loadLegalIn_factor (by decide) hph) hfit,
      exec_ld_big rfl (loadLegalIn_factor (by decide) hph) hfit⟩
  · exact ⟨exec_ld_big rfl (loadLegalIn_operand (by decide) hph) hfit,
      exec_ld_big rfl (loadLegalIn_operand (by decide) hph) hfit,
      exec_ld_big rfl (loadLegalIn_operand (by decide) hph) hfit⟩
  · exact exec_ld_scalar (by decide) (loadLegalIn_setup (by decide) hph) hlt
  · exact exec_ld_scalar (by decide) (loadLegalIn_operand (by decide) hph) hlt
  · exact ⟨exec_ld_policy (by decide) hph hv (by decide), exec_ld_policy (by decide) hph hv (by decide)⟩
  · exact ⟨exec_ld_policy (by decide) hph hv (by decide), exec_ld_policy (by decide) hph hv (by decide)⟩

/-! ### What `RD` answers -/

/-- A big register is answered in the shortest form (40_transfer_system R121). -/
theorem exec_rd_big {r : Reg} (hr : r.isBig = true) (s : State) :
    exec (.rd r) s = .next { s with RSP := s.RSP ++ okResponse 0x02 (toBytes (readReg r s)) } := by
  rw [exec_rd, readPayload, if_pos hr]
  rfl

/-- A scalar register is answered in four bytes (40_transfer_system R121). -/
theorem exec_rd_scalar {r : Reg} (hr : r.isBig = false) (s : State) :
    exec (.rd r) s = .next { s with RSP := s.RSP ++ okResponse 0x02 (toBytesN (readReg r s) 4) } := by
  rw [exec_rd, readPayload, if_neg (by simp [hr])]
  rfl

/-- Settles O17: format R by its decoder, the answers register by register. -/
theorem readAnswersEveryRegisterAndWritesNone : Obligations.ReadAnswersEveryRegisterAndWritesNone := by
  refine ⟨decode_rd, fun _ _ rest => decode_rd_illegal rest, fun s => ⟨?_, ?_⟩⟩
  · intro rv hrv
    fin_cases hrv <;> exact exec_rd_big rfl s
  · intro rv hrv
    fin_cases hrv <;> exact exec_rd_scalar rfl s

end Sys2Proof.Machine
end

section
/-!
The modulus (41_modulus): the length of the prime search's seed (R143), and `MKN` check by check (R146).
-/

namespace Sys2Proof.Machine

/-! ### The seed of the prime search -/

theorem forceLength_lt (bits v : Nat) (hb : 1 ≤ bits) : forceLength bits v < 2 ^ bits := by
  rw [forceLength_eq bits v hb]
  have hlow : v % 2 ^ bits < 2 ^ bits := Nat.mod_lt _ (Nat.two_pow_pos bits)
  have htop : 2 ^ (bits - 1) < 2 ^ bits := Nat.pow_lt_pow_right (by decide) (by omega)
  exact Nat.or_lt_two_pow hlow htop

/-- The bit that is set is the highest one of those kept (41_modulus R143). -/
theorem bitlen_forceLength (bits v : Nat) (hb : 1 ≤ bits) : bitlen (forceLength bits v) = bits := by
  have hle : bitlen (forceLength bits v) ≤ bits := (bitlen_le_iff _ _).2 (forceLength_lt bits v hb)
  have hge : bits - 1 < bitlen (forceLength bits v) :=
    (lt_bitlen_iff _ _).2 (two_pow_le_forceLength bits v hb)
  omega

/-- Settles O22: the rule's formula, and the length from the two bounds. -/
theorem primeSeedHasExactlyTheTargetLength : Obligations.PrimeSeedHasExactlyTheTargetLength :=
  fun bits _ hb => ⟨forceLength_eq bits _ hb, bitlen_forceLength bits _ hb,
    two_pow_le_forceLength bits _ hb, forceLength_lt bits _ hb⟩

/-! ### Legality and fatal errors -/

/-- A command is legal only in the phases of its row (10_state R31, 60_exceptions R242). -/
theorem legalOnlyIn_legalPhases {i : Instr} (hr : readOnlyLoad i = false) :
    LegalOnlyIn (legalPhases i) i := fun _ hph =>
  exec_wrongPhase hr (Bool.eq_false_iff.2 (mt (legalIn_iff i _).1 hph))

/-- A legal command whose body raises an error that is fatal to the session (60_exceptions R247). -/
theorem exec_fatal {i : Instr} {s u : State} {e : Status} (hr : readOnlyLoad i = false)
    (hl : legalIn i s.PHASE = true) (hf : isFatal i e = true) (he : e ≠ .ok)
    (hb : bodyOf i s = .raised e u) :
    exec i s = .next { erased e u with RSP := u.RSP ++ errorResponse i.opcode e } := by
  rw [exec_eq s hr, runCommand_raised hl hb, raiseError_fatal hf he]

/-! ### `MKN` -/

theorem formatN_mkn : FormatN 0x11 .mkn := formatN_of_decodePacket fun _ _ => rfl

/-- A value outgrows the big registers (10_state R21, 60_exceptions R243). -/
theorem not_fitsBig_iff (s : State) (v : Nat) : (!fitsBig s v) = true ↔ s.PARAMS.KMAX < bitlen v := by
  simp [fitsBig]

/-- `KBL` holds the length of every number that fits a big register (10_state R25, 00_scope R5). -/
theorem toNat_ofNat_bitlen {v : Nat} (ps : Params) (h : bitlen v ≤ ps.KMAX) :
    (BitVec.ofNat 32 (bitlen v)).toNat = bitlen v := by
  have := ps.kmax_le
  rw [BitVec.toNat_ofNat, Nat.mod_eq_of_lt (by omega)]

section
variable {s : State}

theorem mknBody_of_missing (h : s.PV = false ∨ s.QV = false) :
    mknBody s = .raised .invalidParameter s := by
  have hmissing : (!(s.PV && s.QV)) = true := by simpa [imp_iff_not_or] using h
  rw [mknBody, if_pos hmissing]

variable (hP : s.PV = true) (hQ : s.QV = true)
include hP hQ

/-- With both factors supplied their product decides (41_modulus R146). -/
theorem mknBody_of_supplied :
    mknBody s =
      if s.P * s.Q < 2 then .raised .invalidParameter s
      else if !fitsBig s (s.P * s.Q) then .raised .capacityExceeded s
      else .got (.ok, modulusPayload (writeSupplied s)) (writeSupplied s) := by
  rw [mknBody, hP, hQ]
  rfl

theorem mknBody_of_small (h : s.P * s.Q < 2) : mknBody s = .raised .invalidParameter s := by
  rw [mknBody_of_supplied hP hQ, if_pos h]

theorem mknBody_of_outgrown (h2 : 2 ≤ s.P * s.Q) (h : s.PARAMS.KMAX < bitlen (s.P * s.Q)) :
    mknBody s = .raised .capacityExceeded s := by
  rw [mknBody_of_supplied hP hQ, if_neg (Nat.not_lt.2 h2), if_pos ((not_fitsBig_iff _ _).2 h)]

/-- `mknBody_got` is the converse. -/
theorem mknBody_of_fits (h2 : 2 ≤ s.P * s.Q) (h : bitlen (s.P * s.Q) ≤ s.PARAMS.KMAX) :
    mknBody s = .got (.ok, modulusPayload (writeSupplied s)) (writeSupplied s) := by
  have hfit : ¬ (!fitsBig s (s.P * s.Q)) = true := mt (not_fitsBig_iff _ _).1 (Nat.not_lt.2 h)
  rw [mknBody_of_supplied hP hQ, if_neg (Nat.not_lt.2 h2), if_neg hfit]

end

theorem modulusPayload_writeSupplied {s : State} (h : bitlen (s.P * s.Q) ≤ s.PARAMS.KMAX) :
    modulusPayload (writeSupplied s) = toBytesN (bitlen (s.P * s.Q)) 4 ++ toBytes (s.P * s.Q) := by
  rw [modulusPayload, writeSupplied_KBL, writeSupplied_N, toNat_ofNat_bitlen s.PARAMS h]

/-- Settles O27: format N, the row of the legality table, and `MKN`'s body check by check. -/
theorem mknFormsTheModulusFromSuppliedFactors : Obligations.MknFormsTheModulusFromSuppliedFactors := by
  refine ⟨formatN_mkn, legalOnlyIn_legalPhases (i := .mkn) rfl, fun s hph => ?_⟩
  have hl : legalIn .mkn s.PHASE = true := by rw [hph]; rfl
  refine ⟨fun h => ?_, fun hP hQ h => ?_, fun hP hQ h2 h => ?_, fun hP hQ h2 h => ?_⟩
  · exact exec_fatal rfl hl rfl nofun (mknBody_of_missing h)
  · exact exec_fatal rfl hl rfl nofun (mknBody_of_small hP hQ h)
  · exact exec_fatal rfl hl rfl nofun (mknBody_of_outgrown hP hQ h2 h)
  · rw [exec_ok rfl hl (mknBody_of_fits hP hQ h2 h), modulusPayload_writeSupplied h, writeSupplied,
      hP, hQ]
    rfl

end Sys2Proof.Machine
end

section
/-!
The seed commands (42_seed): format V for every opcode that has it, `SEEDR` draw by draw (R160), and `SEEDX` check by
check (R161).
-/

namespace Sys2Proof.Machine

/-! ### Format V -/

/-- An opcode whose packets are decoded by format V has that format on the stream. -/
theorem formatV_of_decodePacket {op : Byte} {f : List Byte → Instr}
    (h : ∀ (a : Byte) (payload : List Byte), decodePacket op a payload = decodeV f a payload) :
    FormatV op f := by
  intro a payload rest hlen
  obtain ⟨hok, herr⟩ := decode_packet op a payload rest hlen
  refine ⟨?_, fun ha => ?_⟩
  · rintro rfl
    exact hok (f payload) (h 0 payload)
  · obtain ⟨why, hwhy⟩ := (decodeV_error_iff f a payload).2 ha
    exact ⟨why, herr why (by rw [h, hwhy])⟩

theorem formatN_seedr : FormatN 0x12 .seedr := formatN_of_decodePacket fun _ _ => rfl

theorem formatV_seedx : FormatV 0x13 .seedx := formatV_of_decodePacket fun _ _ => rfl

/-! ### `SEEDR` -/

section
variable {s : State} (hN : s.N ≠ 0)
include hN

/-- `seedrBody_got` is the converse. -/
theorem seedrBody_of_draw {drawn : List Byte}
    (h : answerTo .highQuality (bytesFor s.KBL.toNat) s = .bytes drawn) :
    seedrBody s =
      seedDone (nextCoprime s.N (fromBytes drawn)) (afterAsking .highQuality (bytesFor s.KBL.toNat) s) := by
  simp only [seedrBody, if_neg hN, h]

theorem seedrBody_of_fail (h : answerTo .highQuality (bytesFor s.KBL.toNat) s = .fail) :
    seedrBody s = .raised .entropySourceError (afterAsking .highQuality (bytesFor s.KBL.toNat) s) := by
  simp only [seedrBody, if_neg hN, h]

end

/-- Settles O28: format N, the row of the legality table, and `SEEDR`'s body by the answer to its draw; the number it
squares is the loop's, `nextCoprime`. -/
theorem seedrSquaresTheFirstCoprimeDraw : Obligations.SeedrSquaresTheFirstCoprimeDraw := by
  refine ⟨formatN_seedr, legalOnlyIn_legalPhases (i := .seedr) rfl, fun s nb hph h2 hnb => ?_⟩
  subst hnb
  have hl : legalIn .seedr s.PHASE = true := by rw [hph]; rfl
  have hN : s.N ≠ 0 := by omega
  refine ⟨fun drawn hdraw => ?_, fun hfail => ?_⟩
  · refine ⟨nextCoprime s.N (fromBytes drawn), nextCoprime_spec _ _ (by omega),
      nextCoprime_lt _ _ (by omega), ?_⟩
    exact exec_ok rfl hl (seedrBody_of_draw hN hdraw)
  · exact exec_fatal (e := .entropySourceError) rfl hl rfl nofun (seedrBody_of_fail hN hfail)

/-! ### `SEEDX` -/

section
variable {x : Nat} {s : State}

theorem seedxBody_of_outgrown (h : s.PARAMS.KMAX < bitlen x) :
    seedxBody x s = .raised .capacityExceeded s := by
  rw [seedxBody, if_pos ((not_fitsBig_iff s x).2 h)]

variable (hfit : bitlen x ≤ s.PARAMS.KMAX)
include hfit

/-- With a value that fits, its greatest common divisor with `N` decides (42_seed R161). -/
theorem seedxBody_of_fits :
    seedxBody x s =
      if Nat.gcd x s.N ≠ 1 then .raised .invalidParameter s
      else if s.N = 0 then .stopped .zeroModulus
      else seedDone x s := by
  rw [seedxBody, if_neg (mt (not_fitsBig_iff s x).1 (Nat.not_lt.2 hfit))]

theorem seedxBody_of_not_coprime (h : Nat.gcd x s.N ≠ 1) :
    seedxBody x s = .raised .invalidParameter s := by
  rw [seedxBody_of_fits hfit, if_pos h]

/-- `seedxBody_got` is the converse. -/
theorem seedxBody_of_coprime (hN : s.N ≠ 0) (h : Nat.gcd x s.N = 1) : seedxBody x s = seedDone x s := by
  rw [seedxBody_of_fits hfit, if_neg (not_not.2 h), if_neg hN]

end

/-- Settles O29: format V, the row of the legality table, and `SEEDX`'s body check by check. -/
theorem seedxSquaresTheSuppliedValue : Obligations.SeedxSquaresTheSuppliedValue := by
  refine ⟨formatV_seedx, fun payload => legalOnlyIn_legalPhases (i := .seedx payload) rfl,
    fun payload s hph h2 => ?_⟩
  have hl : legalIn (.seedx payload) s.PHASE = true := by rw [hph]; rfl
  refine ⟨fun hbig => ?_, fun hfit hgcd => ?_, fun hfit hgcd => ?_⟩
  · exact exec_fatal rfl hl rfl nofun (seedxBody_of_outgrown hbig)
  · exact exec_fatal rfl hl rfl nofun (seedxBody_of_not_coprime hfit hgcd)
  · exact exec_ok rfl hl (seedxBody_of_coprime hfit (by omega) hgcd)

end Sys2Proof.Machine
end

section
/-!
Squaring and extraction (43_square_extract): `SQR` (R176), and `EXTRACT` plain (R178), whitened (R183), with whitening
lost (R184) and of no bytes (R189).
-/

namespace Sys2Proof.Machine

/-! ### `SQR` -/

theorem formatN_sqr : FormatN 0x20 .sqr := formatN_of_decodePacket fun _ _ => rfl

/-- `sqrBody_got` is the converse. -/
theorem sqrBody_of_modulus {s : State} (hN : s.N ≠ 0) : sqrBody s = .got (.ok, []) (square s) :=
  if_neg hN

/-- Settles O30: format N, the row of the legality table, and `SQR`'s body where there is a modulus. -/
theorem sqrAdvancesTheStateOnce : Obligations.SqrAdvancesTheStateOnce := by
  refine ⟨formatN_sqr, legalOnlyIn_legalPhases (i := .sqr) rfl, fun s hph hN => ?_⟩
  have hl : legalIn .sqr s.PHASE = true := by rw [hph]; rfl
  exact exec_ok rfl hl (sqrBody_of_modulus (by omega))

/-! ### The pad of an extraction -/

section
variable {n : Nat} {s : State}

theorem fetchPad_of_plain (hw : s.WHITEN = false) :
    fetchPad n s = .got (List.replicate n 0, false) s := by
  simp [fetchPad, hw]

variable (hw : s.WHITEN = true)
include hw

theorem fetchPad_of_answer {pad : List Byte} (ha : answerTo .advisory n s = .bytes pad) :
    fetchPad n s = .got (pad, false) (afterAsking .advisory n s) := by
  simp only [fetchPad, hw, ha, if_true]

theorem fetchPad_of_fail (ha : answerTo .advisory n s = .fail) :
    fetchPad n s =
      .got (List.replicate n 0, true) { afterAsking .advisory n s with WHITEN := false } := by
  simp only [fetchPad, hw, ha, if_true]

end

/-! ### The bytes of an extraction -/

theorem extractBytes_zero (s : State) : extractBytes 0 s = .got ([], false) s := rfl

/-- A pad of zeros is no whitening. -/
theorem xorBytes_streamBytes_zero (s : State) (n : Nat) :
    xorBytes (streamBytes s n) (List.replicate n 0) = streamBytes s n := by
  simpa using xorBytes_zero (streamBytes s n)

@[simp] theorem streamBytes_zero (s : State) : streamBytes s 0 = [] := rfl

/-- No byte takes no squaring (43_square_extract R189). -/
theorem stateAfterBytes_zero {s : State} (hk : 1 ≤ bitsPerSquaring s) : stateAfterBytes s 0 = s.X := by
  have hsq : (8 * 0 + bitsPerSquaring s - 1) / bitsPerSquaring s = 0 := Nat.div_eq_of_lt (by omega)
  rw [stateAfterBytes, hsq, squarings]

/-- Without whitening an extraction is the stream's, also where no byte is asked for (43_square_extract R178, R189). -/
theorem extractBytes_of_plain {s : State} (n : Nat) (hw : s.WHITEN = false) (hN : s.N ≠ 0)
    (hk : 1 ≤ bitsPerSquaring s) :
    extractBytes n s = .got (streamBytes s n, false) { s with X := stateAfterBytes s n } := by
  rcases Nat.eq_zero_or_pos n with rfl | hn
  · rw [extractBytes_zero, stateAfterBytes_zero hk, streamBytes_zero]
  · rw [extractBytes_done hn.ne' hN hk (fetchPad_of_plain hw), xorBytes_streamBytes_zero]

/-! ### `EXTRACT` -/

/-- The response of a call that lost whitening, and what it leaves in `ERR` (43_square_extract R184). -/
theorem respond_whiteningUnavailable (op : Byte) (payload : List Byte) (s : State) :
    respond op .whiteningUnavailable payload s =
      { s with ERR := .whiteningUnavailable, RSP := s.RSP ++ unwhitenedResponse op payload } := rfl

section
variable {payload : List Byte} {s : State}

/-- `EXTRACT` in `READY`, of no more than `BMAX` bytes, answers what was extracted (43_square_extract R177). -/
theorem exec_extract {u : State} {out : List Byte × Bool} (hph : s.PHASE = .ready)
    (hb : fromBytes payload ≤ s.PARAMS.BMAX) (h : extractBytes (fromBytes payload) s = .got out u) :
    exec (.extract payload) s = .next (respond 0x21 (extractStatus out.2) out.1 u) := by
  have hl : legalIn (.extract payload) s.PHASE = true := by rw [hph]; rfl
  have hbmax := s.PARAMS.bmax_le
  exact runCommand_got hl (extractBody_of_extractBytes (by omega) hb h)

/-- Without whitening (43_square_extract R178). -/
theorem exec_extract_plain (hph : s.PHASE = .ready) (hw : s.WHITEN = false) (hN : 1 ≤ s.N)
    (hk : 1 ≤ bitsPerSquaring s) (hb : fromBytes payload ≤ s.PARAMS.BMAX) :
    exec (.extract payload) s = .next { s with
      X := stateAfterBytes s (fromBytes payload)
      RSP := s.RSP ++ okResponse 0x21 (streamBytes s (fromBytes payload)) } := by
  rw [exec_extract hph hb (extractBytes_of_plain _ hw (by omega) hk)]
  exact congrArg _ (respond_ok ..)

variable (hph : s.PHASE = .ready) (hw : s.WHITEN = true) (hN : 1 ≤ s.N) (hk : 1 ≤ bitsPerSquaring s)
  (hn : 1 ≤ fromBytes payload) (hb : fromBytes payload ≤ s.PARAMS.BMAX)
include hph hw hN hk hn hb

/-- With whitening and an answer from the advisory port (43_square_extract R183). -/
theorem exec_extract_whitened {pad : List Byte}
    (ha : answerTo .advisory (fromBytes payload) s = .bytes pad) :
    exec (.extract payload) s = .next { afterAsking .advisory (fromBytes payload) s with
      X := stateAfterBytes s (fromBytes payload)
      RSP := s.RSP ++ okResponse 0x21 (xorBytes (streamBytes s (fromBytes payload)) pad) } := by
  rw [exec_extract hph hb (extractBytes_done (by omega) (by omega) hk (fetchPad_of_answer hw ha))]
  exact congrArg _ (respond_ok ..)

/-- With whitening and no answer from the advisory port (43_square_extract R184). -/
theorem exec_extract_unwhitened (ha : answerTo .advisory (fromBytes payload) s = .fail) :
    exec (.extract payload) s = .next { afterAsking .advisory (fromBytes payload) s with
      X := stateAfterBytes s (fromBytes payload), WHITEN := false, ERR := .whiteningUnavailable
      RSP := s.RSP ++ unwhitenedResponse 0x21 (streamBytes s (fromBytes payload)) } := by
  rw [exec_extract hph hb (extractBytes_done (by omega) (by omega) hk (fetchPad_of_fail hw ha)),
    xorBytes_streamBytes_zero]
  exact congrArg _ (respond_whiteningUnavailable ..)

end

/-- Settles O32: the call without whitening reads the same stream, so it gives the bytes that the pad is combined with
and the same state. -/
theorem extractWhitenedCombinesThePad : Obligations.ExtractWhitenedCombinesThePad := by
  rintro payload s n pad rfl hph hw hN hk hn hb ha
  constructor
  · exact exec_extract_plain (s := { s with WHITEN := false }) hph rfl hN hk hb
  · exact exec_extract_whitened hph hw hN hk hn hb ha

/-- Settles O33: the call that lost whitening leaves `WHITEN` clear and the modulus and phase as they were, so every
later call is a plain one. -/
theorem extractLosesWhiteningAndGoesOn : Obligations.ExtractLosesWhiteningAndGoesOn := by
  rintro payload s n rfl hph hw hN hk hn hb ha
  refine ⟨_, rfl, exec_extract_unwhitened hph hw hN hk hn hb ha, fun later hlater => ?_⟩
  exact exec_extract_plain hph rfl hN hk hlater

/-- Settles O34: an extraction of no bytes ends before it looks at the modulus or at `WHITEN`. -/
theorem extractOfZeroBytesDoesNothing : Obligations.ExtractOfZeroBytesDoesNothing := by
  intro payload s h0 hph
  have hout : extractBytes (fromBytes payload) s = .got ([], false) s := by
    rw [h0, extractBytes_zero]
  rw [exec_extract hph (by omega) hout]
  exact congrArg _ (respond_ok ..)

end Sys2Proof.Machine
end

section
/-!
The modular exponentiation engine (45_modexp): `MODEXP` in and out of its phases, its check, and the exact power (R215).
-/

namespace Sys2Proof.Machine

/-- A legal command whose body raises an error that is not fatal (60_exceptions R246); `exec_fatal` is the other kind. -/
theorem exec_plain_error {i : Instr} {s u : State} {e : Status} (hr : readOnlyLoad i = false)
    (hl : legalIn i s.PHASE = true) (hf : isFatal i e = false) (he : e ≠ .ok)
    (hb : bodyOf i s = .raised e u) :
    exec i s = .next { u with ERR := e, RSP := u.RSP ++ errorResponse i.opcode e } := by
  rw [exec_eq s hr, runCommand_raised hl hb, raiseError_plain hf he]

theorem formatN_modexp : FormatN 0x30 .modexp := formatN_of_decodePacket fun _ _ => rfl

theorem legalIn_modexp_iff (ph : Phase) : legalIn .modexp ph = true ↔ ph ≠ .failed := bne_iff_ne

section
variable {s : State}

theorem modexpBody_of_zero (hM : s.M = 0) : modexpBody s = .raised .invalidParameter s := if_pos hM

/-- `modexpBody_got` is the converse. -/
theorem modexpBody_of_modulus (hM : s.M ≠ 0) :
    modexpBody s = .got (.ok, toBytes (s.B ^ s.E % s.M)) { s with R := s.B ^ s.E % s.M } := by
  rw [modexpBody, if_neg hM, writePower, modExp_eq]

end

/-- Settles O43: format N, then `MODEXP`'s body by its check in every phase but `FAILED`, where the phase check answers;
the number that square and multiply finds is the exact power, by `modExp_eq`. -/
theorem modexpIsTheReducedPower : Obligations.ModexpIsTheReducedPower := by
  refine ⟨formatN_modexp, fun s => ⟨fun hph hM => ?_, fun hph hM => ?_, fun hph => ?_⟩⟩
  · exact exec_ok rfl ((legalIn_modexp_iff _).2 hph) (modexpBody_of_modulus hM)
  · exact exec_plain_error rfl ((legalIn_modexp_iff _).2 hph) rfl nofun (modexpBody_of_zero hM)
  · exact exec_wrongPhase rfl (by rw [hph]; rfl)

end Sys2Proof.Machine
end

section
/-!
Errors (60_exceptions): refusal for the phase, what an error response says about the command that gave it, and what a
fatal error and every other one leave of the state.
-/

namespace Sys2Proof.Machine

/-- Settles O10: a well-formed command is legal exactly in the phases of its row, and the phase check comes first. -/
theorem wrongPhaseChangesNothingButErr : Obligations.WrongPhaseChangesNothingButErr :=
  fun _ s hw hph => legalOnlyIn_legalPhases (readOnlyLoad_of_wellFormed hw) s hph

/-! ### Init commands and fatal errors -/

theorem isInit_iff (i : Instr) : isInit i = true ↔ i.opcode ∈ ([0x10, 0x11, 0x12, 0x13] : List Byte) := by
  cases i <;> simp [isInit, Instr.opcode]

/-- An error is fatal when it is an init command's, and neither of the two that refuse the command unrun. -/
theorem isFatal_iff (i : Instr) (e : Status) :
    isFatal i e = true ↔ isInit i = true ∧ e ≠ .illegalCommand ∧ e ≠ .wrongPhase := by
  simp [isFatal, and_assoc]

theorem isFatal_eq_false_iff (i : Instr) (e : Status) :
    isFatal i e = false ↔ (isInit i = true → e = .illegalCommand ∨ e = .wrongPhase) := by
  rw [← Bool.not_eq_true, isFatal_iff]
  tauto

/-- Fatal or not, an error is reported in eight bytes. -/
theorem raiseError_RSP (i : Instr) (e : Status) (s : State) :
    (raiseError i e s).RSP = s.RSP ++ errorResponse i.opcode e := by
  unfold raiseError
  split <;> rfl

theorem raiseError_PHASE (i : Instr) (e : Status) (s : State) :
    (raiseError i e s).PHASE = if isFatal i e then .failed else s.PHASE := by
  unfold raiseError
  split <;> rfl

/-! ### The error a response reports -/

/-- The `ST` byte tells the status codes apart (30_encoding R95). -/
theorem statusByte_inj {st e : Status} (h : BitVec.ofNat 8 (statusCode st) = BitVec.ofNat 8 (statusCode e)) :
    st = e := by
  cases st <;> cases e <;> simp [statusCode] at h ⊢

/-- A response that reads as an error response has that error's status. -/
theorem status_of_responsePacket_eq {op op' : Byte} {st e : Status} {payload before : List Byte}
    (h : before ++ responsePacket op st payload = before ++ errorResponse op' e) : st = e := by
  obtain ⟨-, hst, -⟩ : _ ∧ BitVec.ofNat 8 (statusCode st) = BitVec.ofNat 8 (statusCode e) ∧ _ := by
    simpa only [responsePacket, errorResponse, List.cons_append, List.cons.injEq] using List.append_cancel_left h
  exact statusByte_inj hst

theorem error_of_raiseError_RSP {i : Instr} {e e' : Status} {s u : State} (hu : u.RSP = s.RSP)
    (h : (raiseError i e' u).RSP = s.RSP ++ errorResponse i.opcode e) : e' = e := by
  rw [raiseError_RSP, hu] at h
  exact status_of_responsePacket_eq (payload := []) h

/-- A command that reports an error was refused unrun with it, or its body raised it. -/
theorem exec_error {i : Instr} {s t : State} {e : Status} (hok : e ≠ .ok) (hlost : e ≠ .whiteningUnavailable)
    (h : exec i s = .next t) (hrsp : t.RSP = s.RSP ++ errorResponse i.opcode e) :
    ∃ u, t = raiseError i e u ∧
      (u = s ∧ (e = .illegalCommand ∨ e = .wrongPhase) ∨ bodyOf i s = .raised e u) := by
  obtain (⟨-, rfl⟩ | ⟨-, rfl⟩) | ⟨-, -, ⟨reply, u, hb, rfl⟩ | ⟨e', u, hb, rfl⟩⟩ := exec_cases h
  · obtain rfl := error_of_raiseError_RSP rfl hrsp
    exact ⟨s, rfl, .inl ⟨rfl, .inl rfl⟩⟩
  · obtain rfl := error_of_raiseError_RSP rfl hrsp
    exact ⟨s, rfl, .inl ⟨rfl, .inr rfl⟩⟩
  · obtain ⟨hu, -⟩ := bodyOf_got_frame hb
    rw [respond_RSP, hu] at hrsp
    obtain rfl := status_of_responsePacket_eq hrsp
    exact ((bodyOf_got_status hb).elim hok hlost).elim
  · obtain rfl := error_of_raiseError_RSP (bodyOf_raised_RSP hb) hrsp
    exact ⟨u, rfl, .inr hb⟩

/-! ### What a body that raises leaves -/

/-- A body that raises has changed nothing but the record of the high-quality port's exchanges. -/
theorem bodyOf_raised_frame {i : Instr} {s u : State} {e : Status} (h : bodyOf i s = .raised e u) :
    u = { s with ENTHQ := u.ENTHQ, ASKED := u.ASKED } := by
  obtain ⟨-, rfl | ⟨-, -, rfl | rfl⟩ | ⟨-, rfl⟩⟩ := bodyOf_raised h <;> rfl

/-- Outside the init commands every check comes before the first effect (60_exceptions R246). -/
theorem bodyOf_raised_of_not_init {i : Instr} {s u : State} {e : Status} (hi : isInit i = false)
    (h : bodyOf i s = .raised e u) : u = s := by
  obtain ⟨-, rfl | ⟨rfl, -⟩ | ⟨rfl, -⟩⟩ := bodyOf_raised h
  · rfl
  · cases hi
  · cases hi

/-- The two errors that refuse a command unrun are no body's. -/
theorem bodyOf_raised_ran {i : Instr} {s u : State} {e : Status} (h : bodyOf i s = .raised e u) :
    e ≠ .illegalCommand ∧ e ≠ .wrongPhase := by
  obtain ⟨rfl | rfl | rfl, -⟩ := bodyOf_raised h <;> exact ⟨nofun, nofun⟩

/-- Settles O13: the error is not fatal, so it is raised on the old state, by the refusal or by a body that is no init
command's. -/
theorem nonFatalErrorChangesNothingElse : Obligations.NonFatalErrorChangesNothingElse := by
  intro i s t e hok hlost hplain h hrsp
  rw [← isInit_iff] at hplain
  obtain ⟨u, rfl, hu⟩ := exec_error hok hlost h hrsp
  have hus : u = s := by
    rcases hu with ⟨hus, -⟩ | hb
    · exact hus
    · obtain ⟨hill, hwp⟩ := bodyOf_raised_ran hb
      exact bodyOf_raised_of_not_init (Bool.eq_false_iff.2 fun hi => (hplain hi).elim hill hwp) hb
  rw [hus, raiseError_plain ((isFatal_eq_false_iff i e).2 hplain) hok]

/-! ### The way into `FAILED` -/

/-- The phase in which a command that is done leaves the engine (10_state R31). -/
def phaseAfter : Instr → Phase → Phase
  | .clr, _ => .empty
  | .genkey, _ | .mkn, _ => .keyed
  | .seedr, _ | .seedx _, _ => .ready
  | .ld _ _, ph | .rd _, ph | .sqr, ph | .extract _, ph | .digits _, ph | .modexp, ph => ph

theorem phaseAfter_ne_failed (i : Instr) {ph : Phase} (h : ph ≠ .failed) : phaseAfter i ph ≠ .failed := by
  cases i with
  | clr | genkey | mkn | seedr | seedx => exact nofun
  | ld | rd | sqr | extract | digits | modexp => exact h

theorem extractBytes_PHASE {n : Nat} {out : List Byte × Bool} {s u : State}
    (h : extractBytes n s = .got out u) : u.PHASE = s.PHASE := by
  rcases extractBytes_got h with ⟨-, -, rfl⟩ | ⟨-, -, -, pad, v, hpad, -, rfl⟩
  · rfl
  · obtain ⟨-, ⟨-, -, rfl⟩ | ⟨-, -, -, rfl⟩ | ⟨-, -, -, rfl⟩⟩ := fetchPad_got hpad <;> rfl

theorem bodyOf_got_PHASE {i : Instr} {s u : State} {reply : Reply} (h : bodyOf i s = .got reply u) :
    u.PHASE = phaseAfter i s.PHASE := by
  cases i with
  | ld r payload => obtain ⟨-, rfl, -⟩ := loadBody_got h; exact loadReg_PHASE ..
  | rd r => cases h; rfl
  | clr => cases h; rfl
  | genkey => obtain ⟨-, -, -, -, _, _, _, _, -, -, -, rfl, -⟩ := genkeyBody_got h; rfl
  | mkn => obtain ⟨-, -, -, -, rfl, -⟩ := mknBody_got h; rfl
  | seedr => obtain ⟨-, _, _, -, -, rfl, -⟩ := seedrBody_got h; rfl
  | seedx payload => obtain ⟨-, -, -, rfl, -⟩ := seedxBody_got h; rfl
  | sqr => obtain ⟨-, rfl, -⟩ := sqrBody_got h; rfl
  | extract payload => obtain ⟨-, -, _, ho, -⟩ := extractBody_got h; exact extractBytes_PHASE ho
  | digits payload => obtain ⟨-, -, -, -, _, ho, -⟩ := digitsBody_got h; exact extractBytes_PHASE ho
  | modexp => obtain ⟨-, rfl, -⟩ := modexpBody_got h; rfl

/-- Raising an error enters `FAILED` only where the error is fatal. -/
theorem isFatal_of_raiseError_PHASE {i : Instr} {e : Status} {s : State} (hs : s.PHASE ≠ .failed)
    (h : (raiseError i e s).PHASE = .failed) : isFatal i e = true := by
  rw [raiseError_PHASE] at h
  by_contra hf
  exact hs (by rwa [if_neg hf] at h)

/-- A command that enters `FAILED` is an init command whose body raised. -/
theorem exec_enters_failed {i : Instr} {s t : State} (h : exec i s = .next t) (hs : s.PHASE ≠ .failed)
    (ht : t.PHASE = .failed) :
    isInit i = true ∧ ∃ e u, bodyOf i s = .raised e u ∧ t = raiseError i e u := by
  obtain (⟨-, rfl⟩ | ⟨-, rfl⟩) | ⟨-, -, ⟨reply, u, hb, rfl⟩ | ⟨e, u, hb, rfl⟩⟩ := exec_cases h
  · obtain ⟨-, hill, -⟩ := (isFatal_iff i _).1 (isFatal_of_raiseError_PHASE hs ht)
    exact absurd rfl hill
  · obtain ⟨-, -, hwp⟩ := (isFatal_iff i _).1 (isFatal_of_raiseError_PHASE hs ht)
    exact absurd rfl hwp
  · rw [respond_PHASE, bodyOf_got_PHASE hb] at ht
    exact absurd ht (phaseAfter_ne_failed i hs)
  · have hu : u.PHASE ≠ .failed := by rw [bodyOf_raised_frame hb]; exact hs
    obtain ⟨hi, -⟩ := (isFatal_iff i e).1 (isFatal_of_raiseError_PHASE hu ht)
    exact ⟨hi, e, u, hb, rfl⟩

/-- In `FAILED` only `RD` and `CLR` are legal (10_state R31). -/
theorem opcode_of_legalIn_failed {i : Instr} (h : legalIn i .failed = true) :
    i.opcode ∈ ([0x02, 0x03] : List Byte) := by
  cases i with
  | rd | clr => simp [Instr.opcode]
  | ld r => cases r <;> cases h
  | genkey | mkn | seedr | seedx | sqr | extract | digits | modexp => cases h

/-! ### The fatal errors -/

/-- An init command that reports one of its own errors has erased the session (60_exceptions R247). -/
theorem exec_init_error {i : Instr} {s t : State} {e : Status} (hi : isInit i = true)
    (he : e ∈ [Status.invalidParameter, .entropySourceError, .capacityExceeded])
    (h : exec i s = .next t) (hrsp : t.RSP = s.RSP ++ errorResponse i.opcode e) :
    t = { erased e s with
      RSP := s.RSP ++ errorResponse i.opcode e, ENTHQ := t.ENTHQ, ASKED := t.ASKED } := by
  obtain ⟨hok, hlost, hill, hwp⟩ :
      e ≠ .ok ∧ e ≠ .whiteningUnavailable ∧ e ≠ .illegalCommand ∧ e ≠ .wrongPhase := by
    refine ⟨?_, ?_, ?_, ?_⟩ <;> rintro rfl <;> simp at he
  obtain ⟨u, rfl, ⟨-, hrefused⟩ | hb⟩ := exec_error hok hlost h hrsp
  · exact (hrefused.elim hill hwp).elim
  · rw [raiseError_fatal ((isFatal_iff i e).2 ⟨hi, hill, hwp⟩) hok, bodyOf_raised_frame hb]
    rfl

/-- Settles O12: the erasure by what an error response says, the way into `FAILED` by the phases that bodies leave, and
the refusals there by the legality table. -/
theorem fatalErrorErasesTheSession : Obligations.FatalErrorErasesTheSession := by
  refine ⟨fun i s t e hop he h hrsp => ?_, fun i s t h hs ht => ?_, fun i s hs hw hop => ?_⟩
  · exact exec_init_error ((isInit_iff i).2 hop) he h hrsp
  · obtain ⟨hi, e, u, hb, rfl⟩ := exec_enters_failed h hs ht
    refine ⟨(isInit_iff i).1 hi, e, ?_, by rw [raiseError_RSP, bodyOf_raised_RSP hb]⟩
    simpa using (bodyOf_raised hb).1
  · have hl : legalIn i s.PHASE = false := by
      rw [hs]
      exact Bool.eq_false_iff.2 (mt opcode_of_legalIn_failed hop)
    exact exec_wrongPhase (readOnlyLoad_of_wellFormed hw) hl

end Sys2Proof.Machine
end

section
/-!
Decoder and encoder as inverses (30_encoding sections 1 and 3), and the step on a whole packet and on a truncated one.
-/

namespace Sys2Proof

/-! ### The round trip -/

/-- Every command's packet carries its own opcode and fields that decode to it (30_encoding R92, R96). -/
theorem encoding_statement (i : Instr) : Laws.Encoding.Statement i := by
  cases i with
  | ld reg payload => exact Laws.Encoding.ld reg payload
  | rd reg => exact Laws.Encoding.rd reg
  | clr => exact Laws.Encoding.clr
  | genkey => exact Laws.Encoding.genkey
  | mkn => exact Laws.Encoding.mkn
  | seedr => exact Laws.Encoding.seedr
  | seedx payload => exact Laws.Encoding.seedx payload
  | sqr => exact Laws.Encoding.sqr
  | extract payload => exact Laws.Encoding.extract payload
  | digits payload => exact Laws.Encoding.digits payload
  | modexp => exact Laws.Encoding.modexp

/-- Settles O4: the packet of a command is a whole packet, and its fields decode to the command. -/
theorem decodeReadsBackEveryEncodedCommand : Obligations.DecodeReadsBackEveryEncodedCommand := by
  intro i rest hw
  obtain ⟨a, payload, henc, hlen, hd⟩ := encoding_statement i hw
  rw [henc]
  exact (decode_packet _ a payload rest hlen).1 i hd

/-- The formats read backwards: a packet that decodes to a command is that command's own packet. -/
theorem encode_of_decodePacket {op a : Byte} {payload : List Byte} {i : Instr}
    (h : decodePacket op a payload = .ok i) : encode i = packetBytes op a payload := by
  obtain rfl := opcode_of_decodePacket h
  cases i with
  | ld reg operand => obtain ⟨r, -, rfl, hi⟩ := decodeL_ok h; cases hi; rfl
  | rd reg => obtain ⟨r, rfl, rfl, hi⟩ := decodeR_ok h; cases hi; rfl
  | clr | genkey | mkn | seedr | sqr | modexp => obtain ⟨rfl, rfl, -⟩ := decodeN_ok h; rfl
  | seedx operand | extract operand | digits operand => obtain ⟨rfl, hi⟩ := decodeV_ok h; cases hi; rfl

/-- A stream that decodes to a command begins with a packet whose fields decode to it. -/
theorem decode_command {bs rest : List Byte} {i : Instr} (h : decode bs = .command i rest) :
    ∃ (op a : Byte) (payload : List Byte), payload.length ≤ 65535 ∧
      bs = packetBytes op a payload ++ rest ∧ decodePacket op a payload = .ok i := by
  obtain ⟨op, a, payload, rest', hlen, rfl⟩ := decode_front (bs := bs) (by rw [h]; exact nofun)
  obtain ⟨hok, herr⟩ := decode_packet op a payload rest' hlen
  cases hd : decodePacket op a payload with
  | error why => rw [herr why hd] at h; cases h
  | ok j => rw [hok j hd] at h; cases h; exact ⟨op, a, payload, hlen, rfl, hd⟩

/-- Settles O5: the packet at the front is the command's own, and what decodes is well-formed. -/
theorem everyDecodedPacketIsItsCommandsEncoding : Obligations.EveryDecodedPacketIsItsCommandsEncoding := by
  intro bs rest i h
  obtain ⟨op, a, payload, hlen, rfl, hd⟩ := decode_command h
  exact ⟨wellFormed_of_decodePacket hlen hd, by rw [encode_of_decodePacket hd]⟩

/-! ### Truncated packets -/

/-- Fewer than four header bytes are no packet (30_encoding R98). -/
theorem decode_short {bs : List Byte} (h : bs.length < 4) : decode bs = .incomplete := by
  by_contra hd
  obtain ⟨op, a, payload, rest, -, rfl⟩ := decode_front hd
  simp [packetBytes] at h
  omega

theorem decode_truncated {op a hi lo : Byte} {stream : List Byte}
    (h : stream.length < 256 * hi.toNat + lo.toNat) :
    decode (op :: a :: hi :: lo :: stream) = .incomplete := if_pos h

end Sys2Proof

namespace Sys2Proof.Machine

/-- Settles O7: neither kind of truncated packet decodes, and then the engine is idle. -/
theorem truncatedPacketLeavesTheEngineIdle : Obligations.TruncatedPacketLeavesTheEngineIdle := by
  rintro s hlow (hshort | ⟨op, a, hi, lo, stream, hcmd, hlen⟩)
  · exact step_incomplete hlow (decode_short hshort)
  · exact step_incomplete hlow (by rw [hcmd, decode_truncated hlen])

/-- Settles O8: `step_command`, the packet being what the decoder took off the stream. -/
theorem stepRunsTheDecodedCommand : Obligations.StepRunsTheDecodedCommand :=
  fun _ _ _ hlow _ hd => step_command hlow hd

end Sys2Proof.Machine
end

section
/-!
What holds of every run (10_state section 5): the run invariant through every command, by what each body leaves, and the
step.
-/

namespace Sys2Proof.Machine

/-! ### The shapes of state the invariant allows -/

/-- The invariant speaks of the factors, the modulus, the state, the operands and the phase, and of no other field. -/
theorem inv_unsaid {s : State} (h : s.Inv) (kreq base : Scalar) (mode : Mode) (whiten : Bool) (err : Status)
    (cmd rsp : List Byte) (hq adv : List Answer) (asked : List Request) (line : ResetInput) :
    State.Inv { s with
      KREQ := kreq, BASE := base, MODE := mode, WHITEN := whiten, ERR := err, CMD := cmd, RSP := rsp
      ENTHQ := hq, ENTADV := adv, ASKED := asked, RESETLINE := line } := by
  obtain ⟨⟩ := h
  constructor <;> assumption

theorem inv_respond {s : State} (h : s.Inv) (op : Byte) (st : Status) (payload : List Byte) :
    (respond op st payload s).Inv :=
  inv_unsaid h ..

theorem inv_afterAsking {s : State} (h : s.Inv) (port : Port) (n : Nat) : (afterAsking port n s).Inv := by
  cases port <;> exact inv_unsaid h ..

/-- With every register cleared there is nothing to break. -/
theorem inv_clearRegisters (s : State) : (clearRegisters s).Inv := by
  constructor <;> simp

/-- Settles O3: the state after reset is a cleared one. -/
theorem resetStateSatisfiesTheRunInvariant : Obligations.ResetStateSatisfiesTheRunInvariant :=
  inv_clearRegisters State.reset

theorem inv_takeReset (s : State) : (takeReset s).Inv :=
  inv_unsaid (inv_clearRegisters s) ..

/-- An erased session keeps the operands of `MODEXP` alone (60_exceptions R247). -/
theorem inv_eraseSession {s : State} (h : s.Inv) : (eraseSession s).Inv := by
  constructor <;> simp [h.fitB, h.fitE, h.fitM, h.fitR]

theorem inv_raiseError {s : State} (h : s.Inv) (i : Instr) (e : Status) : (raiseError i e s).Inv := by
  unfold raiseError
  split
  · exact inv_respond (inv_eraseSession h) ..
  · exact inv_respond h ..

/-! ### Loads -/

theorem phase_empty_of_loadLegalIn {r : Reg} {ph : Phase} (hr : r ∈ [Reg.P, .Q])
    (h : loadLegalIn r ph = true) : ph = .empty := by
  fin_cases hr <;> exact eq_of_beq h

/-- A load that passed its checks keeps the invariant; the factors are loaded in `EMPTY` only (10_state R31). -/
theorem inv_loadReg {r : Reg} {v : Nat} {s : State} (h : s.Inv) (hl : loadLegalIn r s.PHASE = true)
    (hfit : r.isBig = true → bitlen v ≤ s.PARAMS.KMAX) : (loadReg r v s).Inv := by
  cases r with
  | P =>
    have hph := phase_empty_of_loadLegalIn (by decide) hl
    exact { h with
      fitP := hfit rfl
      noP := nofun
      dropped := by simp [hph]
      kept := by simp [hph]
      failed := by simp [hph] }
  | Q =>
    have hph := phase_empty_of_loadLegalIn (by decide) hl
    exact { h with
      fitQ := hfit rfl
      noQ := nofun
      dropped := by simp [hph]
      kept := by simp [hph]
      failed := by simp [hph] }
  | B => exact { h with fitB := hfit rfl }
  | E => exact { h with fitE := hfit rfl }
  | M => exact { h with fitM := hfit rfl }
  | KREQ | MODE | WHITEN | BASE => exact inv_unsaid h ..
  | N | X | R | KBL | STATUS => exact h

/-! ### Forming a modulus -/

/-- `MKN` with both factors supplied writes what `GENKEY` writes with its primes. -/
theorem writeSupplied_eq {s : State} (hP : s.PV = true) (hQ : s.QV = true) :
    writeSupplied s = writeGenerated s.P s.Q s := by
  simp [writeSupplied, writeGenerated, hP, hQ]

theorem inv_writeGenerated {p q : Nat} {s : State} (h : s.Inv) (hph : s.PHASE = .empty) (h2 : 2 ≤ p * q)
    (hp : bitlen p ≤ s.PARAMS.KMAX) (hq : bitlen q ≤ s.PARAMS.KMAX) (hN : bitlen (p * q) ≤ s.PARAMS.KMAX) :
    (writeGenerated p q s).Inv where
  fitN := hN
  fitX := h.fitX
  fitP := by rw [writeGenerated_P]; split <;> simp [hp]
  fitQ := by rw [writeGenerated_Q]; split <;> simp [hq]
  fitB := h.fitB
  fitE := h.fitE
  fitM := h.fitM
  fitR := h.fitR
  length := toNat_ofNat_bitlen s.PARAMS hN
  noP := by simp +contextual
  noQ := by simp +contextual
  empty := nofun
  keyed := fun _ => (h.empty hph).2
  formed := fun _ => h2
  dropped := by simp +contextual
  kept := by simp +contextual
  below := nofun
  coprime := nofun
  residue := nofun
  failed := nofun

theorem one_le_pBits (k : Nat) : 1 ≤ pBits k := Nat.le_add_left 1 (k / 2)

theorem one_le_qBits {k : Nat} (hk : 16 ≤ k) : 1 ≤ qBits k := by unfold qBits; omega

/-- A prime that the generator found fits, and is above its seed, which has the bit length asked for (41_modulus R143,
R144). -/
theorem genPrime_got_bounds {bits p : Nat} {s t : State} (hb : 1 ≤ bits) (h : genPrime bits s = .got p t) :
    2 ^ (bits - 1) < p ∧ bitlen p ≤ s.PARAMS.KMAX := by
  obtain ⟨-, bs, -, hfind⟩ := genPrime_got h
  obtain ⟨hlt, hfit, -⟩ := searchPrime_some hfind
  exact ⟨(two_pow_le_forceLength bits _ hb).trans_lt hlt, hfit⟩

theorem inv_genkeyBody {s u : State} {reply : Reply} (h : s.Inv) (hph : s.PHASE = .empty)
    (hb : genkeyBody s = .got reply u) : u.Inv := by
  obtain ⟨-, -, hk, -, p, q, s₁, s₂, h₁, h₂, hN, rfl, -⟩ := genkeyBody_got hb
  obtain ⟨hp, hpfit⟩ := genPrime_got_bounds (one_le_pBits _) h₁
  obtain ⟨hq, hqfit⟩ := genPrime_got_bounds (one_le_qBits hk) h₂
  obtain ⟨rfl, -⟩ := genPrime_got h₁
  obtain ⟨rfl, -⟩ := genPrime_got h₂
  have h2 : 2 * 1 ≤ p * q :=
    Nat.mul_le_mul (Nat.succ_le_of_lt (Nat.one_le_two_pow.trans_lt hp)) (Nat.one_le_two_pow.trans hq.le)
  exact inv_writeGenerated (inv_afterAsking (inv_afterAsking h ..) ..) hph h2 hpfit hqfit hN

theorem inv_mknBody {s u : State} {reply : Reply} (h : s.Inv) (hph : s.PHASE = .empty)
    (hb : mknBody s = .got reply u) : u.Inv := by
  obtain ⟨hP, hQ, h2, hfit, rfl, -⟩ := mknBody_got hb
  rw [writeSupplied_eq hP hQ]
  exact inv_writeGenerated h hph h2 h.fitP h.fitQ hfit

/-! ### The sequence of states -/

/-- What the state register holds in `READY` (10_state R32): a quadratic residue coprime to the modulus, reduced. -/
structure IsResidue (n x : Nat) : Prop where
  below : x < n
  coprime : Nat.gcd x n = 1
  residue : ∃ y, y * y % n = x

/-- The square of a number coprime to the modulus is such a residue (42_seed R162, 43_square_extract R175). -/
theorem isResidue_squareMod {n x : Nat} (hn : n ≠ 0) (h : Nat.gcd x n = 1) : IsResidue n (squareMod n x) where
  below := Nat.mod_lt _ (Nat.pos_of_ne_zero hn)
  coprime := by
    have hxx : Nat.Coprime (x * x) n := Nat.Coprime.mul_left h h
    rw [squareMod, ← Nat.gcd_rec, Nat.gcd_comm]
    exact hxx
  residue := ⟨x, rfl⟩

theorem isResidue_squarings {n x : Nat} (h : IsResidue n x) (j : Nat) : IsResidue n (squarings n x j) := by
  induction j with
  | zero => exact h
  | succ j ih => exact isResidue_squareMod (Nat.ne_zero_of_lt h.below) ih.coprime

theorem isResidue_X {s : State} (h : s.Inv) (hph : s.PHASE = .ready) : IsResidue s.N s.X :=
  ⟨h.below hph, h.coprime hph, h.residue hph⟩

/-- A residue may stand in the state register once a modulus is formed; the phase is `READY` then. -/
theorem inv_residue {s : State} {x : Nat} (h : s.Inv) (hph : s.PHASE = .keyed ∨ s.PHASE = .ready)
    (hx : IsResidue s.N x) : State.Inv { s with X := x, PHASE := .ready } :=
  { h with
    fitX := (bitlen_mono hx.below.le).trans h.fitN
    empty := nofun
    keyed := nofun
    formed := fun _ => h.formed hph
    dropped := fun _ => h.dropped hph
    kept := fun _ => h.kept hph
    below := fun _ => hx.below
    coprime := fun _ => hx.coprime
    residue := fun _ => hx.residue
    failed := nofun }

theorem inv_writeSeed {s : State} {x : Nat} (h : s.Inv) (hph : s.PHASE = .keyed) (hN : s.N ≠ 0)
    (hx : Nat.gcd x s.N = 1) : (writeSeed x s).Inv :=
  inv_residue h (.inl hph) (isResidue_squareMod hN hx)

theorem inv_of_X {s : State} {x : Nat} (h : s.Inv) (hph : s.PHASE = .ready) (hx : IsResidue s.N x) :
    State.Inv { s with X := x } := by
  have hsame : ({ s with X := x } : State) = { s with X := x, PHASE := .ready } := by rw [← hph]
  rw [hsame]
  exact inv_residue h (.inr hph) hx

theorem inv_fetchPad {n : Nat} {pad : List Byte × Bool} {s u : State} (h : s.Inv)
    (hp : fetchPad n s = .got pad u) : u.Inv := by
  obtain ⟨-, ⟨-, -, rfl⟩ | ⟨-, -, -, rfl⟩ | ⟨-, -, -, rfl⟩⟩ := fetchPad_got hp
  · exact h
  · exact inv_afterAsking h ..
  · exact inv_unsaid (inv_afterAsking h ..) ..

theorem fetchPad_N {n : Nat} {pad : List Byte × Bool} {s u : State} (hp : fetchPad n s = .got pad u) :
    u.N = s.N ∧ u.PHASE = s.PHASE := by
  obtain ⟨-, ⟨-, -, rfl⟩ | ⟨-, -, -, rfl⟩ | ⟨-, -, -, rfl⟩⟩ := fetchPad_got hp <;> exact ⟨rfl, rfl⟩

theorem inv_extractBytes {n : Nat} {out : List Byte × Bool} {s u : State} (h : s.Inv) (hph : s.PHASE = .ready)
    (hb : extractBytes n s = .got out u) : u.Inv := by
  rcases extractBytes_got hb with ⟨-, -, rfl⟩ | ⟨-, -, -, pad, v, hpad, -, rfl⟩
  · exact h
  · obtain ⟨hN, hv⟩ := fetchPad_N hpad
    have hx : IsResidue v.N (stateAfterBytes s n) := hN ▸ isResidue_squarings (isResidue_X h hph) _
    exact inv_of_X (inv_fetchPad h hpad) (hv.trans hph) hx

/-! ### Every command -/

theorem phase_of_legalIn {i : Instr} {ph ph' : Phase} (hi : legalPhases i = [ph']) (h : legalIn i ph = true) :
    ph = ph' := by
  rw [legalIn_iff, hi] at h
  exact List.mem_singleton.1 h

/-- A legal body that is done keeps the invariant. -/
theorem inv_of_bodyOf_got {i : Instr} {s u : State} {reply : Reply} (h : s.Inv)
    (hl : legalIn i s.PHASE = true) (hb : bodyOf i s = .got reply u) : u.Inv := by
  cases i with
  | ld r payload => obtain ⟨-, rfl, hfit, -⟩ := loadBody_got hb; exact inv_loadReg h hl hfit
  | rd r => cases hb; exact h
  | clr => cases hb; exact inv_clearRegisters s
  | genkey => exact inv_genkeyBody h (phase_of_legalIn rfl hl) hb
  | mkn => exact inv_mknBody h (phase_of_legalIn rfl hl) hb
  | seedr =>
    obtain ⟨hN, bs, x, -, hx, rfl, -⟩ := seedrBody_got hb
    exact inv_writeSeed (inv_afterAsking h ..) (phase_of_legalIn (i := .seedr) rfl hl) hN hx.2.1
  | seedx payload =>
    obtain ⟨hN, -, hx, rfl, -⟩ := seedxBody_got hb
    exact inv_writeSeed h (phase_of_legalIn (i := .seedx payload) rfl hl) hN hx
  | sqr =>
    obtain ⟨hN, rfl, -⟩ := sqrBody_got hb
    have hph := phase_of_legalIn (i := .sqr) rfl hl
    exact inv_of_X h hph (isResidue_squareMod hN (h.coprime hph))
  | extract payload =>
    obtain ⟨-, -, out, ho, -⟩ := extractBody_got hb
    exact inv_extractBytes h (phase_of_legalIn (i := .extract payload) rfl hl) ho
  | digits payload =>
    obtain ⟨-, -, -, -, out, ho, -⟩ := digitsBody_got hb
    exact inv_extractBytes h (phase_of_legalIn (i := .digits payload) rfl hl) ho
  | modexp =>
    obtain ⟨hM, rfl, -⟩ := modexpBody_got hb
    have hlt := Nat.mod_lt (s.B ^ s.E) (Nat.pos_of_ne_zero hM)
    exact { h with fitR := (bitlen_mono hlt.le).trans h.fitM }

theorem inv_of_exec {i : Instr} {s t : State} (h : s.Inv) (ht : exec i s = .next t) : t.Inv := by
  obtain (⟨-, rfl⟩ | ⟨-, rfl⟩) | ⟨-, hl, ⟨reply, u, hb, rfl⟩ | ⟨e, u, hb, rfl⟩⟩ := exec_cases ht
  · exact inv_raiseError h ..
  · exact inv_raiseError h ..
  · exact inv_respond (inv_of_bodyOf_got h hl hb) ..
  · have hu : u.Inv := bodyOf_raised_frame hb ▸ inv_unsaid h ..
    exact inv_raiseError hu ..

/-! ### The step -/

/-- Everything a step that completes can be (10_state R36, 60_exceptions R255, 70_reset R265). -/
theorem step_cases {s t : State} (h : step s = .next t) :
    (∃ k, s.RESETLINE = .asserted k ∧ t = takeReset (abandonCommand k s)) ∨
    (s.RESETLINE = .low ∧
      ((decode s.CMD = .incomplete ∧ t = s) ∨
       (∃ op why rest, decode s.CMD = .illegal op why rest ∧ t = illegalPacket op (s.withStream rest)) ∨
       (∃ i rest, decode s.CMD = .command i rest ∧ exec i (s.withStream rest) = .next t))) := by
  cases hline : s.RESETLINE with
  | asserted k =>
    simp only [step, hline] at h
    cases h
    exact .inl ⟨k, rfl, rfl⟩
  | low =>
    refine .inr ⟨rfl, ?_⟩
    cases hd : decode s.CMD with
    | incomplete => rw [step_incomplete hline hd] at h; cases h; exact .inl ⟨rfl, rfl⟩
    | illegal op why rest =>
      rw [step_illegal hline hd] at h; cases h; exact .inr (.inl ⟨op, why, rest, rfl, rfl⟩)
    | command i rest =>
      rw [step_command hline hd] at h; exact .inr (.inr ⟨i, rest, rfl, h⟩)

/-- Settles O46: reset clears, an illegal packet is only answered, and every command keeps the invariant. -/
theorem stepKeepsTheRunInvariant : Obligations.StepKeepsTheRunInvariant := by
  intro s t h ht
  obtain ⟨k, -, rfl⟩ | ⟨-, ⟨-, rfl⟩ | ⟨op, why, rest, -, rfl⟩ | ⟨i, rest, -, he⟩⟩ := step_cases ht
  · exact inv_takeReset _
  · exact h
  · exact inv_respond (inv_withStream h rest) ..
  · exact inv_of_exec (inv_withStream h rest) he

end Sys2Proof.Machine
end

section
/-!
Safety of the whole machine: where it stops in a run (60_exceptions section 1), how the phase moves (10_state section 4),
and what a `READY` session keeps (10_state section 3).
-/

namespace Sys2Proof.Machine

/-! ### Where the machine stops -/

/-- The bits per squaring of a formed modulus are at least one (10_state R33, 43_square_extract R180). -/
theorem bitsPerSquaring_pos {s : State} (h : s.Inv) (hph : s.PHASE = .keyed ∨ s.PHASE = .ready) :
    1 ≤ bitsPerSquaring s := by
  unfold bitsPerSquaring
  cases s.MODE with
  | conservative => exact le_rfl
  | accelerated =>
    have hN : 1 < bitlen s.N := (lt_bitlen_iff _ _).2 (h.formed hph)
    have hK : 1 < bitlen s.KBL.toNat := (lt_bitlen_iff _ _).2 (by rw [h.length]; omega)
    simp only [iLog2]
    omega

/-- In a run a body stops for nothing but a silent port: the other two stops need `N = 0` or `k = 0`. -/
theorem bodyOf_stopped_of_inv {i : Instr} {s : State} {f : Fault} (h : s.Inv) (hl : legalIn i s.PHASE = true)
    (hb : bodyOf i s = .stopped f) : f = .portSilent ∧ ∃ k, WaitsAt i s k := by
  rcases bodyOf_stopped hb with hsilent | ⟨hrow, hundef⟩
  · exact hsilent
  · exfalso
    have hph : s.PHASE = .keyed ∨ s.PHASE = .ready :=
      hrow.imp (fun hi => phase_of_legalIn hi hl) (fun hi => phase_of_legalIn hi hl)
    have hN := h.formed hph
    have hk := bitsPerSquaring_pos h hph
    omega

theorem afterRequests_withStream (rs : List Request) (rest : List Byte) (s : State) :
    afterRequests rs (s.withStream rest) = (afterRequests rs s).withStream rest := by
  induction rs generalizing s with
  | nil => rfl
  | cons r rs ih =>
    have hask : afterAsking r.port r.count (s.withStream rest)
        = (afterAsking r.port r.count s).withStream rest := by cases r.port <;> rfl
    rw [afterRequests_cons, hask, ih, afterRequests_cons]

theorem answerTo_withStream (port : Port) (n : Nat) (rest : List Byte) (s : State) :
    answerTo port n (s.withStream rest) = answerTo port n s := by
  cases port <;> rfl

/-- Taking the packet off the stream changes no answer that its command gets. -/
theorem answerAt_withStream (i : Instr) (rest : List Byte) (s : State) (k : Nat) :
    answerAt i (s.withStream rest) k = answerAt i s k := by
  have hrow : mayAsk i (s.withStream rest) = mayAsk i s := by cases i <;> rfl
  simp only [answerAt, hrow, afterRequests_withStream, answerTo_withStream]

theorem waitsAt_withStream (i : Instr) (rest : List Byte) (s : State) (k : Nat) :
    WaitsAt i (s.withStream rest) k ↔ WaitsAt i s k := by
  simp only [WaitsAt, OkBefore, answerAt_withStream]

theorem step_not_refused (s : State) (r : Refusal) : step s ≠ .refused r := by
  unfold step
  split
  · exact nofun
  · split
    · exact nofun
    · exact nofun
    · exact exec_not_refused _ _ r

/-- Only a command stops a step. -/
theorem step_fault {s : State} {f : Fault} (h : step s = .fault f) :
    s.RESETLINE = .low ∧ ∃ i rest, decode s.CMD = .command i rest ∧ exec i (s.withStream rest) = .fault f := by
  unfold step at h
  split at h
  · cases h
  · next hlow =>
    split at h
    · cases h
    · cases h
    · next i rest hd => exact ⟨hlow, i, rest, hd, h⟩

/-- Settles O47: a fault is that of a body, which in a run is a silent port's. -/
theorem onlyASilentPortStopsTheEngine : Obligations.OnlyASilentPortStopsTheEngine := by
  refine fun s h => ⟨step_not_refused s, fun f hf => ?_⟩
  obtain ⟨hlow, i, rest, hd, he⟩ := step_fault hf
  obtain ⟨hl, hb⟩ := exec_fault he
  obtain ⟨rfl, k, hk⟩ := bodyOf_stopped_of_inv (inv_withStream h rest) hl hb
  exact ⟨rfl, hlow, i, rest, k, hd, (waitsAt_withStream i rest s k).1 hk⟩

/-! ### How the phase moves -/

/-- The phase move of a command that is done, by its row of 10_state R31's table. -/
theorem phaseAfter_cases {i : Instr} {ph : Phase} (h : legalIn i ph = true) :
    phaseAfter i ph = ph ∨ (i = .clr ∧ phaseAfter i ph = .empty) ∨
    (ph = .empty ∧ (i = .genkey ∨ i = .mkn) ∧ phaseAfter i ph = .keyed) ∨
    (ph = .keyed ∧ (i = .seedr ∨ ∃ payload, i = .seedx payload) ∧ phaseAfter i ph = .ready) := by
  cases i with
  | clr => exact .inr (.inl ⟨rfl, rfl⟩)
  | genkey => exact .inr (.inr (.inl ⟨phase_of_legalIn rfl h, .inl rfl, rfl⟩))
  | mkn => exact .inr (.inr (.inl ⟨phase_of_legalIn rfl h, .inr rfl, rfl⟩))
  | seedr => exact .inr (.inr (.inr ⟨phase_of_legalIn (i := .seedr) rfl h, .inl rfl, rfl⟩))
  | seedx payload =>
    exact .inr (.inr (.inr ⟨phase_of_legalIn (i := .seedx payload) rfl h, .inr ⟨payload, rfl⟩, rfl⟩))
  | ld | rd | sqr | extract | digits | modexp => exact .inl rfl

/-- An init command is one of the two that form a modulus in `EMPTY`, or of the two that seed in `KEYED`. -/
theorem init_cases {i : Instr} {ph : Phase} (hi : isInit i = true) (h : legalIn i ph = true) :
    (ph = .empty ∧ (i = .genkey ∨ i = .mkn)) ∨
    (ph = .keyed ∧ (i = .seedr ∨ ∃ payload, i = .seedx payload)) := by
  cases i with
  | genkey => exact .inl ⟨phase_of_legalIn rfl h, .inl rfl⟩
  | mkn => exact .inl ⟨phase_of_legalIn rfl h, .inr rfl⟩
  | seedr => exact .inr ⟨phase_of_legalIn (i := .seedr) rfl h, .inl rfl⟩
  | seedx payload => exact .inr ⟨phase_of_legalIn (i := .seedx payload) rfl h, .inr ⟨payload, rfl⟩⟩
  | ld | rd | clr | sqr | extract | digits | modexp => cases hi

theorem bodyOf_raised_PHASE {i : Instr} {s u : State} {e : Status} (h : bodyOf i s = .raised e u) :
    u.PHASE = s.PHASE := by
  rw [bodyOf_raised_frame h]

/-- Settles O49: a refusal leaves the phase, a body that is done makes its row's move, and a fatal error is an init
command's. -/
theorem phaseMovesFollowTheTable : Obligations.PhaseMovesFollowTheTable := by
  intro i s t h
  obtain (⟨-, rfl⟩ | ⟨-, rfl⟩) | ⟨-, hl, ⟨reply, u, hb, rfl⟩ | ⟨e, u, hb, rfl⟩⟩ := exec_cases h
  · exact .inl (by simp [raiseError_PHASE, isFatal])
  · exact .inl (by simp [raiseError_PHASE, isFatal])
  · rw [respond_PHASE, bodyOf_got_PHASE hb]
    obtain hsame | hclr | ⟨hph, hi, hmove⟩ | ⟨hph, hi, hmove⟩ := phaseAfter_cases hl
    · exact .inl hsame
    · exact .inr (.inl hclr)
    · exact .inr (.inr (.inl ⟨hph, hi, .inl hmove⟩))
    · exact .inr (.inr (.inr ⟨hph, hi, .inl hmove⟩))
  · rw [raiseError_PHASE, bodyOf_raised_PHASE hb]
    split
    · next hf =>
      obtain ⟨hi, -⟩ := (isFatal_iff i e).1 hf
      rcases init_cases hi hl with ⟨hph, hi⟩ | ⟨hph, hi⟩
      · exact .inr (.inr (.inl ⟨hph, hi, .inr rfl⟩))
      · exact .inr (.inr (.inr ⟨hph, hi, .inr rfl⟩))
    · exact .inl rfl

/-! ### A `READY` session -/

/-- From `s` to `t` the session has kept its modulus and configuration, and whitening has not risen (10_state R26, R27,
R31). -/
structure SessionKept (s t : State) : Prop where
  phase : t.PHASE = s.PHASE
  modulus : t.N = s.N
  length : t.KBL = s.KBL
  requested : t.KREQ = s.KREQ
  mode : t.MODE = s.MODE
  first : t.P = s.P
  second : t.Q = s.Q
  whiten : t.WHITEN = true → s.WHITEN = true

theorem sessionKept_respond {s u : State} (h : SessionKept s u) (op : Byte) (st : Status) (payload : List Byte) :
    SessionKept s (respond op st payload u) := by
  obtain ⟨⟩ := h
  constructor <;> assumption

theorem sessionKept_refl (s : State) : SessionKept s s :=
  ⟨rfl, rfl, rfl, rfl, rfl, rfl, rfl, id⟩

theorem sessionKept_extractBytes {n : Nat} {out : List Byte × Bool} {s u : State}
    (h : extractBytes n s = .got out u) : SessionKept s u := by
  rcases extractBytes_got h with ⟨-, -, rfl⟩ | ⟨-, -, -, pad, v, hpad, -, rfl⟩
  · exact sessionKept_refl _
  · obtain ⟨-, ⟨-, -, rfl⟩ | ⟨-, -, -, rfl⟩ | ⟨-, -, -, rfl⟩⟩ := fetchPad_got hpad <;>
      exact ⟨rfl, rfl, rfl, rfl, rfl, rfl, rfl, by simp⟩

/-- The loads legal in `READY` are those of the operands of `MODEXP` and `DIGITS`. -/
theorem sessionKept_loadReg {r : Reg} {v : Nat} {s : State} (hph : s.PHASE = .ready)
    (hl : loadLegalIn r s.PHASE = true) : SessionKept s (loadReg r v s) := by
  rw [hph] at hl
  cases r with
  | B | E | M | BASE => exact ⟨rfl, rfl, rfl, rfl, rfl, rfl, rfl, id⟩
  | N | X | R | KBL | STATUS | P | Q | KREQ | MODE | WHITEN => cases hl

theorem sessionKept_bodyOf_got {i : Instr} {s u : State} {reply : Reply} (hph : s.PHASE = .ready)
    (hl : legalIn i s.PHASE = true) (hclr : i ≠ .clr) (h : bodyOf i s = .got reply u) : SessionKept s u := by
  cases i with
  | ld r payload => obtain ⟨-, rfl, -⟩ := loadBody_got h; exact sessionKept_loadReg hph hl
  | rd r => cases h; exact sessionKept_refl s
  | clr => exact absurd rfl hclr
  | genkey | mkn | seedr | seedx => rw [hph] at hl; cases hl
  | sqr => obtain ⟨-, rfl, -⟩ := sqrBody_got h; exact ⟨rfl, rfl, rfl, rfl, rfl, rfl, rfl, id⟩
  | extract payload => obtain ⟨-, -, out, ho, -⟩ := extractBody_got h; exact sessionKept_extractBytes ho
  | digits payload => obtain ⟨-, -, -, -, out, ho, -⟩ := digitsBody_got h; exact sessionKept_extractBytes ho
  | modexp => obtain ⟨-, rfl, -⟩ := modexpBody_got h; exact ⟨rfl, rfl, rfl, rfl, rfl, rfl, rfl, id⟩

theorem isInit_eq_false_of_ready {i : Instr} (h : legalIn i .ready = true) : isInit i = false := by
  cases i with
  | genkey | mkn | seedr | seedx => cases h
  | ld | rd | clr | sqr | extract | digits | modexp => rfl

theorem sessionKept_raiseError {i : Instr} {e : Status} (s : State) (h : isFatal i e = false) :
    SessionKept s (raiseError i e s) := by
  rw [raiseError, if_neg (by simp [h])]
  exact sessionKept_respond (sessionKept_refl s) ..

/-- In `READY` every command but `CLR` keeps the session. -/
theorem sessionKept_of_exec {i : Instr} {s t : State} (hph : s.PHASE = .ready) (hclr : i ≠ .clr)
    (h : exec i s = .next t) : SessionKept s t := by
  obtain (⟨-, rfl⟩ | ⟨-, rfl⟩) | ⟨-, hl, ⟨reply, u, hb, rfl⟩ | ⟨e, u, hb, rfl⟩⟩ := exec_cases h
  · exact sessionKept_raiseError s (by simp [isFatal])
  · exact sessionKept_raiseError s (by simp [isFatal])
  · exact sessionKept_respond (sessionKept_bodyOf_got hph hl hclr hb) ..
  · have hi : isInit i = false := isInit_eq_false_of_ready (hph ▸ hl)
    obtain rfl := bodyOf_raised_of_not_init hi hb
    exact sessionKept_raiseError u (by simp [isFatal, hi])

theorem sessionKept_of_withStream {s t : State} {rest : List Byte} (h : SessionKept (s.withStream rest) t) :
    SessionKept s t := by
  obtain ⟨⟩ := h
  constructor <;> assumption

/-- From `READY` a step is a reset, or is `CLR`, or keeps the session. -/
theorem step_from_ready {s t : State} (hph : s.PHASE = .ready) (h : step s = .next t) :
    SessionKept s t ∨ t.PHASE = .empty ∧
      (s.RESETLINE ≠ .low ∨ ∃ rest, decode s.CMD = .command .clr rest) := by
  obtain ⟨k, hline, rfl⟩ | ⟨-, ⟨-, rfl⟩ | ⟨op, why, rest, -, rfl⟩ | ⟨i, rest, hd, he⟩⟩ := step_cases h
  · exact .inr ⟨rfl, .inl (by rw [hline]; exact nofun)⟩
  · exact .inl (sessionKept_refl _)
  · exact .inl (sessionKept_of_withStream (sessionKept_respond (sessionKept_refl _) ..))
  · by_cases hclr : i = .clr
    · subst hclr
      rw [exec_clr] at he
      cases he
      exact .inr ⟨rfl, .inr ⟨rest, hd⟩⟩
    · exact .inl (sessionKept_of_withStream (sessionKept_of_exec (s := s.withStream rest) hph hclr he))

/-- Settles O50: `step_from_ready`. -/
theorem readySessionKeepsItsConfiguration : Obligations.ReadySessionKeepsItsConfiguration := by
  intro s t hph h
  refine (step_from_ready hph h).imp_left ?_
  rintro ⟨hphase, hN, hKBL, hKREQ, hMODE, hP, hQ, hW⟩
  exact ⟨hphase.trans hph, hN, hKBL, hKREQ, hMODE, hP, hQ, hW⟩

end Sys2Proof.Machine
end

section
/-!
Noninterference: what a command does not read makes no difference to what it does, be it the exponentiation engine's
registers (40_transfer_system section LD) or the bytes behind its packet (20_memory section 5).
-/

namespace Sys2Proof.Machine

/-! ### Commands and transformations of the state -/

/-- The end of a part with the state it leaves transformed. -/
def Attempt.map {α : Type} (f : State → State) : Attempt α → Attempt α
  | .got a s => .got a (f s)
  | .raised e s => .raised e (f s)
  | .stopped x => .stopped x

theorem Attempt.map_andThen {α β : Type} {f : State → State} (part : Attempt α) {k : α → State → Attempt β}
    (hk : ∀ a s, k a (f s) = (k a s).map f) : (part.map f).andThen k = (part.andThen k).map f := by
  cases part with
  | got a s => exact hk a s
  | raised e s => rfl
  | stopped x => rfl

/-- A transformation of the state that responses and error entry do not notice. -/
structure Transparent (f : State → State) : Prop where
  phase : ∀ s, (f s).PHASE = s.PHASE
  respond : ∀ op st payload s, respond op st payload (f s) = f (respond op st payload s)
  erase : ∀ s, eraseSession (f s) = f (eraseSession s)

theorem Transparent.raiseError {f : State → State} (hf : Transparent f) (i : Instr) (e : Status) (s : State) :
    raiseError i e (f s) = f (raiseError i e s) := by
  unfold Machine.raiseError
  split
  · rw [hf.erase, hf.respond]
  · rw [hf.respond]

/-- Where a command's body goes along with such a transformation, the command does. -/
theorem Transparent.exec {f : State → State} (hf : Transparent f) {i : Instr} {s t : State}
    (hb : bodyOf i (f s) = (bodyOf i s).map f) (h : exec i s = .next t) : exec i (f s) = .next (f t) := by
  cases hr : readOnlyLoad i with
  | true =>
    rw [exec_readOnlyLoad _ hr] at h ⊢
    cases h
    rw [hf.raiseError]
  | false =>
    rw [exec_eq _ hr] at h ⊢
    obtain ⟨hl, rfl⟩ | ⟨hl, reply, u, hu, rfl⟩ | ⟨hl, e, u, hu, rfl⟩ := runCommand_cases h
    · rw [runCommand_illegal (by rw [hf.phase, hl]), hf.raiseError]
    · rw [runCommand_got (by rw [hf.phase, hl]) (hb.trans (congrArg _ hu)), hf.respond]
    · rw [runCommand_raised (by rw [hf.phase, hl]) (hb.trans (congrArg _ hu)), hf.raiseError]

/-! ### What the generator does not read -/

/-- The state with other contents of all that no command of the generator reads: the exponentiation engine's registers
and the command stream behind its packet. -/
def withUnread (b e m r : Nat) (cmd : List Byte) (s : State) : State :=
  { s with B := b, E := e, M := m, R := r, CMD := cmd }

section
variable (b e m r : Nat) (cmd : List Byte) (s : State)

theorem transparent_withUnread : Transparent (withUnread b e m r cmd) :=
  ⟨fun _ => rfl, fun _ _ _ _ => rfl, fun _ => rfl⟩

theorem answerTo_withUnread (port : Port) (n : Nat) :
    answerTo port n (withUnread b e m r cmd s) = answerTo port n s := by cases port <;> rfl

theorem afterAsking_withUnread (port : Port) (n : Nat) :
    afterAsking port n (withUnread b e m r cmd s) = withUnread b e m r cmd (afterAsking port n s) := by
  cases port <;> rfl

theorem genPrime_withUnread (bits : Nat) :
    genPrime bits (withUnread b e m r cmd s) = (genPrime bits s).map (withUnread b e m r cmd) := by
  have hps : (withUnread b e m r cmd s).PARAMS = s.PARAMS := rfl
  simp only [genPrime, answerTo_withUnread, afterAsking_withUnread, hps]
  cases answerTo .highQuality (bytesFor bits) s with
  | silent => rfl
  | fail => rfl
  | bytes bs =>
    simp only
    cases findPrime s.PARAMS (forceLength bits (fromBytes bs)) <;> rfl

theorem formModulus_withUnread (p q : Nat) :
    formModulus p q (withUnread b e m r cmd s) = (formModulus p q s).map (withUnread b e m r cmd) := by
  simp only [formModulus, apply_ite (Attempt.map (withUnread b e m r cmd))]
  rfl

theorem genkeyBody_withUnread :
    genkeyBody (withUnread b e m r cmd s) = (genkeyBody s).map (withUnread b e m r cmd) := by
  have hdraws : ((genPrime (pBits s.KREQ.toNat) (withUnread b e m r cmd s)).andThen fun p s₁ =>
        (genPrime (qBits s.KREQ.toNat) s₁).andThen fun q s₂ => formModulus p q s₂)
      = ((genPrime (pBits s.KREQ.toNat) s).andThen fun p s₁ =>
        (genPrime (qBits s.KREQ.toNat) s₁).andThen fun q s₂ => formModulus p q s₂).map
          (withUnread b e m r cmd) := by
    rw [genPrime_withUnread]
    refine Attempt.map_andThen _ fun p s₁ => ?_
    rw [genPrime_withUnread]
    exact Attempt.map_andThen _ fun q s₂ => formModulus_withUnread b e m r cmd s₂ p q
  simp only [genkeyBody, apply_ite (Attempt.map (withUnread b e m r cmd)), ← hdraws]
  rfl

theorem seedrBody_withUnread :
    seedrBody (withUnread b e m r cmd s) = (seedrBody s).map (withUnread b e m r cmd) := by
  have hN : (withUnread b e m r cmd s).N = s.N := rfl
  have hK : (withUnread b e m r cmd s).KBL = s.KBL := rfl
  simp only [seedrBody, answerTo_withUnread, afterAsking_withUnread, hN, hK]
  split
  · rfl
  · cases answerTo .highQuality (bytesFor s.KBL.toNat) s <;> rfl

theorem fetchPad_withUnread (n : Nat) :
    fetchPad n (withUnread b e m r cmd s) = (fetchPad n s).map (withUnread b e m r cmd) := by
  have hW : (withUnread b e m r cmd s).WHITEN = s.WHITEN := rfl
  simp only [fetchPad, answerTo_withUnread, afterAsking_withUnread, hW]
  split
  · cases answerTo .advisory n s <;> rfl
  · rfl

theorem extractBytes_withUnread (n : Nat) :
    extractBytes n (withUnread b e m r cmd s) = (extractBytes n s).map (withUnread b e m r cmd) := by
  have hloop := Attempt.map_andThen (f := withUnread b e m r cmd) (fetchPad n s)
    (k := fun pad s₁ => .got ((packLoop s₁ n pad.1).OUT.reverse, pad.2)
      { s₁ with X := (packLoop s₁ n pad.1).X }) fun _ _ => rfl
  simp only [extractBytes, apply_ite (Attempt.map (withUnread b e m r cmd)), ← hloop, fetchPad_withUnread]
  rfl

theorem extractBody_withUnread (n : Nat) :
    extractBody n (withUnread b e m r cmd s) = (extractBody n s).map (withUnread b e m r cmd) := by
  have hdone := Attempt.map_andThen (f := withUnread b e m r cmd) (extractBytes n s)
    (k := fun out s₁ => .got (extractStatus out.2, out.1) s₁) fun _ _ => rfl
  simp only [extractBody, apply_ite (Attempt.map (withUnread b e m r cmd)), ← hdone, extractBytes_withUnread]
  rfl

theorem digitsBody_withUnread (count : Nat) :
    digitsBody count (withUnread b e m r cmd s) = (digitsBody count s).map (withUnread b e m r cmd) := by
  have hdone := Attempt.map_andThen (f := withUnread b e m r cmd)
    (extractBytes (byteCount s.BASE.toNat count) s)
    (k := fun out s₁ => .got
      (extractStatus out.2, digitsPayload s.BASE.toNat (digitsOf s.BASE.toNat count out.1)) s₁) fun _ _ => rfl
  simp only [digitsBody, apply_ite (Attempt.map (withUnread b e m r cmd)), ← hdone, ← extractBytes_withUnread]
  rfl

theorem loadBody_withUnread {r' : Reg} (v : Nat) (h : r' ∉ [Reg.B, .E, .M]) :
    loadBody r' v (withUnread b e m r cmd s) = (loadBody r' v s).map (withUnread b e m r cmd) := by
  have hload : loadReg r' v (withUnread b e m r cmd s) = withUnread b e m r cmd (loadReg r' v s) := by
    cases r' with
    | B | E | M => simp at h
    | N | X | P | Q | R | KREQ | KBL | MODE | WHITEN | BASE | STATUS => rfl
  simp only [loadBody, apply_ite (Attempt.map (withUnread b e m r cmd)), hload]
  rfl

/-- A body of the generator goes along with any change of what it does not read. -/
theorem bodyOf_withUnread {i : Instr} (h : leavesOperands i = true) :
    bodyOf i (withUnread b e m r cmd s) = (bodyOf i s).map (withUnread b e m r cmd) := by
  cases i with
  | ld reg payload => exact loadBody_withUnread b e m r cmd s _ (by rintro hr; fin_cases hr <;> cases h)
  | rd reg =>
    cases reg with
    | B | E | M | R => cases h
    | N | X | P | Q | KREQ | KBL | MODE | WHITEN | BASE | STATUS => rfl
  | clr | modexp => cases h
  | genkey => exact genkeyBody_withUnread b e m r cmd s
  | mkn => simp only [bodyOf, mknBody, apply_ite (Attempt.map (withUnread b e m r cmd))]; rfl
  | seedr => exact seedrBody_withUnread b e m r cmd s
  | seedx payload => simp only [bodyOf, seedxBody, apply_ite (Attempt.map (withUnread b e m r cmd))]; rfl
  | sqr => simp only [bodyOf, sqrBody, apply_ite (Attempt.map (withUnread b e m r cmd))]; rfl
  | extract payload => exact extractBody_withUnread b e m r cmd s _
  | digits payload => exact digitsBody_withUnread b e m r cmd s _

end

theorem exec_withUnread (b e m r : Nat) (cmd : List Byte) {i : Instr} {s t : State} (hi : leavesOperands i = true)
    (h : exec i s = .next t) : exec i (withUnread b e m r cmd s) = .next (withUnread b e m r cmd t) :=
  (transparent_withUnread b e m r cmd).exec (bodyOf_withUnread b e m r cmd s hi) h

/-- The generator leaves what it does not read: run with the contents that stand there, it writes just these back. -/
theorem eq_withUnread_of_exec {i : Instr} {s t : State} (hi : leavesOperands i = true) (h : exec i s = .next t) :
    t = withUnread s.B s.E s.M s.R s.CMD t := by
  have hself := exec_withUnread s.B s.E s.M s.R s.CMD hi h
  exact Host.Outcome.next.inj (h.symm.trans hself)

/-- Settles O53: the frame is the simulation with the operands that are there, the rest the simulation with others. -/
theorem generatorIgnoresTheExponentiationRegisters : Obligations.GeneratorIgnoresTheExponentiationRegisters := by
  intro i s t b e m r hi h
  have hframe := eq_withUnread_of_exec hi h
  obtain ⟨hB, hE, hM, hR⟩ : t.B = s.B ∧ t.E = s.E ∧ t.M = s.M ∧ t.R = s.R := by
    rw [hframe]
    exact ⟨rfl, rfl, rfl, rfl⟩
  refine ⟨hB, hE, hM, hR, ?_⟩
  have hcmd : withOperands b e m r t = withUnread b e m r s.CMD t := by
    rw [hframe]
    rfl
  rw [hcmd]
  exact exec_withUnread b e m r s.CMD hi h

/-! ### The stream behind a packet -/

theorem transparent_withStream (cmd : List Byte) : Transparent (·.withStream cmd) :=
  ⟨fun _ => rfl, fun _ _ _ _ => rfl, fun _ => rfl⟩

/-- The commands that read or write the exponentiation engine's registers do not look at the stream either. -/
theorem bodyOf_withStream_of_operands {i : Instr} (cmd : List Byte) (s : State) (h : leavesOperands i = false) :
    bodyOf i (s.withStream cmd) = (bodyOf i s).map (·.withStream cmd) := by
  cases i with
  | ld reg payload =>
    have hload : ∀ v, loadReg reg v (s.withStream cmd) = (loadReg reg v s).withStream cmd :=
      fun v => by cases reg <;> rfl
    simp only [bodyOf, loadBody, apply_ite (Attempt.map (·.withStream cmd)), hload]
    rfl
  | rd reg => cases reg <;> rfl
  | clr => rfl
  | modexp => simp only [bodyOf, modexpBody, apply_ite (Attempt.map (·.withStream cmd))]; rfl
  | genkey | mkn | seedr | seedx | sqr | extract | digits => cases h

/-- A command takes no notice of the stream behind its packet and leaves it there. -/
theorem exec_withStream {i : Instr} {s t : State} (cmd : List Byte) (h : exec i s = .next t) :
    exec i (s.withStream cmd) = .next (t.withStream cmd) := by
  cases hi : leavesOperands i with
  | false => exact (transparent_withStream cmd).exec (bodyOf_withStream_of_operands cmd s hi) h
  | true =>
    have hframe : t.withStream cmd = withUnread s.B s.E s.M s.R cmd t := by
      rw [eq_withUnread_of_exec hi h]
      rfl
    rw [hframe]
    exact exec_withUnread s.B s.E s.M s.R cmd hi h

theorem exec_CMD {i : Instr} {s t : State} (h : exec i s = .next t) : t.CMD = s.CMD := by
  have hself : exec i s = .next (t.withStream s.CMD) := exec_withStream s.CMD h
  rw [Host.Outcome.next.inj (h.symm.trans hself)]
  rfl

/-- Settles O51: the decoder leaves the later bytes behind the packet, and the command does not look at them. -/
theorem laterBytesDoNotDisturbACommand : Obligations.LaterBytesDoNotDisturbACommand := by
  intro s t later hlow hd h
  have happend := decode_append later hd
  obtain ⟨k, hk, -⟩ | ⟨-, ⟨hinc, -⟩ | ⟨op, why, rest, hill, rfl⟩ | ⟨i, rest, hcmd, he⟩⟩ := step_cases h
  · rw [hlow] at hk; cases hk
  · exact absurd hinc hd
  · rw [hill] at happend
    exact step_illegal (s := hostSend later s) hlow happend
  · rw [hcmd] at happend
    rw [step_command (s := hostSend later s) hlow happend]
    have hsent : hostSend later t = t.withStream (rest ++ later) := by
      rw [hostSend, exec_CMD he]
      rfl
    rw [hsent]
    exact exec_withStream (s := s.withStream rest) (rest ++ later) he

end Sys2Proof.Machine
end

section
/-!
Register transfer (40_transfer_system): the loads that are refused, a load done twice, and the `STATUS` word (10_state
section 3).
-/

namespace Sys2Proof.Machine

/-! ### Loads that are refused -/

/-- An `LD` never ends the session: its errors are not fatal (60_exceptions R246). -/
theorem raiseError_ld (r : Reg) (payload : List Byte) {e : Status} (he : e ≠ .ok) (s : State) :
    raiseError (.ld r payload) e s = { s with ERR := e, RSP := s.RSP ++ errorResponse 0x01 e } :=
  raiseError_plain (i := .ld r payload) rfl he s

/-- Settles O11: the term's own meaning, which no packet reaches. -/
theorem loadOfAReadOnlyRegisterIsIllegal : Obligations.LoadOfAReadOnlyRegisterIsIllegal := by
  intro r payload s hr
  have hro : readOnlyLoad (.ld r payload) = true := by fin_cases hr <;> rfl
  rw [exec_readOnlyLoad s hro, raiseError_ld (e := .illegalCommand) r payload nofun]

section
variable {r : Reg} {v : Nat} {s : State}

theorem loadBody_of_big_outgrown (hr : r.isBig = true) (h : s.PARAMS.KMAX < bitlen v) :
    loadBody r v s = .raised .capacityExceeded s := by
  have hfit : (r.isBig && !fitsBig s v) = true := by rw [hr, Bool.true_and]; exact (not_fitsBig_iff s v).2 h
  rw [loadBody, if_pos hfit]

variable (hr : r.isBig = false)
include hr

/-- The checks of a load of a scalar register. -/
theorem loadBody_of_scalar :
    loadBody r v s =
      if 2 ^ 32 ≤ v then .raised .capacityExceeded s
      else if (r == .MODE || r == .WHITEN) && decide (1 < v) then .raised .invalidParameter s
      else .got (.ok, []) (loadReg r v s) := by
  simp [loadBody, hr, fitsScalar]

theorem loadBody_of_scalar_outgrown (h : 2 ^ 32 ≤ v) : loadBody r v s = .raised .capacityExceeded s := by
  rw [loadBody_of_scalar hr, if_pos h]

end

theorem loadBody_of_no_policy {r : Reg} {v : Nat} {s : State} (hr : r ∈ [Reg.MODE, .WHITEN]) (h1 : 1 < v)
    (h : v < 2 ^ 32) : loadBody r v s = .raised .invalidParameter s := by
  have hbig : r.isBig = false := by fin_cases hr <;> rfl
  have hbad : ((r == .MODE || r == .WHITEN) && decide (1 < v)) = true := by
    simpa [h1] using hr
  rw [loadBody_of_scalar hbig, if_neg (Nat.not_le.2 h), if_pos hbad]

/-- A legal `LD` whose body raises changes `ERR` and answers. -/
theorem exec_ld_raised {r : Reg} {payload : List Byte} {s : State} {e : Status} (he : e ≠ .ok)
    (hl : loadLegalIn r s.PHASE = true) (hb : loadBody r (fromBytes payload) s = .raised e s) :
    exec (.ld r payload) s = .next { s with ERR := e, RSP := s.RSP ++ errorResponse 0x01 e } :=
  exec_plain_error (i := .ld r payload) (readOnlyLoad_of_loadLegalIn payload hl) hl rfl he hb

/-- Settles O15: `LD`'s body check by check. -/
theorem loadRefusesWhatDoesNotFit : Obligations.LoadRefusesWhatDoesNotFit := by
  intro r payload s hph
  have hl : loadLegalIn r s.PHASE = true := (legalIn_iff (.ld r payload) _).2 hph
  refine ⟨fun hr h => ?_, fun hr h => ?_, fun hr h1 h => ?_⟩
  · exact exec_ld_raised nofun hl (loadBody_of_big_outgrown (by fin_cases hr <;> rfl) h)
  · exact exec_ld_raised nofun hl (loadBody_of_scalar_outgrown (by fin_cases hr <;> rfl) h)
  · exact exec_ld_raised nofun hl (loadBody_of_no_policy hr h1 h)

/-! ### A load done twice -/

/-- Of the state, the checks of a load see the parameters alone. -/
theorem loadBody_raised_congr {r : Reg} {v : Nat} {e : Status} {s t u : State} (hps : t.PARAMS = s.PARAMS)
    (h : loadBody r v s = .raised e u) : loadBody r v t = .raised e t := by
  have hfit : fitsBig t v = fitsBig s v := by rw [fitsBig, hps]; rfl
  unfold loadBody at h ⊢
  rw [hfit]
  split at h
  · next h1 => cases h; rw [if_pos h1]
  · next h1 =>
    rw [if_neg h1]
    split at h
    · next h2 => cases h; rw [if_pos h2]
    · next h2 =>
      rw [if_neg h2]
      split at h
      · next h3 => cases h; rw [if_pos h3]
      · cases h

/-- The same value loaded again writes what stands there. -/
theorem loadReg_again (r : Reg) (v : Nat) (op op' : Byte) (s : State) :
    { loadReg r v (respond op .ok [] (loadReg r v s)) with RSP := (respond op' .ok [] (loadReg r v s)).RSP }
      = respond op' .ok [] (loadReg r v s) := by
  cases r <;> rfl

/-- Settles O16: a refusal is refused again, an error raised again, and a value that was loaded is loaded again. -/
theorem loadIsIdempotent : Obligations.LoadIsIdempotent := by
  intro r payload s t h
  cases hr : readOnlyLoad (.ld r payload) with
  | true =>
    rw [exec_readOnlyLoad _ hr, raiseError_ld (e := .illegalCommand) r payload nofun] at h
    cases h
    rw [exec_readOnlyLoad _ hr, raiseError_ld (e := .illegalCommand) r payload nofun]
    exact ⟨_, rfl, rfl⟩
  | false =>
    rw [exec_eq _ hr] at h
    obtain ⟨hl, rfl⟩ | ⟨hl, reply, u, hb, rfl⟩ | ⟨hl, e, u, hb, rfl⟩ := runCommand_cases h
    · rw [raiseError_ld (e := .wrongPhase) r payload nofun]
      exact ⟨_, exec_wrongPhase hr hl, rfl⟩
    · obtain ⟨rfl, rfl, hbig, hscalar, hpolicy⟩ := loadBody_got hb
      have hl' : loadLegalIn r (loadReg r (fromBytes payload) s).PHASE = true := by
        rw [loadReg_PHASE]; exact hl
      have hfit : r.isBig = true → bitlen (fromBytes payload) ≤ (loadReg r (fromBytes payload) s).PARAMS.KMAX := by
        rw [loadReg_PARAMS]; exact hbig
      exact ⟨_, exec_ld_of_loadBody hl' (loadBody_of_fits hfit hscalar hpolicy), loadReg_again r _ _ _ s⟩
    · obtain rfl := bodyOf_raised_of_not_init rfl hb
      obtain ⟨hok, -⟩ := bodyOf_raised_status hb
      rw [raiseError_ld r payload hok]
      exact ⟨_, exec_ld_raised hok hl (loadBody_raised_congr (s := u) rfl hb), rfl⟩

/-! ### `STATUS` -/

theorem phaseCode_lt (ph : Phase) : phaseCode ph < 4 := by cases ph <;> decide

theorem flagCode_lt (f : Bool) : flagCode f < 2 := by cases f <;> decide

theorem statusCode_lt (st : Status) : statusCode st < 8 := by cases st <;> decide

theorem flagCode_eq_one_iff (f : Bool) : flagCode f = 1 ↔ f = true := by cases f <;> decide

theorem statusWord_toNat (s : State) :
    (statusWord s).toNat =
      phaseCode s.PHASE + 4 * flagCode s.PV + 8 * flagCode s.QV + 256 * statusCode s.ERR := by
  have h1 := phaseCode_lt s.PHASE
  have h2 := flagCode_lt s.PV
  have h3 := flagCode_lt s.QV
  have h4 := statusCode_lt s.ERR
  rw [statusWord, BitVec.toNat_ofNat, Nat.mod_eq_of_lt (by omega)]

/-- Settles O18: the four fields do not overlap, and nothing is carried from one to the next. -/
theorem statusWordHasItsFields : Obligations.StatusWordHasItsFields := by
  intro s
  have h1 := phaseCode_lt s.PHASE
  have h2 := flagCode_lt s.PV
  have h3 := flagCode_lt s.QV
  have h4 := statusCode_lt s.ERR
  have hPV : (statusWord s).toNat / 2 ^ 2 % 2 = flagCode s.PV := by rw [statusWord_toNat]; omega
  have hQV : (statusWord s).toNat / 2 ^ 3 % 2 = flagCode s.QV := by rw [statusWord_toNat]; omega
  refine ⟨?_, ?_, ?_, ?_, ?_, ?_⟩
  · rw [statusWord_toNat]; omega
  · rw [BitVec.getLsbD, Nat.testBit_eq_decide_div_mod_eq, hPV, Bool.eq_iff_iff, decide_eq_true_iff,
      flagCode_eq_one_iff]
  · rw [BitVec.getLsbD, Nat.testBit_eq_decide_div_mod_eq, hQV, Bool.eq_iff_iff, decide_eq_true_iff,
      flagCode_eq_one_iff]
  · rw [statusWord_toNat]; omega
  · rw [statusWord_toNat]; omega
  · rw [statusWord_toNat]; omega

end Sys2Proof.Machine
end

section
/-!
The prime unit and the prime search: the Miller-Rabin realisation (45_modexp R217), the contract of `NextPrime` and
`ProbPrime` (41_modulus R148), and the search over the candidates (R144).
-/

namespace Sys2Proof

/-! ### One Miller-Rabin round -/

/-- Halving takes exactly the twos out. -/
theorem splitTwos_eq {s d fuel : Nat} (hd : d % 2 = 1) (hs : s ≤ fuel) : splitTwos fuel (2 ^ s * d) = (s, d) := by
  induction s generalizing fuel with
  | zero =>
    cases fuel with
    | zero => simp [splitTwos]
    | succ fuel => simp [splitTwos, hd]
  | succ s ih =>
    obtain ⟨fuel, rfl⟩ : ∃ f, fuel = f + 1 := ⟨fuel - 1, by omega⟩
    have heven : 2 ^ (s + 1) * d = 2 * (2 ^ s * d) := by ring
    rw [heven, splitTwos, if_pos (Nat.mul_mod_right 2 _), Nat.mul_div_cancel_left _ (by decide),
      ih (Nat.le_of_succ_le_succ hs)]

theorem splitTwos_of_bitlen {m s d : Nat} (hm : m = 2 ^ s * d) (hd : d % 2 = 1) :
    splitTwos (bitlen m) m = (s, d) := by
  have hle : 2 ^ s ≤ m := hm ▸ Nat.le_mul_of_pos_right _ (by omega)
  have hs : s ≤ bitlen m := ((lt_bitlen_iff m s).2 hle).le
  conv_lhs => arg 2; rw [hm]
  exact splitTwos_eq hd hs

theorem squaresReach_iff (n k y : Nat) :
    squaresReach n k y = true ↔ ∃ r < k, y ^ 2 ^ (r + 1) % n = n - 1 := by
  induction k generalizing y with
  | zero => simp [squaresReach]
  | succ k ih =>
    have hsq : ∀ r, (y ^ 2 % n) ^ 2 ^ (r + 1) % n = y ^ 2 ^ (r + 1 + 1) % n := fun r => by
      rw [← Nat.pow_mod, ← pow_mul, ← pow_succ']
    rw [squaresReach, Bool.or_eq_true, decide_eq_true_iff, modExp_eq, ih, Nat.exists_lt_succ_left]
    simp only [hsq, Nat.zero_add, pow_one]

/-- Settles O58: the twos of `n - 1` are split off, and squaring doubles the exponent. -/
theorem millerRabinRoundTestsTheSquaresOfThePower :
    Obligations.MillerRabinRoundTestsTheSquaresOfThePower := by
  intro n a s d h5 hodd h2 ha hsplit hd
  obtain ⟨s, rfl⟩ : ∃ s', s = s' + 1 := by
    cases s with
    | zero => rw [pow_zero, Nat.one_mul] at hsplit; omega
    | succ s => exact ⟨s, rfl⟩
  have hpow : ∀ r, (a ^ d % n) ^ 2 ^ (r + 1) % n = a ^ (2 ^ (r + 1) * d) % n := fun r => by
    rw [← Nat.pow_mod, ← pow_mul, Nat.mul_comm]
  simp only [mrRound, splitTwos_of_bitlen hsplit hd, modExp_eq, Bool.or_eq_true, decide_eq_true_iff,
    squaresReach_iff, hpow, Nat.add_sub_cancel, or_assoc]
  rw [Nat.exists_lt_succ_left, pow_zero, Nat.one_mul]

/-! ### Primes pass -/

/-- In a field a root of unity of order a power of two is 1, or one of its squares is -1. -/
theorem eq_one_or_pow_eq_neg_one {F : Type} [Field F] {x : F} {s : Nat} (h : x ^ 2 ^ s = 1) :
    x = 1 ∨ ∃ r < s, x ^ 2 ^ r = -1 := by
  induction s with
  | zero => exact .inl (by simpa using h)
  | succ s ih =>
    have hsq : x ^ 2 ^ s * x ^ 2 ^ s = 1 := by rw [← pow_two, ← pow_mul, ← pow_succ, h]
    rcases mul_self_eq_one_iff.1 hsq with h1 | h1
    · exact (ih h1).imp_right fun ⟨r, hr, hx⟩ => ⟨r, hr.trans (Nat.lt_succ_self s), hx⟩
    · exact .inr ⟨s, Nat.lt_succ_self s, h1⟩

/-- Fermat's theorem for the bases of the rounds. -/
theorem natCast_pow_sub_one {p a : Nat} [Fact p.Prime] (h2 : 2 ≤ a) (ha : a + 2 ≤ p) :
    ((a : ZMod p)) ^ (p - 1) = 1 := by
  refine ZMod.pow_card_sub_one_eq_one fun h0 => ?_
  have hle := Nat.le_of_dvd (by omega) ((ZMod.natCast_eq_zero_iff a p).1 h0)
  omega

theorem pow_mod_of_natCast {p a e v : Nat} (hv : v < p) (h : (a : ZMod p) ^ e = (v : ZMod p)) :
    a ^ e % p = v := by
  have hmod := (ZMod.natCast_eq_natCast_iff' (a ^ e) v p).1 (by rw [Nat.cast_pow, h])
  rwa [Nat.mod_eq_of_lt hv] at hmod

/-- A prime passes every round (45_modexp R217). -/
theorem mrRound_of_prime {p a : Nat} (hp : p.Prime) (h5 : 5 ≤ p) (h2 : 2 ≤ a) (ha : a + 2 ≤ p) :
    mrRound p a = true := by
  have : Fact p.Prime := ⟨hp⟩
  have hodd : p % 2 = 1 := hp.eq_two_or_odd.resolve_left (by omega)
  obtain ⟨s, d, hd, hsplit⟩ := Nat.exists_eq_two_pow_mul_odd (n := p - 1) (by omega)
  rw [millerRabinRoundTestsTheSquaresOfThePower p a s d h5 hodd h2 ha hsplit (Nat.odd_iff.1 hd)]
  have hone : ((1 : ℕ) : ZMod p) = 1 := Nat.cast_one
  have hneg : ((p - 1 : ℕ) : ZMod p) = -1 := by
    rw [Nat.cast_sub (by omega), ZMod.natCast_self, hone, zero_sub]
  have hroot : ((a : ZMod p) ^ d) ^ 2 ^ s = 1 := by
    rw [← pow_mul, Nat.mul_comm, ← hsplit, natCast_pow_sub_one h2 ha]
  rcases eq_one_or_pow_eq_neg_one hroot with h1 | ⟨r, hr, hx⟩
  · exact .inl (pow_mod_of_natCast (by omega) (h1.trans hone.symm))
  · refine .inr ⟨r, hr, pow_mod_of_natCast (by omega) ?_⟩
    rw [Nat.mul_comm, pow_mul, hx, hneg]

/-! ### The test over `MODEXP` -/

/-- What passes the test: 2, 3, and the odd numbers from 5 on that pass every round (45_modexp R217). -/
theorem probPrimeMR_iff (n : Nat) (bases : List Nat) :
    probPrimeMR n bases = true ↔
      n = 2 ∨ n = 3 ∨ (5 ≤ n ∧ n % 2 = 1 ∧ ∀ a ∈ bases, mrRound n a = true) := by
  unfold probPrimeMR
  split_ifs with h2 h23 heven
  · exact iff_of_false nofun (by omega)
  · exact iff_of_true rfl (by omega)
  · exact iff_of_false nofun (by omega)
  · rw [List.all_eq_true]
    refine ⟨fun h => .inr (.inr ⟨by omega, by omega, h⟩), fun h => ?_⟩
    obtain h | h | ⟨-, -, h⟩ := h
    · omega
    · omega
    · exact h

theorem probPrimeMR_of_prime {p : Nat} (hp : p.Prime) (source : BaseSource) (reps : Nat) :
    probPrimeMR p (basesFor source p reps) = true := by
  rw [probPrimeMR_iff]
  rcases Nat.lt_or_ge p 5 with h5 | h5
  · have h2 := hp.two_le
    have h4 : p ≠ 4 := by rintro rfl; exact absurd hp (by decide)
    omega
  · have hodd : p % 2 = 1 := hp.eq_two_or_odd.resolve_left (by omega)
    refine .inr (.inr ⟨h5, hodd, fun a ha => ?_⟩)
    obtain ⟨h2, ha⟩ := basesFor_mem h5 ha
    exact mrRound_of_prime hp h5 h2 ha

/-- Admissible bases of a given list are used as they stand (log entry 15). -/
theorem basesFor_listed {given : List Nat} {n : Nat} (h : ∀ a ∈ given, 2 ≤ a ∧ a + 2 ≤ n) :
    basesFor (.listed given) n given.length = given := by
  refine List.ext_getElem (by simp) fun j _ hj => ?_
  have hmem := h _ (List.getElem_mem hj)
  simp [basesFor, baseAt, hj, admissibleBase, hmem]

/-- Settles O59: the bases by their construction, the test by its branches. -/
theorem millerRabinRunsExactlyRepsAdmissibleRounds :
    Obligations.MillerRabinRunsExactlyRepsAdmissibleRounds := by
  refine ⟨fun source n reps => ⟨basesFor_length source n reps, fun h5 a => basesFor_mem h5,
    probPrimeMR_iff n _⟩, fun given n h5 hodd hgiven => ?_⟩
  rw [probPrime, basesFor_listed hgiven, probPrimeMR_iff]
  refine ⟨fun h => ?_, fun h => .inr (.inr ⟨h5, hodd, h⟩)⟩
  obtain h | h | ⟨-, -, h⟩ := h
  · omega
  · omega
  · exact h

/-! ### The contract of the two functions -/

theorem probPrime_of_prime (unit : PrimeUnit) {n : Nat} (reps : Nat) (hn : n.Prime) :
    probPrime unit n reps = true := by
  cases unit with
  | reference => exact (isPrime_iff n).2 hn
  | millerRabin source => exact probPrimeMR_of_prime hn source reps
  | other k => rw [probPrime, (isPrime_iff n).2 hn, Bool.true_or]

/-- The reference `NextPrime` is the least prime above its argument (41_modulus R148). -/
theorem nextPrime_reference (n reps : Nat) :
    (nextPrime .reference n reps).Prime ∧ ∀ c, n < c → c < nextPrime .reference n reps → ¬ c.Prime := by
  obtain ⟨-, hprime, hleast⟩ := leastAbove_spec isPrime n fun p hp => (isPrime_iff p).2 hp
  refine ⟨(isPrime_iff _).1 hprime, fun c hlt hc hcp => ?_⟩
  exact Bool.false_ne_true ((hleast c hlt hc).symm.trans ((isPrime_iff c).2 hcp))

/-- Settles O25: by the prime unit; that a prime passes the Miller-Rabin test is `mrRound_of_prime`. -/
theorem primeFunctionsMeetTheirContract : Obligations.PrimeFunctionsMeetTheirContract :=
  ⟨Machine.lt_nextPrime, fun unit _ reps hn => probPrime_of_prime unit reps hn, nextPrime_reference,
    fun n _ => isPrime_iff n⟩

end Sys2Proof

namespace Sys2Proof.Machine

/-! ### The search over the candidates -/

/-- Candidates that fit and are rejected are passed over, one round each. -/
theorem searchPrime_skip {ps : Params} {seed m : Nat} (fuel : Nat)
    (h : ∀ i, 1 ≤ i → i ≤ m →
      bitlen (candidate ps seed i) ≤ ps.KMAX ∧ acceptsPrime ps (candidate ps seed i) = false) :
    searchPrime ps (fuel + m) seed = searchPrime ps fuel (candidate ps seed m) := by
  induction m generalizing fuel with
  | zero => rfl
  | succ m ih =>
    obtain ⟨hfit, hrej⟩ := h (m + 1) (by omega) le_rfl
    rw [candidate] at hfit hrej
    rw [show fuel + (m + 1) = fuel + 1 + m by omega, ih (fuel + 1) fun i h1 hi => h i h1 (by omega), searchPrime]
    simp only [if_neg (Nat.not_lt.2 hfit), hrej, Bool.false_eq_true, if_false]
    rw [candidate]

/-- Settles O23: the rejected candidates are passed over, and the next one decides. -/
theorem primeSearchTakesTheFirstAcceptedCandidate :
    Obligations.PrimeSearchTakesTheFirstAcceptedCandidate := by
  intro ps seed j h hj
  obtain ⟨m, rfl⟩ : ∃ m, j = m + 1 := ⟨j - 1, by omega⟩
  have hsearch : findPrime ps seed = searchPrime ps (2 ^ ps.KMAX + 1) (candidate ps seed m) := by
    rw [← findPrime_rounds ps seed (1 + m), ← Nat.add_assoc]
    exact searchPrime_skip _ fun i h1 hi => h i h1 (by omega)
  rw [hsearch, searchPrime, candidate]
  refine ⟨fun hfit hacc => ?_, fun hout => if_pos hout⟩
  simp only [if_neg (Nat.not_lt.2 hfit), hacc, if_true]

/-! ### The search with the reference functions -/

/-- With exact primality an odd candidate is accepted where it is a prime congruent to 3 modulo 4. -/
theorem acceptsPrime_reference_iff {ps : Params} (hps : ps.PRIMES = .reference) {c : Nat} (h2 : 2 < c) :
    acceptsPrime ps c = true ↔ c.Prime ∧ c % 4 = 3 := by
  rw [acceptsPrime, hps, probPrime, Bool.and_eq_true, decide_eq_true_iff, isPrime_iff, bitOf, pow_one]
  refine ⟨fun ⟨hbit, hc⟩ => ⟨hc, ?_⟩, fun ⟨hc, h3⟩ => ⟨by omega, hc⟩⟩
  have hodd : c % 2 = 1 := hc.eq_two_or_odd.resolve_left (by omega)
  omega

/-- The search from a seed, with rounds enough to outgrow `KMAX`. -/
theorem searchPrime_reference {ps : Params} (hps : ps.PRIMES = .reference) {fuel seed p : Nat} (h2 : 2 ≤ seed)
    (hp : IsLeastBlumPrimeAbove seed p) (hfuel : 2 ^ ps.KMAX ≤ seed + fuel) :
    searchPrime ps fuel seed = if bitlen p ≤ ps.KMAX then some p else none := by
  induction fuel generalizing seed with
  | zero =>
    have hout : ¬ bitlen p ≤ ps.KMAX := by
      have := hp.1
      rw [bitlen_le_iff]
      omega
    rw [searchPrime, if_neg hout]
  | succ fuel ih =>
    obtain ⟨hlt, hprime, h3, hleast⟩ := hp
    obtain ⟨c, hc⟩ : ∃ c, c = nextPrime .reference seed ps.REPS := ⟨_, rfl⟩
    have hsc : seed < c := hc ▸ lt_nextPrime _ _ _
    obtain ⟨hcprime, hcleast⟩ := nextPrime_reference seed ps.REPS
    rw [← hc] at hcprime hcleast
    have hcp : c ≤ p := not_lt.1 fun hpc => hcleast p hlt hpc hprime
    have hacc_iff := acceptsPrime_reference_iff hps (c := c) (by omega)
    simp only [searchPrime, hps, ← hc]
    by_cases hacc : acceptsPrime ps c = true
    · obtain rfl : c = p := Nat.le_antisymm hcp (not_lt.1 fun hcp' => hleast c hsc hcp' (hacc_iff.1 hacc))
      rw [if_pos hacc, ← ite_not]
      simp only [not_lt]
    · have hne : c ≠ p := fun h => hacc (hacc_iff.2 (h ▸ ⟨hprime, h3⟩))
      have hrest : IsLeastBlumPrimeAbove c p :=
        ⟨by omega, hprime, h3, fun d hd => hleast d (hsc.trans hd)⟩
      rw [if_neg hacc, ih (by omega) hrest (by omega)]
      refine ite_eq_right_iff.2 fun hout => ?_
      rw [if_neg (Nat.not_le.2 (hout.trans_le (bitlen_mono hcp)))]

/-- Settles O24: `2^KMAX` rounds from any seed are enough. -/
theorem referenceSearchFindsTheLeastBlumPrime : Obligations.ReferenceSearchFindsTheLeastBlumPrime :=
  fun _ _ _ hps h2 hp => searchPrime_reference hps h2 hp (Nat.le_add_left _ _)

end Sys2Proof.Machine
end

section
/-!
`GENKEY` (41_modulus R140 to R149): its checks, its draws one by one, the modulus it forms, and how long that is.
-/

namespace Sys2Proof.Machine

/-! ### One prime -/

section
variable {bits : Nat} {s : State}

theorem genPrime_of_fail (h : answerTo .highQuality (bytesFor bits) s = .fail) :
    genPrime bits s = .raised .entropySourceError (afterAsking .highQuality (bytesFor bits) s) := by
  simp only [genPrime, h]

theorem genPrime_of_silent (h : answerTo .highQuality (bytesFor bits) s = .silent) :
    genPrime bits s = .stopped .portSilent := by
  simp only [genPrime, h]

variable {drawn : List Byte} (hb : 1 ≤ bits) (hd : answerTo .highQuality (bytesFor bits) s = .bytes drawn)
include hb hd

/-- `genPrime_got` is the converse. -/
theorem genPrime_of_found {p : Nat} (h : findPrime s.PARAMS (forcedSeed bits drawn) = some p) :
    genPrime bits s = .got p (afterAsking .highQuality (bytesFor bits) s) := by
  rw [forcedSeed, ← forceLength_eq bits _ hb] at h
  simp only [genPrime, hd, h]

theorem genPrime_of_outgrown (h : findPrime s.PARAMS (forcedSeed bits drawn) = none) :
    genPrime bits s = .raised .capacityExceeded (afterAsking .highQuality (bytesFor bits) s) := by
  rw [forcedSeed, ← forceLength_eq bits _ hb] at h
  simp only [genPrime, hd, h]

end

/-- Two draws, as one change of the state. -/
theorem afterAsking_highQuality_twice (n n' : Nat) (s : State) :
    afterAsking .highQuality n' (afterAsking .highQuality n s) =
      { s with ENTHQ := s.ENTHQ.tail.tail, ASKED := s.ASKED ++ [⟨.highQuality, n⟩, ⟨.highQuality, n'⟩] } := by
  simp [afterAsking]

/-! ### The checks and the draws -/

section
variable {s : State}

theorem genkeyBody_of_supplied (h : s.PV = true ∨ s.QV = true) :
    genkeyBody s = .raised .invalidParameter s := by
  have hsup : (s.PV || s.QV) = true := by simpa using h
  simp only [genkeyBody, if_pos hsup]

variable (hP : s.PV = false) (hQ : s.QV = false)
include hP hQ

/-- Without supplied factors the requested length decides (41_modulus R140). -/
theorem genkeyBody_of_unsupplied :
    genkeyBody s =
      if s.KREQ.toNat < 16 then .raised .invalidParameter s
      else if s.PARAMS.KMAX < s.KREQ.toNat + 1 then .raised .capacityExceeded s
      else (genPrime (pBits s.KREQ.toNat) s).andThen fun p s₁ =>
        (genPrime (qBits s.KREQ.toNat) s₁).andThen fun q s₂ => formModulus p q s₂ := by
  have hsup : ¬ (s.PV || s.QV) = true := by simp [hP, hQ]
  simp only [genkeyBody, if_neg hsup]
  rfl

theorem genkeyBody_of_short (hk : s.KREQ.toNat < 16) : genkeyBody s = .raised .invalidParameter s := by
  rw [genkeyBody_of_unsupplied hP hQ, if_pos hk]

variable (hk : 16 ≤ s.KREQ.toNat)
include hk

theorem genkeyBody_of_long (h : s.PARAMS.KMAX < s.KREQ.toNat + 1) :
    genkeyBody s = .raised .capacityExceeded s := by
  rw [genkeyBody_of_unsupplied hP hQ, if_neg (Nat.not_lt.2 hk), if_pos h]

variable (hK : s.KREQ.toNat + 1 ≤ s.PARAMS.KMAX)
include hK

theorem genkeyBody_of_checked :
    genkeyBody s = (genPrime (pBits s.KREQ.toNat) s).andThen fun p s₁ =>
      (genPrime (qBits s.KREQ.toNat) s₁).andThen fun q s₂ => formModulus p q s₂ := by
  rw [genkeyBody_of_unsupplied hP hQ, if_neg (Nat.not_lt.2 hk), if_neg (Nat.not_lt.2 hK)]

theorem genkeyBody_of_first_raised {e : Status} {u : State}
    (h : genPrime (pBits s.KREQ.toNat) s = .raised e u) : genkeyBody s = .raised e u := by
  rw [genkeyBody_of_checked hP hQ hk hK, h]
  rfl

theorem genkeyBody_of_first_stopped {f : Fault}
    (h : genPrime (pBits s.KREQ.toNat) s = .stopped f) : genkeyBody s = .stopped f := by
  rw [genkeyBody_of_checked hP hQ hk hK, h]
  rfl

variable {p : Nat} {s₁ : State} (h₁ : genPrime (pBits s.KREQ.toNat) s = .got p s₁)
include h₁

theorem genkeyBody_of_second_raised {e : Status} {u : State}
    (h : genPrime (qBits s.KREQ.toNat) s₁ = .raised e u) : genkeyBody s = .raised e u := by
  rw [genkeyBody_of_checked hP hQ hk hK, h₁, Attempt.andThen, h]
  rfl

theorem genkeyBody_of_second_stopped {f : Fault}
    (h : genPrime (qBits s.KREQ.toNat) s₁ = .stopped f) : genkeyBody s = .stopped f := by
  rw [genkeyBody_of_checked hP hQ hk hK, h₁, Attempt.andThen, h]
  rfl

theorem genkeyBody_of_primes {q : Nat} {s₂ : State}
    (h₂ : genPrime (qBits s.KREQ.toNat) s₁ = .got q s₂) : genkeyBody s = formModulus p q s₂ := by
  rw [genkeyBody_of_checked hP hQ hk hK, h₁, Attempt.andThen, h₂]
  rfl

end

section
variable {p q : Nat} {s : State}

theorem formModulus_of_outgrown (h : s.PARAMS.KMAX < bitlen (p * q)) :
    formModulus p q s = .raised .capacityExceeded s :=
  if_pos ((not_fitsBig_iff s _).2 h)

theorem formModulus_of_fits (h : bitlen (p * q) ≤ s.PARAMS.KMAX) :
    formModulus p q s =
      .got (.ok, toBytesN (bitlen (p * q)) 4 ++ toBytes (p * q)) (writeGenerated p q s) := by
  have hpay : modulusPayload (writeGenerated p q s) = toBytesN (bitlen (p * q)) 4 ++ toBytes (p * q) := by
    rw [modulusPayload, writeGenerated_KBL, writeGenerated_N, toNat_ofNat_bitlen s.PARAMS h]
  rw [formModulus, if_neg (mt (not_fitsBig_iff s _).1 (Nat.not_lt.2 h)), hpay]

end

/-! ### `GENKEY` in `EMPTY` -/

theorem legalIn_genkey {s : State} (hph : s.PHASE = .empty) : legalIn .genkey s.PHASE = true := by
  rw [hph]; rfl

/-- Every error of `GENKEY`'s body is fatal (60_exceptions R247). -/
theorem exec_genkey_raised {s u : State} {e : Status} (hph : s.PHASE = .empty)
    (hb : genkeyBody s = .raised e u) :
    exec .genkey s = .next { erased e u with RSP := u.RSP ++ errorResponse 0x10 e } := by
  have hf : isFatal .genkey e = true := (isFatal_iff _ _).2 ⟨rfl, bodyOf_raised_ran (i := .genkey) hb⟩
  obtain ⟨hok, -⟩ := bodyOf_raised_status (i := .genkey) hb
  exact exec_fatal rfl (legalIn_genkey hph) hf hok hb

/-- Settles O20: each check on a state that passes those before it. -/
theorem genkeyChecksBeforeItDraws : Obligations.GenkeyChecksBeforeItDraws := by
  refine fun s hph => ⟨fun h => ?_, fun hP hQ hk => ?_, fun hP hQ hk hK => ?_⟩
  · exact exec_genkey_raised hph (genkeyBody_of_supplied h)
  · exact exec_genkey_raised hph (genkeyBody_of_short hP hQ hk)
  · exact exec_genkey_raised hph (genkeyBody_of_long hP hQ hk hK)

/-- Settles O19: both primes found, their product fits, and `writeGenerated` writes it. -/
theorem genkeyFormsTheModulus : Obligations.GenkeyFormsTheModulus := by
  rintro s k nbp nbq p q drawP drawQ hph hP hQ rfl hk hK rfl rfl hdrawP hp hdrawQ hq hfit
  have h₁ := genPrime_of_found (one_le_pBits _) hdrawP hp
  have h₂ := genPrime_of_found (one_le_qBits hk) hdrawQ ((afterAsking_PARAMS ..).symm ▸ hq)
  have hb := (genkeyBody_of_primes hP hQ hk hK h₁ h₂).trans (formModulus_of_fits hfit)
  rw [exec_ok rfl (legalIn_genkey hph) hb, afterAsking_highQuality_twice]
  rfl

/-- Settles O21: the first draw, the second draw, and then the product. -/
theorem genkeyDrawAndCapacityFailuresAreFatal : Obligations.GenkeyDrawAndCapacityFailuresAreFatal := by
  rintro s k nbp nbq hph hP hQ rfl hk hK rfl rfl
  refine ⟨fun hfail => ?_, fun drawP hdrawP => ⟨fun hout => ?_, fun p hp => ?_⟩⟩
  · exact exec_genkey_raised hph (genkeyBody_of_first_raised hP hQ hk hK (genPrime_of_fail hfail))
  · exact exec_genkey_raised hph
      (genkeyBody_of_first_raised hP hQ hk hK (genPrime_of_outgrown (one_le_pBits _) hdrawP hout))
  · have h₁ := genPrime_of_found (one_le_pBits _) hdrawP hp
    refine ⟨fun hfail => ?_, fun drawQ hdrawQ hout => ?_⟩
    · have hb := genkeyBody_of_second_raised hP hQ hk hK h₁ (genPrime_of_fail hfail)
      rw [exec_genkey_raised hph hb, afterAsking_highQuality_twice]
      rfl
    · have hb : genkeyBody s = .raised .capacityExceeded
          (afterAsking .highQuality (bytesFor (qBits s.KREQ.toNat))
            (afterAsking .highQuality (bytesFor (pBits s.KREQ.toNat)) s)) := by
        rcases hout with hnone | ⟨q, hq, hbig⟩
        · exact genkeyBody_of_second_raised hP hQ hk hK h₁
            (genPrime_of_outgrown (one_le_qBits hk) hdrawQ ((afterAsking_PARAMS ..).symm ▸ hnone))
        · have h₂ := genPrime_of_found (one_le_qBits hk) hdrawQ ((afterAsking_PARAMS ..).symm ▸ hq)
          rw [genkeyBody_of_primes hP hQ hk hK h₁ h₂]
          exact formModulus_of_outgrown hbig
      rw [exec_genkey_raised hph hb, afterAsking_highQuality_twice]
      rfl

/-! ### How long the key is -/

/-- Two primes above seeds of `k/2 + 1` and `k/2 + k mod 2` bits have a product above `2^(k-1)` (41_modulus R141,
R149). -/
theorem two_pow_lt_mul_primes {k p q : Nat} (hk : 16 ≤ k) (hp : 2 ^ (pBits k - 1) < p)
    (hq : 2 ^ (qBits k - 1) < q) : 2 ^ (k - 1) < p * q := by
  have hsum : pBits k - 1 + (qBits k - 1) = k - 1 := by simp only [pBits, qBits]; omega
  rw [← hsum, pow_add]
  exact Nat.mul_lt_mul'' hp hq

/-- Settles O26: only a completed `GENKEY` ends in `KEYED`, and each prime is above its seed. -/
theorem generatedKeyIsAtLeastAsLongAsRequested : Obligations.GeneratedKeyIsAtLeastAsLongAsRequested := by
  intro s t h hph ht
  have not_keyed : ∀ (e : Status) (u : State), u.PHASE = .empty → t ≠ raiseError .genkey e u := by
    rintro e u hu rfl
    rw [raiseError_PHASE, hu] at ht
    split at ht <;> cases ht
  obtain (⟨-, ht'⟩ | ⟨-, ht'⟩) | ⟨-, -, ⟨reply, u, hb, rfl⟩ | ⟨e, u, hb, ht'⟩⟩ := exec_cases h
  · exact absurd ht' (not_keyed _ _ hph)
  · exact absurd ht' (not_keyed _ _ hph)
  · obtain ⟨-, -, hk, -, p, q, s₁, s₂, h₁, h₂, hfit, rfl, -⟩ := genkeyBody_got hb
    obtain ⟨hp, -⟩ := genPrime_got_bounds (one_le_pBits _) h₁
    obtain ⟨hq, -⟩ := genPrime_got_bounds (one_le_qBits hk) h₂
    have hlt := two_pow_lt_mul_primes hk hp hq
    have hlen : (BitVec.ofNat 32 (bitlen (p * q))).toNat = bitlen (p * q) := toNat_ofNat_bitlen _ hfit
    have hlong : s.KREQ.toNat - 1 < bitlen (p * q) := (lt_bitlen_iff _ _).2 hlt.le
    refine ⟨hlt, hlen, ?_⟩
    rw [respond_KBL, writeGenerated_KBL, hlen]
    omega
  · exact absurd ht' (not_keyed e u ((bodyOf_raised_PHASE hb).trans hph))

end Sys2Proof.Machine
end

section
/-!
Extraction (43_square_extract sections EXTRACT and Laws) and modular exponentiation (45_modexp): `EXTRACT` as the bit
stream, where it splits, `SQR` as a power, and Fermat's test.
-/

namespace Sys2Proof.Machine

/-! ### `EXTRACT` -/

/-- Settles O31: `exec_extract_plain`. -/
theorem extractAnswersTheBitStream : Obligations.ExtractAnswersTheBitStream := by
  rintro payload s n rfl hph hw hN hk hb
  exact exec_extract_plain hph hw hN hk hb

/-- The check of `EXTRACT`: `BMAX` is a scalar itself, so a count within it fits (43_square_extract R177). -/
theorem extractCheck_iff (n : Nat) (s : State) :
    (!fitsScalar n || decide (s.PARAMS.BMAX < n)) = true ↔ s.PARAMS.BMAX < n := by
  have hbmax := s.PARAMS.bmax_le
  simp only [fitsScalar, Bool.or_eq_true, Bool.not_eq_true', decide_eq_false_iff_not, decide_eq_true_iff]
  omega

/-- Past its check `EXTRACT` answers what it extracts. -/
theorem extractBody_of_fits {n : Nat} {s : State} (hb : n ≤ s.PARAMS.BMAX) :
    extractBody n s = (extractBytes n s).andThen fun out s₁ => .got (extractStatus out.2, out.1) s₁ := by
  rw [extractBody, if_neg (mt (extractCheck_iff n s).1 (Nat.not_lt.2 hb))]

theorem extractBody_of_too_many {n : Nat} {s : State} (h : 2 ^ 32 ≤ n ∨ s.PARAMS.BMAX < n) :
    extractBody n s = .raised .capacityExceeded s := by
  have hbmax := s.PARAMS.bmax_le
  rw [extractBody, if_pos ((extractCheck_iff n s).2 (by omega))]

/-- Settles O35: the check comes before the extraction. -/
theorem extractRefusesTooManyBytes : Obligations.ExtractRefusesTooManyBytes := by
  intro payload s hph h
  have hl : legalIn (.extract payload) s.PHASE = true := by rw [hph]; rfl
  exact exec_plain_error rfl hl rfl nofun (extractBody_of_too_many h)

/-! ### Where an extraction splits -/

theorem squarings_add (n x j i : Nat) : squarings n (squarings n x j) i = squarings n x (j + i) := by
  induction i with
  | zero => rfl
  | succ i ih => rw [← Nat.add_assoc, squarings, squarings, ih]

/-- The stream from the state after `j` squarings is the stream from its bit `k * j` on. -/
theorem streamBit_squarings (order : BitOrder) (n x : Nat) {k : Nat} (j i : Nat) (hk : 1 ≤ k) :
    streamBit order n (squarings n x j) k i = streamBit order n x k (k * j + i) := by
  rw [streamBit, streamBit, squarings_add, Nat.mul_add_div hk, Nat.mul_add_mod, Nat.add_assoc]

theorem streamByte_squarings (order : BitOrder) (n x : Nat) {k a j : Nat} (m : Nat) (hk : 1 ≤ k)
    (h : 8 * a = k * j) : streamByte order n (squarings n x j) k m = streamByte order n x k (a + m) := by
  simp only [streamByte, streamBit_squarings order n x j _ hk, ← h, Nat.mul_add, Nat.add_assoc]

section
variable {s : State} {a : Nat} (hk : 1 ≤ bitsPerSquaring s) (ha : 8 * a % bitsPerSquaring s = 0)
include hk ha

/-- At a boundary the squarings done have given their bits whole. -/
theorem stateAfterBytes_of_boundary :
    stateAfterBytes s a = squarings s.N s.X (8 * a / bitsPerSquaring s) := by
  obtain ⟨j, hj⟩ := Nat.dvd_of_mod_eq_zero ha
  rw [stateAfterBytes, hj, Nat.add_sub_assoc hk, Nat.mul_add_div hk, Nat.mul_div_cancel_left _ hk,
    Nat.div_eq_of_lt (by omega), Nat.add_zero]

variable {t : State} (hN : t.N = s.N) (hX : t.X = stateAfterBytes s a)
  (hkt : bitsPerSquaring t = bitsPerSquaring s) (hps : t.PARAMS = s.PARAMS)
include hN hX hkt

theorem stateAfterBytes_add (b : Nat) : stateAfterBytes s (a + b) = stateAfterBytes t b := by
  obtain ⟨j, hj⟩ := Nat.dvd_of_mod_eq_zero ha
  have hsum : 8 * (a + b) + bitsPerSquaring s - 1 = bitsPerSquaring s * j + (8 * b + bitsPerSquaring s - 1) := by
    omega
  rw [stateAfterBytes_of_boundary hk ha] at hX
  simp only [stateAfterBytes, hN, hX, hkt, squarings_add, hsum, hj, Nat.mul_add_div hk,
    Nat.mul_div_cancel_left _ hk]

include hps

theorem streamBytes_add (b : Nat) : streamBytes s (a + b) = streamBytes s a ++ streamBytes t b := by
  have hbyte := funext fun m => streamByte_squarings s.PARAMS.ACC_BIT_ORDER s.N s.X m hk
    (Nat.mul_div_cancel' (Nat.dvd_of_mod_eq_zero ha)).symm
  rw [stateAfterBytes_of_boundary hk ha] at hX
  simp only [streamBytes, hN, hX, hkt, hps, List.range_add, List.map_append, List.map_map, Function.comp_def, hbyte]

end

/-- Settles O36: the second call starts from the state at the boundary. -/
theorem extractSplitsAtSquaringBoundaries : Obligations.ExtractSplitsAtSquaringBoundaries := by
  intro s t u v first second both hph hw hN hk hsum hb hsplit ht hu hv
  rw [exec_extract_plain hph hw hN hk (by omega)] at ht hv
  have htX : t.X = stateAfterBytes s (fromBytes first) := by cases ht; rfl
  obtain ⟨htN, htk, htps⟩ :
      t.N = s.N ∧ bitsPerSquaring t = bitsPerSquaring s ∧ t.PARAMS = s.PARAMS := by cases ht; exact ⟨rfl, rfl, rfl⟩
  obtain ⟨htph, htw, htrsp⟩ : t.PHASE = s.PHASE ∧ t.WHITEN = s.WHITEN ∧
      t.RSP = s.RSP ++ okResponse 0x21 (streamBytes s (fromBytes first)) := by cases ht; exact ⟨rfl, rfl, rfl⟩
  rw [exec_extract_plain (htph.trans hph) (htw.trans hw) (htN ▸ hN) (htk ▸ hk) (by rw [htps]; omega)] at hu
  cases hu
  cases hv
  refine ⟨?_, _, _, htrsp, rfl, ?_⟩
  · rw [hsum]
    exact stateAfterBytes_add hk hsplit htN htX htk _
  · rw [hsum, streamBytes_add hk hsplit htN htX htk htps]

/-! ### `SQR` and `MODEXP` -/

/-- Settles O44: the square and the second power, each reduced once. -/
theorem squaringAgreesWithModexp : Obligations.SquaringAgreesWithModexp := by
  intro s t u hph hN ht hu
  obtain ⟨-, -, hsqr⟩ := sqrAdvancesTheStateOnce
  obtain ⟨-, hmodexp⟩ := modexpIsTheReducedPower
  obtain ⟨hpow, -⟩ := hmodexp { s with B := s.X, E := 2, M := s.N }
  rw [hsqr s hph hN] at ht
  rw [hpow (by simp [hph]) (Nat.ne_of_gt hN)] at hu
  cases ht
  cases hu
  show s.X ^ 2 % s.N = s.X * s.X % s.N
  rw [pow_two]

/-- Settles O45: Fermat's theorem, for the number that `MODEXP` computes. -/
theorem primesPassTheFermatTestOnTheEngine : Obligations.PrimesPassTheFermatTestOnTheEngine := by
  intro s p a hp h2 ha hph hB hE hM
  have : Fact p.Prime := ⟨hp⟩
  have hone : s.B ^ s.E % s.M = 1 := by
    rw [hB, hE, hM]
    exact pow_mod_of_natCast hp.one_lt ((natCast_pow_sub_one h2 ha).trans Nat.cast_one.symm)
  obtain ⟨-, hmodexp⟩ := modexpIsTheReducedPower
  obtain ⟨hpow, -⟩ := hmodexp s
  rw [hpow hph (by omega), hone]
  rfl

end Sys2Proof.Machine
end

section
/-!
The radix converter (44_radix): `DIGITS` with and without whitening, its checks, and the two bases whose digits are the raw
bits.
-/

namespace Sys2Proof

/-- `ByteCount` is the only least number of bytes (00_scope R7). -/
theorem byteCount_eq {base count nb : Nat} (hb : 2 ≤ base) (h : base ^ count ≤ 256 ^ nb)
    (hleast : ∀ m < nb, 256 ^ m < base ^ count) : byteCount base count = nb := by
  refine Nat.le_antisymm ((byteCount_le_iff count nb (by omega)).2 h) (not_lt.1 fun hlt => ?_)
  exact absurd ((byteCount_le_iff count _ (by omega)).1 le_rfl) (Nat.not_le.2 (hleast _ hlt))

theorem byteCount_zero (base : Nat) : byteCount base 0 = 0 := by simp [byteCount, bytesFor]

end Sys2Proof

namespace Sys2Proof.Machine

/-! ### `DIGITS` in `READY` -/

section
variable {payload : List Byte} {s : State}

theorem legalIn_digits (hph : s.PHASE = .ready) : legalIn (.digits payload) s.PHASE = true := by
  rw [hph]; rfl

/-- Past its checks `DIGITS` extracts the raw bytes and converts them (44_radix R200). -/
theorem digitsBody_of_checked {count : Nat} (hc : count < 2 ^ 32) (hb : 2 ≤ s.BASE.toNat)
    (hraw : byteCount s.BASE.toNat count ≤ s.PARAMS.BMAX) :
    digitsBody count s = (extractBytes (byteCount s.BASE.toNat count) s).andThen fun out s₁ =>
      .got (extractStatus out.2, digitsPayload s.BASE.toNat (digitsOf s.BASE.toNat count out.1)) s₁ := by
  have hfit : ¬ (!fitsScalar count) = true := by simpa [fitsScalar] using hc
  have hfew : ¬ needsTooMany s.PARAMS.BMAX s.BASE.toNat count = true :=
    mt (needsTooMany_iff hb).1 (Nat.not_lt.2 hraw)
  simp only [digitsBody, if_neg hfit, if_neg (Nat.not_lt.2 hb), if_neg hfew]

/-- `DIGITS` that passes its checks answers the digits of what was extracted (44_radix R200). -/
theorem exec_digits {u : State} {out : List Byte × Bool} (hph : s.PHASE = .ready)
    (hc : fromBytes payload < 2 ^ 32) (hb : 2 ≤ s.BASE.toNat)
    (hraw : byteCount s.BASE.toNat (fromBytes payload) ≤ s.PARAMS.BMAX)
    (h : extractBytes (byteCount s.BASE.toNat (fromBytes payload)) s = .got out u) :
    exec (.digits payload) s = .next (respond 0x22 (extractStatus out.2)
      (digitsPayload s.BASE.toNat (digitsOf s.BASE.toNat (fromBytes payload) out.1)) u) := by
  have hbody : digitsBody (fromBytes payload) s = .got (extractStatus out.2,
      digitsPayload s.BASE.toNat (digitsOf s.BASE.toNat (fromBytes payload) out.1)) u := by
    rw [digitsBody_of_checked hc hb hraw, h]
    rfl
  exact runCommand_got (legalIn_digits hph) hbody

/-- `DIGITS` refused by one of its checks. -/
theorem exec_digits_raised {e : Status} (he : e ≠ .ok) (hph : s.PHASE = .ready)
    (hb : digitsBody (fromBytes payload) s = .raised e s) :
    exec (.digits payload) s = .next { s with ERR := e, RSP := s.RSP ++ errorResponse 0x22 e } :=
  exec_plain_error (i := .digits payload) rfl (legalIn_digits hph) rfl he hb

theorem digitsBody_of_large_count {count : Nat} (hc : 2 ^ 32 ≤ count) :
    digitsBody count s = .raised .capacityExceeded s := by
  have hbad : (!fitsScalar count) = true := by simpa [fitsScalar] using hc
  simp only [digitsBody, if_pos hbad]

theorem digitsBody_of_small_base {count : Nat} (hc : count < 2 ^ 32) (hb : s.BASE.toNat < 2) :
    digitsBody count s = .raised .invalidParameter s := by
  have hfit : ¬ (!fitsScalar count) = true := by simpa [fitsScalar] using hc
  simp only [digitsBody, if_neg hfit, if_pos hb]

theorem digitsBody_of_too_many {count : Nat} (hc : count < 2 ^ 32) (hb : 2 ≤ s.BASE.toNat)
    (h : 256 ^ s.PARAMS.BMAX < s.BASE.toNat ^ count) : digitsBody count s = .raised .capacityExceeded s := by
  have hfit : ¬ (!fitsScalar count) = true := by simpa [fitsScalar] using hc
  have hmany : needsTooMany s.PARAMS.BMAX s.BASE.toNat count = true :=
    (needsTooMany_iff hb).2 (not_le.1 fun hle => Nat.not_le.2 h ((byteCount_le_iff count _ (by omega)).1 hle))
  simp only [digitsBody, if_neg hfit, if_neg (Nat.not_lt.2 hb), if_pos hmany]

end

/-- Settles O41: `DIGITS`' body check by check. -/
theorem digitsChecksBeforeItExtracts : Obligations.DigitsChecksBeforeItExtracts := by
  refine fun payload s hph => ⟨fun hc => ?_, fun hc hb => ?_, fun hc hb h => ?_⟩
  · exact exec_digits_raised nofun hph (digitsBody_of_large_count hc)
  · exact exec_digits_raised nofun hph (digitsBody_of_small_base hc hb)
  · exact exec_digits_raised nofun hph (digitsBody_of_too_many hc hb h)

/-- Settles O40: no digits need no raw bytes. -/
theorem digitsOfCountZeroDoesNothing : Obligations.DigitsOfCountZeroDoesNothing := by
  intro payload s h0 hph hb
  have hnb : byteCount s.BASE.toNat (fromBytes payload) = 0 := by rw [h0, byteCount_zero]
  rw [exec_digits hph (by omega) hb (by omega) (by rw [hnb]; exact extractBytes_zero s), h0]
  exact congrArg _ (respond_ok ..)

/-- Settles O38: the raw bytes are those of a plain extraction, and the digits those of the converter. -/
theorem digitsAnswersTheDigitsOfTheRawNumber : Obligations.DigitsAnswersTheDigitsOfTheRawNumber := by
  rintro payload s base count nb width rfl rfl rfl hph hw hN hk hc hb hle hleast hmax
  obtain rfl := byteCount_eq hb hle hleast
  have hx := extractBytes_of_plain (byteCount s.BASE.toNat (fromBytes payload)) hw (Nat.ne_of_gt hN) hk
  obtain ⟨hlen, hdigit, hvalue⟩ := digitsOf_spec (base := s.BASE.toNat) (fromBytes payload) _ (by omega)
  refine ⟨_, hlen, hdigit, hvalue, ?_⟩
  rw [exec_digits hph hc hb hmax hx]
  exact congrArg _ (respond_ok ..)

/-- Settles O39: the raw bytes are those of a whitened extraction, with the pad or, where the port fails, without. -/
theorem digitsWhitenedConvertsTheWhitenedBytes : Obligations.DigitsWhitenedConvertsTheWhitenedBytes := by
  rintro payload s base count nb width rfl rfl rfl hph hw hN hk hc hb hle hleast h1 hmax
  obtain rfl := byteCount_eq hb hle hleast
  refine ⟨fun pad ha => ?_, fun ha => ?_⟩
  · have hx := extractBytes_done (Nat.ne_of_gt h1) (Nat.ne_of_gt hN) hk (fetchPad_of_answer hw ha)
    obtain ⟨hlen, hdigit, hvalue⟩ := digitsOf_spec (base := s.BASE.toNat) (fromBytes payload) _ (by omega)
    refine ⟨_, hlen, hdigit, hvalue, ?_⟩
    rw [exec_digits hph hc hb hmax hx]
    exact congrArg _ (respond_ok ..)
  · have hx := extractBytes_done (Nat.ne_of_gt h1) (Nat.ne_of_gt hN) hk (fetchPad_of_fail hw ha)
    rw [xorBytes_streamBytes_zero] at hx
    obtain ⟨hlen, hdigit, hvalue⟩ := digitsOf_spec (base := s.BASE.toNat) (fromBytes payload) _ (by omega)
    refine ⟨_, hlen, hdigit, hvalue, ?_⟩
    rw [exec_digits hph hc hb hmax hx]
    exact congrArg _ (respond_whiteningUnavailable ..)

/-! ### Digits that are the raw bits -/

theorem valueOfDigits_append (base : Nat) (ds es : List Nat) :
    valueOfDigits base (ds ++ es) = valueOfDigits base ds * base ^ es.length + valueOfDigits base es := by
  conv_lhs => rw [valueOfDigits, List.foldl_append, valueOfDigits_foldl]
  rfl

theorem valueOfDigits_lt {base : Nat} {ds : List Nat} (h : ∀ d ∈ ds, d < base) :
    valueOfDigits base ds < base ^ ds.length := by
  induction ds with
  | nil => simp [valueOfDigits]
  | cons d ds ih =>
    have hd : d < base := h d List.mem_cons_self
    have hds := ih fun e he => h e (List.mem_cons_of_mem d he)
    rw [valueOfDigits_cons, List.length_cons, pow_succ]
    nlinarith

/-- Digits below the base are told apart by their value. -/
theorem eq_of_valueOfDigits_eq {base : Nat} {ds es : List Nat} (hlen : ds.length = es.length)
    (hd : ∀ d ∈ ds, d < base) (he : ∀ d ∈ es, d < base) (h : valueOfDigits base ds = valueOfDigits base es) :
    ds = es := by
  induction ds generalizing es with
  | nil => exact (List.length_eq_zero_iff.1 hlen.symm).symm
  | cons d ds ih =>
    cases es with
    | nil => cases hlen
    | cons e es =>
      have hlen' : ds.length = es.length := Nat.succ.inj hlen
      have hd' : ∀ x ∈ ds, x < base := fun x hx => hd x (List.mem_cons_of_mem d hx)
      have he' : ∀ x ∈ es, x < base := fun x hx => he x (List.mem_cons_of_mem e hx)
      have hlow := valueOfDigits_lt hd'
      have hlow' := valueOfDigits_lt he'
      rw [valueOfDigits_cons, valueOfDigits_cons, hlen'] at h
      rw [hlen'] at hlow
      have hpos : 0 < base ^ es.length := by omega
      have hdiv := congrArg (· / base ^ es.length) h
      have hmod := congrArg (· % base ^ es.length) h
      simp only [Nat.mul_comm _ (base ^ es.length), Nat.mul_add_div hpos, Nat.mul_add_mod,
        Nat.div_eq_of_lt hlow, Nat.div_eq_of_lt hlow', Nat.mod_eq_of_lt hlow, Nat.mod_eq_of_lt hlow',
        Nat.add_zero] at hdiv hmod
      rw [hdiv, ih hlen' hd' he' hmod]

/-- Whatever digits below the base have the raw number's value are the converter's. -/
theorem digitsOf_eq {base : Nat} {raw : List Byte} {ds : List Nat} (hb : 1 ≤ base)
    (hd : ∀ d ∈ ds, d < base) (h : valueOfDigits base ds = fromBytes raw % base ^ ds.length) :
    digitsOf base ds.length raw = ds := by
  obtain ⟨hlen, hdigit, hvalue⟩ := digitsOf_spec ds.length raw hb
  exact eq_of_valueOfDigits_eq hlen hdigit hd (hvalue.trans h.symm)

theorem valueOfDigits_bytes (raw : List Byte) : valueOfDigits 256 (raw.map BitVec.toNat) = fromBytes raw := by
  induction raw with
  | nil => rfl
  | cons b bs ih => rw [List.map_cons, valueOfDigits_cons, ih, List.length_map, fromBytes_cons]

@[simp] theorem byteBits_length (b : Byte) : (byteBits b).length = 8 := by simp [byteBits]

/-- The low `k` bits of a number, most significant first, spell it modulo `2^k`. -/
theorem valueOfDigits_bitOf (v k : Nat) :
    valueOfDigits 2 ((List.range k).map fun t => bitOf v (k - 1 - t)) = v % 2 ^ k := by
  induction k with
  | zero => simp [valueOfDigits, Nat.mod_one]
  | succ k ih =>
    have hrest : ((List.range k).map fun t => bitOf v (k + 1 - 1 - (t + 1)))
        = (List.range k).map fun t => bitOf v (k - 1 - t) :=
      List.map_congr_left fun t _ => congrArg (bitOf v) (by omega)
    rw [List.range_succ_eq_map, List.map_cons, List.map_map, Function.comp_def, hrest, valueOfDigits_cons, ih,
      List.length_map, List.length_range, Nat.mod_pow_succ, Nat.mul_comm, Nat.add_comm]
    rfl

theorem valueOfDigits_byteBits (b : Byte) : valueOfDigits 2 (byteBits b) = b.toNat :=
  (valueOfDigits_bitOf b.toNat 8).trans (Nat.mod_eq_of_lt b.isLt)

theorem flatMap_byteBits_length (raw : List Byte) : (raw.flatMap byteBits).length = 8 * raw.length := by
  simp [List.length_flatMap, Nat.mul_comm]

theorem valueOfDigits_bits (raw : List Byte) : valueOfDigits 2 (raw.flatMap byteBits) = fromBytes raw := by
  induction raw with
  | nil => rfl
  | cons b bs ih =>
    rw [List.flatMap_cons, valueOfDigits_append, valueOfDigits_byteBits, ih, flatMap_byteBits_length,
      fromBytes_cons, pow_mul]
    rfl

theorem byteBits_lt {raw : List Byte} {d : Nat} (h : d ∈ raw.flatMap byteBits) : d < 2 := by
  obtain ⟨b, -, hb⟩ := List.mem_flatMap.1 h
  obtain ⟨t, -, rfl⟩ := List.mem_map.1 hb
  exact bitOf_lt _ _

/-- Dropping the first digits takes the value modulo the power of the base that the others span. -/
theorem valueOfDigits_drop {base : Nat} {ds : List Nat} (h : ∀ d ∈ ds, d < base) (k : Nat) :
    valueOfDigits base (ds.drop k) = valueOfDigits base ds % base ^ (ds.drop k).length := by
  have hlt : valueOfDigits base (ds.drop k) < base ^ (ds.drop k).length :=
    valueOfDigits_lt fun d hd => h d (List.mem_of_mem_drop hd)
  conv_rhs => arg 1; rw [← List.take_append_drop k ds, valueOfDigits_append]
  rw [Nat.mul_add_mod_self_right, Nat.mod_eq_of_lt hlt]

/-- Settles O42: both lists are digits below the base with the value of the raw number, or of its last bits. -/
theorem binaryAndByteDigitsAreTheRawBits : Obligations.BinaryAndByteDigitsAreTheRawBits := by
  refine ⟨fun raw => ?_, fun raw count hcount => ?_⟩
  · have hd : ∀ d ∈ raw.map BitVec.toNat, d < 256 := by
      intro d hd
      obtain ⟨b, -, rfl⟩ := List.mem_map.1 hd
      exact b.isLt
    have hvalue : valueOfDigits 256 (raw.map BitVec.toNat) = fromBytes raw % 256 ^ (raw.map BitVec.toNat).length := by
      rw [valueOfDigits_bytes, List.length_map, Nat.mod_eq_of_lt (fromBytes_lt raw)]
    simpa only [List.length_map] using digitsOf_eq (by decide) hd hvalue
  · have hlen : ((raw.flatMap byteBits).drop (8 * raw.length - count)).length = count := by
      rw [List.length_drop, flatMap_byteBits_length]
      omega
    have hvalue := valueOfDigits_drop (fun _ => byteBits_lt) (8 * raw.length - count) (ds := raw.flatMap byteBits)
    rw [valueOfDigits_bits] at hvalue
    have := digitsOf_eq (by decide) (fun d hd => byteBits_lt (List.mem_of_mem_drop hd)) hvalue
    rwa [hlen] at this

end Sys2Proof.Machine
end

section
/-!
Commands that stop: a port that never answers (93_implementation_defined U2, log entry 5), and arithmetic that 00_scope R7
leaves undefined (log entries 7 and 8).
-/

namespace Sys2Proof.Machine

/-- A legal command whose body stops. -/
theorem exec_stopped {i : Instr} {s : State} {f : Fault} (hr : readOnlyLoad i = false)
    (hl : legalIn i s.PHASE = true) (hb : bodyOf i s = .stopped f) : exec i s = .fault f := by
  rw [exec_eq s hr, runCommand_stopped hl hb]

/-! ### Seeds and squaring -/

theorem seedrBody_of_silent {s : State} (hN : s.N ≠ 0)
    (h : answerTo .highQuality (bytesFor s.KBL.toNat) s = .silent) : seedrBody s = .stopped .portSilent := by
  simp only [seedrBody, if_neg hN, h]

theorem seedrBody_of_zero {s : State} (hN : s.N = 0) : seedrBody s = .stopped .zeroModulus := if_pos hN

theorem seedxBody_of_zero {x : Nat} {s : State} (hfit : bitlen x ≤ s.PARAMS.KMAX) (hx : Nat.gcd x s.N = 1)
    (hN : s.N = 0) : seedxBody x s = .stopped .zeroModulus := by
  rw [seedxBody_of_fits hfit, if_neg (not_not.2 hx), if_pos hN]

theorem sqrBody_of_zero {s : State} (hN : s.N = 0) : sqrBody s = .stopped .zeroModulus := if_pos hN

/-! ### Extraction -/

section
variable {n : Nat} {s : State} (hn : 1 ≤ n)
include hn

theorem extractBytes_of_zero (hN : s.N = 0) : extractBytes n s = .stopped .zeroModulus := by
  rw [extractBytes, if_neg (by omega), if_pos hN]

variable (hN : 1 ≤ s.N)
include hN

theorem extractBytes_of_no_bits (hk : bitsPerSquaring s = 0) : extractBytes n s = .stopped .extractNeverEnds := by
  rw [extractBytes, if_neg (by omega), if_neg (by omega), if_pos hk]

theorem extractBytes_of_silent (hk : 1 ≤ bitsPerSquaring s) (hw : s.WHITEN = true)
    (h : answerTo .advisory n s = .silent) : extractBytes n s = .stopped .portSilent := by
  have hpad : fetchPad n s = .stopped .portSilent := by simp only [fetchPad, hw, if_true, h]
  rw [extractBytes, if_neg (by omega), if_neg (by omega), if_neg (by omega), hpad]
  rfl

end

section
variable {payload : List Byte} {s : State} {f : Fault} (hph : s.PHASE = .ready)
include hph

theorem exec_extract_stopped (hb : fromBytes payload ≤ s.PARAMS.BMAX)
    (h : extractBytes (fromBytes payload) s = .stopped f) : exec (.extract payload) s = .fault f := by
  have hl : legalIn (.extract payload) s.PHASE = true := by rw [hph]; rfl
  refine exec_stopped rfl hl ?_
  rw [bodyOf, extractBody_of_fits hb, h]
  rfl

theorem exec_digits_stopped (hc : fromBytes payload < 2 ^ 32) (hb : 2 ≤ s.BASE.toNat)
    (hraw : byteCount s.BASE.toNat (fromBytes payload) ≤ s.PARAMS.BMAX)
    (h : extractBytes (byteCount s.BASE.toNat (fromBytes payload)) s = .stopped f) :
    exec (.digits payload) s = .fault f := by
  refine exec_stopped rfl (legalIn_digits hph) ?_
  rw [bodyOf, digitsBody_of_checked hc hb hraw, h]
  rfl

end

/-- Settles O54: each command that asks, at each of its requests. -/
theorem silentPortHangsTheCommandThatAsks : Obligations.SilentPortHangsTheCommandThatAsks := by
  intro s
  refine ⟨fun hph hP hQ hk hK => ⟨fun h => ?_, fun drawP p hdrawP hp h => ?_⟩, fun hph hN h => ?_,
    fun payload hph hw hN hk hn hb h => ?_, fun payload nb hph hw hN hk hc hb hle hleast hn hmax h => ?_⟩
  · exact exec_stopped rfl (legalIn_genkey hph) (genkeyBody_of_first_stopped hP hQ hk hK (genPrime_of_silent h))
  · have h₁ := genPrime_of_found (one_le_pBits _) hdrawP hp
    exact exec_stopped rfl (legalIn_genkey hph)
      (genkeyBody_of_second_stopped hP hQ hk hK h₁ (genPrime_of_silent h))
  · exact exec_stopped rfl (by rw [hph]; rfl) (seedrBody_of_silent (by omega) h)
  · exact exec_extract_stopped hph hb (extractBytes_of_silent hn hN hk hw h)
  · obtain rfl := byteCount_eq hb hle hleast
    exact exec_digits_stopped hph hc hb hmax (extractBytes_of_silent hn hN hk hw h)

/-- A digit in a base of at least 2 takes at least one raw byte (44_radix R200). -/
theorem one_le_byteCount {base count : Nat} (hb : 2 ≤ base) (hc : 1 ≤ count) : 1 ≤ byteCount base count := by
  by_contra h
  have hle : base ^ count ≤ 256 ^ 0 := (byteCount_le_iff count 0 (by omega)).1 (by omega)
  have hlt : 1 < base ^ count := Nat.one_lt_pow (by omega) hb
  rw [pow_zero] at hle
  omega

/-- Settles O55: each command that would meet a remainder by 0 or an extraction without end, past its own checks. -/
theorem undefinedArithmeticStopsByName : Obligations.UndefinedArithmeticStopsByName := by
  intro payload s
  refine ⟨fun hph hN => ⟨?_, fun hfit hx => ?_⟩, fun hph hN => ?_, fun hph hn hb => ⟨fun hN => ?_, fun hN hk => ?_⟩,
    fun hph hn hc hb hle => ?_⟩
  · exact exec_stopped rfl (by rw [hph]; rfl) (seedrBody_of_zero hN)
  · exact exec_stopped rfl (by rw [hph]; rfl) (seedxBody_of_zero hfit hx hN)
  · exact exec_stopped rfl (by rw [hph]; rfl) (sqrBody_of_zero hN)
  · exact exec_extract_stopped hph hb (extractBytes_of_zero hn hN)
  · exact exec_extract_stopped hph hb (extractBytes_of_no_bits hn hN hk)
  · have hraw := (byteCount_le_iff (fromBytes payload) s.PARAMS.BMAX (b := s.BASE.toNat) (by omega)).2 hle
    have h1 := one_le_byteCount hb hn
    exact ⟨fun hN => exec_digits_stopped hph hc hb hraw (extractBytes_of_zero h1 hN),
      fun hN hk => exec_digits_stopped hph hc hb hraw (extractBytes_of_no_bits h1 hN hk)⟩

end Sys2Proof.Machine
end

section
/-!
Entropy requests (20_memory section 6): the row of the table that a command follows, where it ends, and what a reset in its
middle sees of it (70_reset section 1).
-/

namespace Sys2Proof.Machine

/-! ### Requests and completion -/

theorem exchanged_respond {s u : State} {rs : List Request} (h : Exchanged s u rs) (op : Byte) (st : Status)
    (payload : List Byte) : Exchanged s (respond op st payload u) rs := h

/-- Error entry moves no tape. -/
theorem exchanged_raiseError {s u : State} {rs : List Request} (h : Exchanged s u rs) (i : Instr) (e : Status) :
    Exchanged s (raiseError i e u) rs := by
  unfold raiseError
  split
  · exact h
  · exact h

theorem requestsOf_readOnlyLoad {i : Instr} {s : State} (h : readOnlyLoad i = true) : requestsOf i s = [] := by
  cases i with
  | ld r payload => simp [requestsOf]
  | rd | clr | genkey | mkn | seedr | seedx | sqr | extract | digits | modexp => cases h

theorem requestsOf_illegal {i : Instr} {s : State} (h : legalIn i s.PHASE = false) : requestsOf i s = [] := by
  simp [requestsOf, h]

/-- A command that completes has exchanged just its requests (20_memory R71). -/
theorem exchanged_of_exec {i : Instr} {s t : State} (h : exec i s = .next t) :
    Exchanged s t (requestsOf i s) := by
  obtain (⟨hr, rfl⟩ | ⟨hl, rfl⟩) | ⟨-, hl, ⟨reply, u, hb, rfl⟩ | ⟨e, u, hb, rfl⟩⟩ := exec_cases h
  · rw [requestsOf_readOnlyLoad hr]
    exact exchanged_raiseError (exchanged_nil rfl rfl rfl) ..
  · rw [requestsOf_illegal hl]
    exact exchanged_raiseError (exchanged_nil rfl rfl rfl) ..
  · exact exchanged_respond ((bodyOf_exchanged hl).1 reply u hb) ..
  · exact exchanged_raiseError ((bodyOf_exchanged hl).2 e u hb) ..

/-! ### The answer to the last request -/

/-- The last request that a command makes gets this answer. -/
def LastAnswered (i : Instr) (s : State) (a : Answer) : Prop :=
  ∃ k, requestsOf i s = (mayAsk i s).take (k + 1) ∧ answerAt i s k = some a

theorem lastAnswered_first {i : Instr} {s : State} {a : Answer} {r : Request} {rs : List Request}
    (hrow : mayAsk i s = r :: rs) (hmade : requestsOf i s = [r]) (ha : answerTo r.port r.count s = a) :
    LastAnswered i s a :=
  ⟨0, by rw [hmade, hrow]; rfl, by simp [answerAt, hrow, ha]⟩

theorem lastAnswered_second {i : Instr} {s : State} {a : Answer} {r r' : Request} {rs : List Request}
    (hrow : mayAsk i s = r :: r' :: rs) (hmade : requestsOf i s = [r, r'])
    (ha : answerTo r'.port r'.count (afterAsking r.port r.count s) = a) : LastAnswered i s a :=
  ⟨1, by rw [hmade, hrow]; rfl, by simp [answerAt, hrow, ha]⟩

/-- A row with an answer to its request `k` has more than `k` requests. -/
theorem lt_length_of_answerAt {i : Instr} {s : State} {k : Nat} {a : Answer} (h : answerAt i s k = some a) :
    k < (mayAsk i s).length := by
  obtain ⟨r, hr, -⟩ := Option.map_eq_some_iff.1 h
  exact (List.getElem?_eq_some_iff.1 hr).1

/-- The requests before the last one were all answered `Ok`. -/
theorem LastAnswered.okBefore {i : Instr} {s : State} {a : Answer} (h : LastAnswered i s a) :
    ∃ k, OkBefore i s k ∧ requestsOf i s = (mayAsk i s).take (k + 1) ∧ answerAt i s k = some a := by
  obtain ⟨k, hmade, ha⟩ := h
  obtain ⟨k', hk', hok, hmade'⟩ := requestsOf_prefix i s
  have hlen := congrArg List.length (hmade'.symm.trans hmade)
  have hk := lt_length_of_answerAt ha
  rw [List.length_take, List.length_take] at hlen
  obtain rfl : k' = k + 1 := by omega
  exact ⟨k, hok, hmade, ha⟩

/-! ### Which request fails or hangs -/

theorem genPrime_entropySourceError {bits : Nat} {s t : State}
    (h : genPrime bits s = .raised .entropySourceError t) : answerTo .highQuality (bytesFor bits) s = .fail := by
  unfold genPrime at h
  split at h
  · cases h
  · next ha => exact ha
  · split at h <;> cases h

/-- `GENKEY` is refused by a check before it draws, or passes them all (41_modulus R140). -/
theorem genkeyBody_cases (s : State) :
    (∃ e, e ≠ .entropySourceError ∧ genkeyBody s = .raised e s) ∨
    (s.PV = false ∧ s.QV = false ∧ 16 ≤ s.KREQ.toNat ∧ s.KREQ.toNat + 1 ≤ s.PARAMS.KMAX) := by
  by_cases hsup : s.PV = true ∨ s.QV = true
  · exact .inl ⟨.invalidParameter, nofun, genkeyBody_of_supplied hsup⟩
  · obtain ⟨hP, hQ⟩ : s.PV = false ∧ s.QV = false := by simpa using hsup
    rcases Nat.lt_or_ge s.KREQ.toNat 16 with hk | hk
    · exact .inl ⟨.invalidParameter, nofun, genkeyBody_of_short hP hQ hk⟩
    · rcases Nat.lt_or_ge s.PARAMS.KMAX (s.KREQ.toNat + 1) with hK | hK
      · exact .inl ⟨.capacityExceeded, nofun, genkeyBody_of_long hP hQ hk hK⟩
      · exact .inr ⟨hP, hQ, hk, hK⟩

theorem requestsOf_genkey {s : State} (hl : legalIn .genkey s.PHASE = true) :
    requestsOf .genkey s = genkeyRequests s := by
  simp [requestsOf, hl]

section
variable {s : State} (hP : s.PV = false) (hQ : s.QV = false) (hk : 16 ≤ s.KREQ.toNat)
  (hK : s.KREQ.toNat + 1 ≤ s.PARAMS.KMAX)
include hP hQ hk hK

/-- Once the first prime is found both requests are `GENKEY`'s (41_modulus R142). -/
theorem genkeyRequests_of_got {p : Nat} {u : State} (h : genPrime (pBits s.KREQ.toNat) s = .got p u) :
    genkeyRequests s =
      [⟨.highQuality, bytesFor (pBits s.KREQ.toNat)⟩, ⟨.highQuality, bytesFor (qBits s.KREQ.toNat)⟩] := by
  rw [genkeyRequests_checked (by simp [hP, hQ]) (Nat.not_lt.2 hk) (Nat.not_lt.2 hK), h]

theorem genkeyRequests_of_raised {e : Status} {u : State} (h : genPrime (pBits s.KREQ.toNat) s = .raised e u) :
    genkeyRequests s = [⟨.highQuality, bytesFor (pBits s.KREQ.toNat)⟩] := by
  rw [genkeyRequests_checked (by simp [hP, hQ]) (Nat.not_lt.2 hk) (Nat.not_lt.2 hK), h]

theorem genkeyRequests_of_stopped {f : Fault} (h : genPrime (pBits s.KREQ.toNat) s = .stopped f) :
    genkeyRequests s = [⟨.highQuality, bytesFor (pBits s.KREQ.toNat)⟩] := by
  rw [genkeyRequests_checked (by simp [hP, hQ]) (Nat.not_lt.2 hk) (Nat.not_lt.2 hK), h]

end

theorem formModulus_not_stopped (p q : Nat) (s : State) (f : Fault) : formModulus p q s ≠ .stopped f := by
  unfold formModulus
  split <;> exact nofun

theorem formModulus_raised {p q : Nat} {s u : State} {e : Status} (h : formModulus p q s = .raised e u) :
    e = .capacityExceeded := by
  unfold formModulus at h
  split at h
  · cases h; rfl
  · cases h

/-- `GENKEY` hangs at the first draw or, the first prime found, at the second. -/
theorem lastAnswered_of_genkey_stopped {s : State} {f : Fault} (hl : legalIn .genkey s.PHASE = true)
    (h : genkeyBody s = .stopped f) : LastAnswered .genkey s .silent := by
  obtain ⟨e, -, he⟩ | ⟨hP, hQ, hk, hK⟩ := genkeyBody_cases s
  · rw [he] at h; cases h
  · rw [genkeyBody_of_checked hP hQ hk hK] at h
    rcases andThen_stopped h with h₁ | ⟨p, s₁, h₁, h⟩
    · refine lastAnswered_first rfl ?_ (genPrime_stopped h₁).2
      exact (requestsOf_genkey hl).trans (genkeyRequests_of_stopped hP hQ hk hK h₁)
    · rcases andThen_stopped h with h₂ | ⟨q, s₂, -, h⟩
      · have hmade := (requestsOf_genkey hl).trans (genkeyRequests_of_got hP hQ hk hK h₁)
        obtain ⟨rfl, -⟩ := genPrime_got h₁
        exact lastAnswered_second rfl hmade (genPrime_stopped h₂).2
      · exact absurd h (formModulus_not_stopped p q s₂ f)

/-- The draw that fails is the first one or, the first prime found, the second. -/
theorem lastAnswered_of_genkey_failed {s u : State} (hl : legalIn .genkey s.PHASE = true)
    (h : genkeyBody s = .raised .entropySourceError u) : LastAnswered .genkey s .fail := by
  obtain ⟨e, hne, he⟩ | ⟨hP, hQ, hk, hK⟩ := genkeyBody_cases s
  · rw [he] at h; cases h; exact absurd rfl hne
  · rw [genkeyBody_of_checked hP hQ hk hK] at h
    rcases andThen_raised h with h₁ | ⟨p, s₁, h₁, h⟩
    · refine lastAnswered_first rfl ?_ (genPrime_entropySourceError h₁)
      exact (requestsOf_genkey hl).trans (genkeyRequests_of_raised hP hQ hk hK h₁)
    · rcases andThen_raised h with h₂ | ⟨q, s₂, -, h⟩
      · have hmade := (requestsOf_genkey hl).trans (genkeyRequests_of_got hP hQ hk hK h₁)
        obtain ⟨rfl, -⟩ := genPrime_got h₁
        exact lastAnswered_second rfl hmade (genPrime_entropySourceError h₂)
      · cases formModulus_raised h

theorem requestsOf_seedr {s : State} (hl : legalIn .seedr s.PHASE = true) (hN : s.N ≠ 0) :
    requestsOf .seedr s = [⟨.highQuality, bytesFor s.KBL.toNat⟩] := by
  simp [requestsOf, hl, seedrRequests, hN]

/-- How `SEEDR`'s body ends short of a seed: by the answer to its one draw, or for want of a modulus (42_seed R160). -/
theorem seedrBody_cases (s : State) :
    (s.N = 0 ∧ seedrBody s = .stopped .zeroModulus) ∨
    (s.N ≠ 0 ∧ ((answerTo .highQuality (bytesFor s.KBL.toNat) s = .silent ∧ seedrBody s = .stopped .portSilent) ∨
      (answerTo .highQuality (bytesFor s.KBL.toNat) s = .fail ∧
        seedrBody s = .raised .entropySourceError (afterAsking .highQuality (bytesFor s.KBL.toNat) s)) ∨
      ∃ reply u, seedrBody s = .got reply u)) := by
  by_cases hN : s.N = 0
  · exact .inl ⟨hN, seedrBody_of_zero hN⟩
  · refine .inr ⟨hN, ?_⟩
    cases ha : answerTo .highQuality (bytesFor s.KBL.toNat) s with
    | silent => exact .inl ⟨rfl, seedrBody_of_silent hN ha⟩
    | fail => exact .inr (.inl ⟨rfl, seedrBody_of_fail hN ha⟩)
    | bytes bs => exact .inr (.inr ⟨_, _, seedrBody_of_draw hN ha⟩)

/-- An extraction that hangs has asked for its pad (43_square_extract R183). -/
theorem extractBytes_portSilent {n : Nat} {s : State} (h : extractBytes n s = .stopped .portSilent) :
    s.WHITEN = true ∧ 1 ≤ n ∧ padRequests n s = [⟨.advisory, n⟩] ∧ answerTo .advisory n s = .silent := by
  obtain ⟨hn, ⟨h', -⟩ | ⟨h', -⟩ | ⟨-, hw, ha⟩⟩ := extractBytes_stopped h
  · cases h'
  · cases h'
  · have hN : s.N ≠ 0 := fun hN => by rw [extractBytes_of_zero (by omega) hN] at h; cases h
    have hk : bitsPerSquaring s ≠ 0 := fun hk => by
      rw [extractBytes_of_no_bits (by omega) (by omega) hk] at h; cases h
    exact ⟨hw, by omega, by simp [padRequests, hn, hN, hk, hw], ha⟩

theorem lastAnswered_of_extract_stopped {payload : List Byte} {s : State}
    (hl : legalIn (.extract payload) s.PHASE = true)
    (h : extractBody (fromBytes payload) s = .stopped .portSilent) : LastAnswered (.extract payload) s .silent := by
  unfold extractBody at h
  split at h
  · cases h
  · next hfit =>
    rcases andThen_stopped h with h | ⟨out, u, -, h⟩
    · obtain ⟨hw, hn, hmade, ha⟩ := extractBytes_portSilent h
      refine lastAnswered_first (r := ⟨.advisory, fromBytes payload⟩) (if_pos ⟨hw, hn⟩) ?_ ha
      simp only [requestsOf, hl, if_true, extractRequests, if_neg hfit, hmade]
    · cases h

theorem lastAnswered_of_digits_stopped {payload : List Byte} {s : State}
    (hl : legalIn (.digits payload) s.PHASE = true)
    (h : digitsBody (fromBytes payload) s = .stopped .portSilent) : LastAnswered (.digits payload) s .silent := by
  simp only [digitsBody] at h
  split at h
  · cases h
  · next hc =>
    split at h
    · cases h
    · next hb =>
      split at h
      · cases h
      · next hraw =>
        rcases andThen_stopped h with h | ⟨out, u, -, h⟩
        · obtain ⟨hw, hn, hmade, ha⟩ := extractBytes_portSilent h
          refine lastAnswered_first (r := ⟨.advisory, byteCount s.BASE.toNat (fromBytes payload)⟩)
            (if_pos ⟨hw, hn⟩) ?_ ha
          simp only [requestsOf, hl, if_true, digitsRequests, if_neg hc, if_neg hb, if_neg hraw, hmade]
        · cases h

/-- A command that hangs waits for the answer to the last request it makes. -/
theorem lastAnswered_of_portSilent {i : Instr} {s : State} (hl : legalIn i s.PHASE = true)
    (h : bodyOf i s = .stopped .portSilent) : LastAnswered i s .silent := by
  cases i with
  | genkey => exact lastAnswered_of_genkey_stopped hl h
  | seedr =>
    obtain ⟨-, hb⟩ | ⟨hN, ⟨ha, -⟩ | ⟨-, hb⟩ | ⟨reply, u, hb⟩⟩ := seedrBody_cases s
    · cases hb.symm.trans h
    · exact lastAnswered_first rfl (requestsOf_seedr hl hN) ha
    · cases hb.symm.trans h
    · cases hb.symm.trans h
  | extract payload => exact lastAnswered_of_extract_stopped hl h
  | digits payload => exact lastAnswered_of_digits_stopped hl h
  | rd | clr => cases h
  | ld r payload => simp only [bodyOf, loadBody] at h; split_ifs at h
  | mkn => simp only [bodyOf, mknBody] at h; split_ifs at h
  | seedx payload => simp only [bodyOf, seedxBody] at h; split_ifs at h <;> cases h
  | sqr => simp only [bodyOf, sqrBody] at h; split_ifs at h; cases h
  | modexp => simp only [bodyOf, modexpBody] at h; split_ifs at h

/-- A command that ends with `EntropySourceError` does so for the answer to its last request (60_exceptions R236). -/
theorem lastAnswered_of_entropySourceError {i : Instr} {s u : State} (hl : legalIn i s.PHASE = true)
    (h : bodyOf i s = .raised .entropySourceError u) : LastAnswered i s .fail := by
  cases i with
  | genkey => exact lastAnswered_of_genkey_failed hl h
  | seedr =>
    obtain ⟨-, hb⟩ | ⟨hN, ⟨-, hb⟩ | ⟨ha, -⟩ | ⟨reply, u', hb⟩⟩ := seedrBody_cases s
    · cases hb.symm.trans h
    · cases hb.symm.trans h
    · exact lastAnswered_first rfl (requestsOf_seedr hl hN) ha
    · cases hb.symm.trans h
  | rd | clr => cases h
  | ld r payload => simp only [bodyOf, loadBody] at h; split_ifs at h <;> cases h
  | mkn => simp only [bodyOf, mknBody] at h; split_ifs at h <;> cases h
  | seedx payload => simp only [bodyOf, seedxBody] at h; split_ifs at h <;> cases h
  | sqr => simp only [bodyOf, sqrBody] at h; split_ifs at h
  | extract payload =>
    simp only [bodyOf, extractBody] at h
    split_ifs at h
    · cases h
    · rcases andThen_raised h with h | ⟨out, u', -, h⟩
      · exact absurd h (extractBytes_not_raised _ _ _ _)
      · cases h
  | digits payload =>
    simp only [bodyOf, digitsBody] at h
    split_ifs at h
    · cases h
    · cases h
    · cases h
    · rcases andThen_raised h with h | ⟨out, u', -, h⟩
      · exact absurd h (extractBytes_not_raised _ _ _ _)
      · cases h
  | modexp => simp only [bodyOf, modexpBody] at h; split_ifs at h; cases h

/-! ### The whole row -/

section
variable {payload : List Byte} {s : State}

theorem requestsOf_extract (hl : legalIn (.extract payload) s.PHASE = true)
    (hb : fromBytes payload ≤ s.PARAMS.BMAX) :
    requestsOf (.extract payload) s = padRequests (fromBytes payload) s := by
  simp only [requestsOf, hl, if_true, extractRequests, if_neg (mt (extractCheck_iff _ s).1 (Nat.not_lt.2 hb))]

theorem requestsOf_digits (hl : legalIn (.digits payload) s.PHASE = true) (hc : fromBytes payload < 2 ^ 32)
    (hb : 2 ≤ s.BASE.toNat) (hraw : byteCount s.BASE.toNat (fromBytes payload) ≤ s.PARAMS.BMAX) :
    requestsOf (.digits payload) s = padRequests (byteCount s.BASE.toNat (fromBytes payload)) s := by
  have hfit : ¬ (!fitsScalar (fromBytes payload)) = true := by simpa [fitsScalar] using hc
  have hfew : ¬ needsTooMany s.PARAMS.BMAX s.BASE.toNat (fromBytes payload) = true :=
    mt (needsTooMany_iff hb).1 (Nat.not_lt.2 hraw)
  simp only [requestsOf, hl, if_true, digitsRequests, if_neg hfit, if_neg (Nat.not_lt.2 hb), if_neg hfew]

end

/-- An extraction that completes has asked for its pad wherever the row has it (20_memory R71). -/
theorem padRequests_of_got {n : Nat} {out : List Byte × Bool} {s u : State} (h : extractBytes n s = .got out u) :
    padRequests n s = if s.WHITEN = true ∧ 1 ≤ n then [⟨.advisory, n⟩] else [] := by
  rcases extractBytes_got h with ⟨rfl, -⟩ | ⟨hn, hN, hk, -⟩
  · simp [padRequests]
  · have hk' : bitsPerSquaring s ≠ 0 := by omega
    simp [padRequests, hn, hN, hk', Nat.one_le_iff_ne_zero]

/-- A body that is done has made all the requests of its row. -/
theorem requestsOf_of_got {i : Instr} {s u : State} {reply : Reply} (hl : legalIn i s.PHASE = true)
    (h : bodyOf i s = .got reply u) : requestsOf i s = mayAsk i s := by
  cases i with
  | ld | rd | clr | mkn | seedx | sqr | modexp => simp [requestsOf, mayAsk]
  | genkey =>
    obtain ⟨hP, hQ, hk, hK, p, q, s₁, s₂, h₁, -⟩ := genkeyBody_got h
    exact (requestsOf_genkey hl).trans (genkeyRequests_of_got hP hQ hk hK h₁)
  | seedr => exact requestsOf_seedr hl (seedrBody_got h).1
  | extract payload =>
    obtain ⟨-, hb, out, ho, -⟩ := extractBody_got h
    rw [requestsOf_extract hl hb, padRequests_of_got ho]
    rfl
  | digits payload =>
    obtain ⟨hc, hb, hraw, -, out, ho, -⟩ := digitsBody_got h
    rw [requestsOf_digits hl hc hb hraw, padRequests_of_got ho]
    rfl

/-- A command that reports `EntropySourceError` was refused by the answer to its last request. -/
theorem lastAnswered_of_exec {i : Instr} {s t : State} (h : exec i s = .next t)
    (hrsp : t.RSP = s.RSP ++ errorResponse i.opcode .entropySourceError) : LastAnswered i s .fail := by
  obtain (⟨-, rfl⟩ | ⟨-, rfl⟩) | ⟨-, hl, ⟨reply, u, hb, rfl⟩ | ⟨e, u, hb, rfl⟩⟩ := exec_cases h
  · cases error_of_raiseError_RSP rfl hrsp
  · cases error_of_raiseError_RSP rfl hrsp
  · rw [respond_RSP, (bodyOf_got_frame hb).1] at hrsp
    have hst := status_of_responsePacket_eq hrsp
    rcases bodyOf_got_status hb with h' | h' <;> cases hst.symm.trans h'
  · obtain rfl := error_of_raiseError_RSP (bodyOf_raised_RSP hb) hrsp
    exact lastAnswered_of_entropySourceError hl hb

/-- A command that completes without an error response has made all the requests of its row. -/
theorem requestsOf_of_no_error {i : Instr} {s t : State} (h : exec i s = .next t)
    (hno : ∀ e : Status, e ≠ .ok → e ≠ .whiteningUnavailable → t.RSP ≠ s.RSP ++ errorResponse i.opcode e) :
    requestsOf i s = mayAsk i s := by
  obtain (⟨-, rfl⟩ | ⟨-, rfl⟩) | ⟨-, hl, ⟨reply, u, hb, rfl⟩ | ⟨e, u, hb, rfl⟩⟩ := exec_cases h
  · exact absurd (raiseError_RSP ..) (hno .illegalCommand nofun nofun)
  · exact absurd (raiseError_RSP ..) (hno .wrongPhase nofun nofun)
  · exact requestsOf_of_got hl hb
  · have hrsp : (raiseError i e u).RSP = s.RSP ++ errorResponse i.opcode e := by
      rw [raiseError_RSP, bodyOf_raised_RSP hb]
    obtain ⟨rfl | rfl | rfl, -⟩ := bodyOf_raised hb
    · exact absurd hrsp (hno _ nofun nofun)
    · exact absurd hrsp (hno _ nofun nofun)
    · exact absurd hrsp (hno _ nofun nofun)

/-- Settles O52: the requests made are a first part of the row, whole where no error is reported, and the last of them
failed where `EntropySourceError` is. -/
theorem entropyRequestsFollowTheTable : Obligations.EntropyRequestsFollowTheTable := by
  refine ⟨fun i s t h => ⟨?_, fun hno => ?_⟩, fun i s h => ?_⟩
  · obtain ⟨k, hk, hok, hmade⟩ := requestsOf_prefix i s
    obtain ⟨hasked, hhq, hadv⟩ := exchanged_of_exec h
    rw [hmade] at hasked hhq hadv
    refine ⟨k, hk, hok, hasked, hhq, hadv, fun hrsp => ?_⟩
    obtain ⟨k', hmade', ha⟩ := lastAnswered_of_exec h hrsp
    have hlen := congrArg List.length (hmade.symm.trans hmade')
    have hk' := lt_length_of_answerAt ha
    rw [List.length_take, List.length_take] at hlen
    obtain rfl : k = k' + 1 := by omega
    exact ⟨by omega, ha⟩
  · rw [← requestsOf_of_no_error h hno]
    exact (exchanged_of_exec h).1
  · obtain ⟨hl, hb⟩ := exec_fault h
    obtain ⟨k, hok, -, ha⟩ := (lastAnswered_of_portSilent hl hb).okBefore
    exact ⟨k, hok, ha⟩

/-- Settles O57: the exchange of a command that completes, and the last request of one that hangs. -/
theorem resetSeesTheRequestsTheCommandMakes : Obligations.ResetSeesTheRequestsTheCommandMakes := by
  refine fun i s => ⟨fun t h => exchanged_of_exec h, fun h => ?_⟩
  obtain ⟨hl, hb⟩ := exec_fault h
  obtain ⟨k, hok, hmade, ha⟩ := (lastAnswered_of_portSilent hl hb).okBefore
  exact ⟨k, ⟨hok, ha⟩, hmade⟩

/-! ### Reset -/

/-- What a reset leaves: the requests on record and the answers not used (70_reset section 1). -/
theorem takeReset_afterRequests (rs : List Request) (s : State) :
    takeReset (afterRequests rs s) =
      resetTo s (afterRequests rs s).ENTHQ (afterRequests rs s).ENTADV (s.ASKED ++ rs) := by
  rw [afterRequests_eq]
  rfl

/-- With no command at the front there is nothing to abandon. -/
theorem step_assertReset_of_no_command {k : Nat} {s : State} (h : ∀ i rest, decode s.CMD ≠ .command i rest) :
    step (assertReset k s) = .next (resetTo s s.ENTHQ s.ENTADV s.ASKED) := by
  have habandon : abandonCommand k (assertReset k s) = assertReset k s := by
    unfold abandonCommand
    split
    · next i rest hd => exact absurd hd (h i rest)
    · rfl
    · rfl
  show Host.Outcome.next (takeReset (abandonCommand k (assertReset k s))) = _
  rw [habandon]
  rfl

/-- A reset that meets a command after `k` of its requests. -/
theorem step_assertReset_of_command {i : Instr} {rest : List Byte} (k : Nat) {s : State} {rs : List Request}
    (hd : decode s.CMD = .command i rest) (hrs : (requestsOf i s).take k = rs) :
    step (assertReset k s) = .next
      (resetTo s (afterRequests rs s).ENTHQ (afterRequests rs s).ENTADV (s.ASKED ++ rs)) := by
  rw [step_assertReset k hd, hrs, takeReset_afterRequests]

/-- Settles O2: by what stands at the front of `CMD`. -/
theorem assertedResetIsTakenNext : Obligations.AssertedResetIsTakenNext := by
  refine fun s k => ⟨?_, step_assertReset_of_no_command, fun i rest hd => ?_⟩
  · by_cases hd : ∃ i rest, decode s.CMD = .command i rest
    · obtain ⟨i, rest, hd⟩ := hd
      rw [step_assertReset_of_command 0 hd List.take_zero, List.append_nil]
      rfl
    · exact step_assertReset_of_no_command fun i rest h => hd ⟨i, rest, h⟩
  · refine ⟨_, rfl, afterRequests_ASKED .., ?_⟩
    rw [step_assertReset_of_command k hd rfl, afterRequests_ASKED]

section
variable {s : State} (hP : s.PV = false) (hQ : s.QV = false) (hk : 16 ≤ s.KREQ.toNat)
  (hK : s.KREQ.toNat + 1 ≤ s.PARAMS.KMAX)
include hP hQ hk hK

/-- Past its checks `GENKEY` makes its first request, whatever comes of it. -/
theorem genkeyRequests_take_one :
    (genkeyRequests s).take 1 = [⟨.highQuality, bytesFor (pBits s.KREQ.toNat)⟩] := by
  cases h : genPrime (pBits s.KREQ.toNat) s with
  | got p u => rw [genkeyRequests_of_got hP hQ hk hK h]; rfl
  | raised e u => rw [genkeyRequests_of_raised hP hQ hk hK h]; rfl
  | stopped f => rw [genkeyRequests_of_stopped hP hQ hk hK h]; rfl

end

/-- A whitened extraction asks for its pad (43_square_extract R183). -/
theorem padRequests_of_whitened {n : Nat} {s : State} (hw : s.WHITEN = true) (hN : 1 ≤ s.N)
    (hk : 1 ≤ bitsPerSquaring s) (hn : 1 ≤ n) : padRequests n s = [⟨.advisory, n⟩] := by
  rw [padRequests, if_neg (by omega), if_neg (by omega), if_neg (by omega), if_pos hw]

/-- Settles O56: the requests made at that moment, command by command; the reset drops their answers. -/
theorem resetDropsTheAnswerOfAnAbandonedRequest : Obligations.ResetDropsTheAnswerOfAnAbandonedRequest := by
  refine fun s rest nb => ⟨?_, ?_, fun payload hph hw hN hk hn hb => ⟨?_, ?_⟩⟩
  · rintro hd hph hN rfl
    have hl : legalIn .seedr s.PHASE = true := by rw [hph]; rfl
    rw [step_assertReset_of_command 1 hd (congrArg _ (requestsOf_seedr hl (by omega)))]
    rfl
  · rintro hd hph hP hQ hk hK rfl
    have hmade := requestsOf_genkey (legalIn_genkey hph)
    refine ⟨?_, fun drawP p hdrawP hp => ?_⟩
    · rw [step_assertReset_of_command 1 hd ((congrArg _ hmade).trans (genkeyRequests_take_one hP hQ hk hK))]
      rfl
    · have hboth := genkeyRequests_of_got hP hQ hk hK (genPrime_of_found (one_le_pBits _) hdrawP hp)
      rw [step_assertReset_of_command 2 hd (congrArg _ (hmade.trans hboth))]
      rfl
  · rintro hd rfl
    have hl : legalIn (.extract payload) s.PHASE = true := by rw [hph]; rfl
    have hmade := (requestsOf_extract hl hb).trans (padRequests_of_whitened hw hN hk hn)
    rw [step_assertReset_of_command 1 hd (congrArg _ hmade)]
    rfl
  · intro hd hc hbase hle hleast
    obtain rfl := byteCount_eq hbase hle hleast
    have hmade := (requestsOf_digits (legalIn_digits hph) hc hbase hb).trans (padRequests_of_whitened hw hN hk hn)
    rw [step_assertReset_of_command 1 hd (congrArg _ hmade)]
    rfl

end Sys2Proof.Machine
end

section
/-!
The extraction machine (43_square_extract R185) against the loop (R178): one bit of the loop is one or two transitions, and
the loop's working registers are the machine's.
-/

namespace Sys2Proof.Machine

/-! ### Runs of the machine -/

/-- The machine comes from one configuration to another in some number of transitions. -/
def Reaches (m m' : Fsm) : Prop := ∃ k, fsmRun k m = m'

theorem reaches_refl (m : Fsm) : Reaches m m := ⟨0, rfl⟩

theorem fsmRun_add (j k : Nat) (m : Fsm) : fsmRun (j + k) m = fsmRun k (fsmRun j m) := by
  induction j generalizing m with
  | zero => rw [Nat.zero_add]; rfl
  | succ j ih => rw [Nat.add_right_comm, fsmRun, ih, fsmRun]

theorem Reaches.trans {m m' m'' : Fsm} (h : Reaches m m') (h' : Reaches m' m'') : Reaches m m'' := by
  obtain ⟨j, rfl⟩ := h
  obtain ⟨k, rfl⟩ := h'
  exact ⟨j + k, fsmRun_add j k m⟩

theorem reaches_of_step {m m' : Fsm} (h : Reaches (fsmStep m) m') : Reaches m m' := by
  obtain ⟨k, rfl⟩ := h
  exact ⟨k + 1, rfl⟩

/-! ### The loop's registers in the machine -/

/-- What holds of the working registers between two bits of an extraction of `n` bytes. -/
structure Packed (n : Nat) (pad : List Byte) (w : Packing) : Prop where
  bits : w.NB < 8
  rest : w.PAD = pad.drop w.OUT.length
  left : w.LEFT + w.OUT.length = n

theorem packed_start (x n : Nat) (pad : List Byte) : Packed n pad (Packing.start x n pad) :=
  ⟨by simp [Packing.start], rfl, rfl⟩

section
variable {n : Nat} {pad : List Byte} {w : Packing} (hw : Packed n pad w)
include hw

theorem packed_of_X (x : Nat) : Packed n pad { w with X := x } := ⟨hw.bits, hw.rest, hw.left⟩

theorem packed_takeBit (j : Nat) (hleft : w.LEFT ≠ 0) : Packed n pad (takeBit j w) := by
  have h1 := hw.bits
  have h2 := hw.left
  unfold takeBit
  split
  · refine ⟨by simp, ?_, ?_⟩
    · simp only [hw.rest, List.tail_drop, List.length_cons]
    · simp only [List.length_cons]
      omega
  · exact ⟨by simp only; omega, hw.rest, h2⟩

theorem packed_takeBits (js : List Nat) : Packed n pad (takeBits js w) := by
  induction js generalizing w with
  | nil => exact hw
  | cons j js ih =>
    unfold takeBits
    split
    · exact hw
    · next hleft => exact ih (packed_takeBit hw j hleft)

theorem packed_squareAndTake (N : Nat) (js : List Nat) (fuel : Nat) :
    Packed n pad (squareAndTake N js fuel w) := by
  induction fuel generalizing w with
  | zero => exact hw
  | succ fuel ih =>
    unfold squareAndTake
    split
    · exact hw
    · exact ih (packed_takeBits (packed_of_X hw _) js)

end

theorem takeBits_of_whole (js : List Nat) {w : Packing} (h : w.LEFT = 0) : takeBits js w = w := by
  cases js with
  | nil => rfl
  | cons j js => exact if_pos h

theorem squareAndTake_of_whole (N : Nat) (js : List Nat) (fuel : Nat) {w : Packing} (h : w.LEFT = 0) :
    squareAndTake N js fuel w = w := by
  cases fuel with
  | zero => rfl
  | succ fuel => exact if_pos h

section
variable (order : BitOrder) (N kk n : Nat) (pad : List Byte)

/-- The configuration with the loop's working registers, in a control state and at a bit of a squaring. -/
def fsmAt (c : Control) (j : Nat) (w : Packing) : Fsm where
  control := c
  X := w.X
  J := j
  ACC := w.ACC
  NB := w.NB
  OUT := w.OUT.reverse
  N := N
  KK := kk
  PAD := pad
  count := n
  order := order

theorem fsmIndex_fsmAt (c : Control) (j : Nat) (w : Packing) :
    fsmIndex (fsmAt order N kk n pad c j w) = takenIndex order kk j := by
  cases order <;> rfl

/-- Where the machine goes when the output may be whole. -/
def unlessWhole (w : Packing) (c : Control) : Control := if w.LEFT = 0 then .done else c

variable {n pad}

/-- One bit of the loop is one transition, or two where it completes a byte. -/
theorem reaches_takeBit {w : Packing} (hw : Packed n pad w) (hleft : w.LEFT ≠ 0) (j : Nat) :
    Reaches (fsmAt order N kk n pad .bit j w)
      (fsmAt order N kk n pad (unlessWhole (takeBit (takenIndex order kk j) w) (fsmAfterBit (j + 1) kk)) (j + 1)
        (takeBit (takenIndex order kk j) w)) := by
  have hindex := fsmIndex_fsmAt order N kk n pad .bit j w
  by_cases h8 : w.NB + 1 = 8
  · have hwhole : w.OUT.length + 1 = n ↔ w.LEFT - 1 = 0 := by have := hw.left; omega
    refine ⟨2, ?_⟩
    simp only [fsmRun, fsmStep, hindex, takeBit, unlessWhole]
    simp only [fsmAt, h8, ↓reduceIte, List.length_reverse, List.reverse_cons, hwhole, hw.rest, headD_drop]
  · refine ⟨1, ?_⟩
    simp only [fsmRun, fsmStep, hindex, takeBit, unlessWhole]
    simp only [fsmAt, h8, hleft, ↓reduceIte]

/-- The bits of one squaring from bit `j` on. -/
theorem reaches_takeBits {w : Packing} (hw : Packed n pad w) (hleft : w.LEFT ≠ 0) {j : Nat} (hj : j < kk) :
    ∃ j', Reaches (fsmAt order N kk n pad .bit j w)
      (fsmAt order N kk n pad (unlessWhole (takeBits ((bitIndices order kk).drop j) w) .square) j'
        (takeBits ((bitIndices order kk).drop j) w)) := by
  obtain ⟨d, hd⟩ : ∃ d, d = kk - j := ⟨_, rfl⟩
  induction d generalizing j w with
  | zero => omega
  | succ d ih =>
    have hbit := reaches_takeBit order N kk hw hleft j
    rw [bitIndices_get order kk j hj, takeBits, if_neg hleft]
    have hpacked := packed_takeBit hw (takenIndex order kk j) hleft
    generalize takeBit (takenIndex order kk j) w = w' at hbit hpacked ⊢
    by_cases h0 : w'.LEFT = 0
    · rw [takeBits_of_whole _ h0]
      rw [unlessWhole, if_pos h0] at hbit ⊢
      exact ⟨_, hbit⟩
    · rw [unlessWhole, if_neg h0] at hbit
      rcases Nat.lt_or_ge (j + 1) kk with hlt | hge
      · obtain ⟨j', hrest⟩ := ih hpacked h0 hlt (by omega)
        rw [fsmAfterBit, if_neg (by omega)] at hbit
        exact ⟨j', hbit.trans hrest⟩
      · rw [fsmAfterBit, if_pos (by omega)] at hbit
        rw [List.drop_eq_nil_of_le (by simpa using hge), takeBits, unlessWhole, if_neg h0]
        exact ⟨_, hbit⟩

theorem reaches_squareAndTake {w : Packing} (hw : Packed n pad w) (hleft : w.LEFT ≠ 0) (hkk : 1 ≤ kk) (j fuel : Nat) :
    ∃ j', Reaches (fsmAt order N kk n pad .square j w)
      (fsmAt order N kk n pad (unlessWhole (squareAndTake N (bitIndices order kk) fuel w) .square) j'
        (squareAndTake N (bitIndices order kk) fuel w)) := by
  induction fuel generalizing j w with
  | zero =>
    rw [squareAndTake, unlessWhole, if_neg hleft]
    exact ⟨j, reaches_refl _⟩
  | succ fuel ih =>
    obtain ⟨j', hbits⟩ := reaches_takeBits order N kk (packed_of_X hw (squareMod N w.X)) hleft (j := 0) hkk
    have hsquare : Reaches (fsmAt order N kk n pad .square j w) _ := reaches_of_step hbits
    rw [List.drop_zero] at hsquare
    rw [squareAndTake, if_neg hleft]
    have hpacked := packed_takeBits (packed_of_X hw (squareMod N w.X)) (bitIndices order kk)
    generalize takeBits (bitIndices order kk) { w with X := squareMod N w.X } = w' at hsquare hpacked ⊢
    by_cases h0 : w'.LEFT = 0
    · rw [squareAndTake_of_whole _ _ _ h0]
      rw [unlessWhole, if_pos h0] at hsquare ⊢
      exact ⟨_, hsquare⟩
    · rw [unlessWhole, if_neg h0] at hsquare
      obtain ⟨j'', hrest⟩ := ih hpacked h0 j'
      exact ⟨j'', hsquare.trans hrest⟩

end

/-- The loop ends with its output whole: as many bytes as the stream's (43_square_extract R178). -/
theorem packLoop_whole {s : State} {n : Nat} {pad : List Byte} (hk : 1 ≤ bitsPerSquaring s) (hpad : pad.length = n) :
    (packLoop s n pad).LEFT = 0 := by
  have hpacked : Packed n pad (packLoop s n pad) := packed_squareAndTake (packed_start s.X n pad) ..
  have hlen := congrArg List.length (packLoop_spec s n pad hk hpad).1
  have hleft := hpacked.left
  simp only [List.length_reverse, xorBytes, List.length_zipWith, streamBytes_length, hpad, Nat.min_self] at hlen
  omega

/-- Settles O37: the machine goes along with the loop, which ends with its output whole. -/
theorem extractionMachineAgreesWithTheLoop : Obligations.ExtractionMachineAgreesWithTheLoop := by
  intro s n pad hn hpad hk
  have hstart : fsmStart s n pad
      = fsmAt s.PARAMS.ACC_BIT_ORDER s.N (bitsPerSquaring s) n pad .square 0 (Packing.start s.X n pad) := rfl
  obtain ⟨j, steps, hrun⟩ := reaches_squareAndTake s.PARAMS.ACC_BIT_ORDER s.N (bitsPerSquaring s)
    (packed_start s.X n pad) (Nat.ne_of_gt hn) hk 0 (8 * n)
  refine ⟨steps, ?_⟩
  rw [hstart, hrun]
  exact ⟨if_pos (packLoop_whole hk hpad), rfl, rfl⟩

end Sys2Proof.Machine
end
